-- ==== Sys2Proof/Word.lean ====
section
/-! DEFINITION. The words of the block: a byte is a `u8` (R10), a timestamp has `TS_WIDTH` = 64 bits
(R8, D13), a `timeout` operand 32 bits (R8, D14), a checksum 32 bits (R140). A byte sequence (R11) is a
list, index 0 first on the wire. -/

namespace Sys2Proof

abbrev Byte := BitVec 8
abbrev Bytes := List Byte
abbrev Word32 := BitVec 32
abbrev Time := BitVec 64
abbrev Timeout := BitVec 32

end Sys2Proof
end

