-- ==== Sys2Proof/Config.lean ====
section
/-! DEFINITION. The implementation parameters of rule R8: the constants the spec fixes, as data every parameter it
leaves OPEN (with the presence of the two log sinks, U18), and the free values. -/

namespace Sys2Proof

/-- R8 `SYNC1`. -/
def Config.sync1 : Byte := 0xBA
/-- R8 `SYNC2`. -/
def Config.sync2 : Byte := 0xCE
/-- R8 `NMEA_START` (`$`). -/
def Config.nmeaStart : Byte := 0x24
/-- R8 `NMEA_END` (line feed). -/
def Config.nmeaEnd : Byte := 0x0A
/-- R8 `MAX_PAYLOAD`: the largest payload the parser accepts. -/
def Config.maxPayload : Nat := 4096
/-- R8 `NMEA_MAX`: the sentence guard. -/
def Config.nmeaMax : Nat := 1024
/-- R8 `MIN_FRAME` = `HDR_LEN` + `CK_LEN`. -/
def Config.minFrame : Nat := 10
/-- R8 `MAX_FRAME` = `MIN_FRAME` + `MAX_PAYLOAD`. -/
def Config.maxFrame : Nat := 4106
/-- R145, R146: the largest payload the 16-bit length field can count. -/
def Config.maxLength : Nat := 65535
/-- R8 `CLASS_ACK`. -/
def Config.classAck : Byte := 0x05
/-- R8 `ID_ACK_ACK`. -/
def Config.idAckAck : Byte := 0x01
/-- R8 `ID_ACK_NAK`. -/
def Config.idAckNak : Byte := 0x00

/-- R98: the pseudo-class under which the name registry keys sentences (R113, R121). -/
def Config.classNmea : Byte := 0x4E

/-- R8 `PROBE_RETRIES`, a constant of the host (R290). -/
def Config.probeRetries : Nat := 5

/-- The OPEN parameters of R8, taken as an argument by every step (`State.params`; R50: fixed when the block is built,
the same before and after reset). `EVQ_DEPTH` is not open: it is unbounded in the model (D21). -/
structure Config.Params where
  /-- `READ_MAX` less one: it is any integer `>= 1` (D17). -/
  readMaxLess1 : Nat
  /-- `POLL_SLICE`, in `TICK`s (R244, D17): it bounds how long one read may block and enters no result. -/
  pollSlice : Nat
  /-- `TICK`, the unit of `now`, of timestamps and of timeouts (D13), in microseconds (the unit of this field is the
  model's: log entry 10). -/
  tick : Nat
  /-- `T_INITIAL`, the host's first wait of a query, in `TICK`s (R239, D39). -/
  tInitial : Timeout
  /-- `T_SUBSEQUENT`, the host's further waits of a query, in `TICK`s (R239, D39). -/
  tSubsequent : Timeout
  /-- Whether the log sink is present (R346, U18). -/
  logSink : Bool
  /-- Whether the packet-log sink is present (R347, U18). -/
  pktLogSink : Bool
  deriving DecidableEq, Repr

/-- R8 `TICK`: how long a number of ticks is, in microseconds. -/
def Config.Params.duration (p : Config.Params) (ticks : Nat) : Nat := ticks * p.tick

/-- R116: what the 16-bit `len` of a result holds when `data` has more than 65535 bytes, which the spec does not state
(a run longer than that needs `READ_MAX` of 65535 or more). A FREE VALUE of the length of `data`: nothing is known of
it (DESIGN CHOICE, log entry 21). -/
opaque Config.lenBeyond : Nat → BitVec 16

/-- R113, R121: the `n` of the key `(0x4E, n)` under which the name registry holds a sentence's name, of the sentence's
bytes. The spec does not state it: a FREE VALUE (DESIGN CHOICE, log entry 23). -/
opaque Config.sentenceKey : Bytes → Byte

/-- R113, R51: what the name registry holds for a class and an id that R99 does not list, those of class `0x4E` among
them: a name, or none where it has no such key. The spec does not state it: a FREE VALUE (DESIGN CHOICE, log entry 23). -/
opaque Config.registryName : Byte → Byte → Option String

/-- R346: the severities the log sink accepts records at. -/
inductive Severity where
  | debug | info | warning | error
  deriving DecidableEq, Repr, Inhabited

/-- R346, R223: the severity of the record of a sent frame, of the frame's bytes and the record's time. The spec does not
state it: a FREE VALUE (DESIGN CHOICE, log entry 22). -/
opaque Config.sentSeverity : Bytes → Time → Severity

/-- R346, R225: the severity of the record of a popped event, of the event's tag number (R111), bytes and timestamp. The
spec does not state it: a FREE VALUE (DESIGN CHOICE, log entry 22). -/
opaque Config.receivedSeverity : BitVec 2 → Bytes → Time → Severity

/-- R8 `READ_MAX`. -/
def Config.Params.readMax (p : Config.Params) : Nat := p.readMaxLess1 + 1

end Sys2Proof
end

