-- ==== Sys2Proof/Syntax.lean ====
section
/-! DEFINITION. The instructions: one constructor per row of `spec/opcode_table.json`, in the table's order. -/

namespace Sys2Proof

/-- R92: the Message Identifier, a `(class, id)` pair with equality by value. -/
structure MsgId where
  cls : Byte
  id : Byte
  deriving DecidableEq, Repr

/-- R114: the operands of a command descriptor. Every descriptor has every field; a command ignores those it
does not use (U5). The field `len` is the length of `payload`. -/
structure Descriptor where
  cls : Byte
  id : Byte
  payload : Bytes
  timeout : Timeout
  deriving DecidableEq, Repr

/-- The rows of the opcode table. The frame rows carry the payload and the checksum field as they stand on
the wire (R90), whatever their values: a frame whose checksum is wrong is still bytes the block handles. -/
inductive Instr where
  -- format CMD (R115)
  | send (d : Descriptor)
  | receivePacket (d : Descriptor)
  | receive (d : Descriptor)
  | sendAndWaitAck (d : Descriptor)
  | poll (d : Descriptor)
  | reservedOp0 (d : Descriptor)
  | reservedOp6 (d : Descriptor)
  | reservedOp7 (d : Descriptor)
  -- format INTERNAL (R140 to R181)
  | checksum (cls id : Byte) (payload : Bytes)
  | pack (cls id : Byte) (payload : Bytes)
  | unpack (buffer : Bytes)
  | feedByte (b : Byte) (ts : Time)
  | feedEnd
  | feed (c : Bytes) (ts : Time)
  | popEvent
  -- format STREAM1 (R97, R172)
  | idleSync1
  | idleNmeaStart
  | idleUnknown (b : Byte)
  -- format FRAME (R90, R99)
  | casicFrame (m : MsgId) (payload : Bytes) (ck : Word32)
  | ackNak (payload : Bytes) (ck : Word32)
  | ackAck (payload : Bytes) (ck : Word32)
  | monVer (payload : Bytes) (ck : Word32)
  | cfgPrt (payload : Bytes) (ck : Word32)
  | cfgMsg (payload : Bytes) (ck : Word32)
  | cfgRst (payload : Bytes) (ck : Word32)
  | cfgTp (payload : Bytes) (ck : Word32)
  | cfgRate (payload : Bytes) (ck : Word32)
  | cfgCfg (payload : Bytes) (ck : Word32)
  | cfgTmode (payload : Bytes) (ck : Word32)
  | cfgNavx (payload : Bytes) (ck : Word32)
  deriving DecidableEq, Repr

/-- The identifiers of R99 that have a row of their own, with the names the source gives them. -/
def MsgId.ackNak : MsgId := ⟨0x05, 0x00⟩
def MsgId.ackAck : MsgId := ⟨0x05, 0x01⟩
def MsgId.monVer : MsgId := ⟨0x0A, 0x04⟩
def MsgId.cfgPrt : MsgId := ⟨0x06, 0x00⟩
def MsgId.cfgMsg : MsgId := ⟨0x06, 0x01⟩
def MsgId.cfgRst : MsgId := ⟨0x06, 0x02⟩
def MsgId.cfgTp : MsgId := ⟨0x06, 0x03⟩
def MsgId.cfgRate : MsgId := ⟨0x06, 0x04⟩
def MsgId.cfgCfg : MsgId := ⟨0x06, 0x05⟩
def MsgId.cfgTmode : MsgId := ⟨0x06, 0x06⟩
def MsgId.cfgNavx : MsgId := ⟨0x06, 0x07⟩

/-- The eleven identifiers of R99. -/
def MsgId.named : List MsgId :=
  [.ackNak, .ackAck, .monVer, .cfgPrt, .cfgMsg, .cfgRst, .cfgTp, .cfgRate, .cfgCfg, .cfgTmode, .cfgNavx]

/-- R98: the message classes the source lists (the list is not said to be complete). The block filters on
none of them (R120). -/
inductive MsgClass where
  | nav | tim | rxm | ack | cfg | msg | mon | aid | nmeaPseudo
  deriving DecidableEq, Repr

/-- R98: the class byte of each listed class; `0x4E` is the pseudo-class of R121. -/
def MsgClass.code : MsgClass → Byte
  | .nav => 0x01
  | .tim => 0x02
  | .rxm => 0x03
  | .ack => 0x05
  | .cfg => 0x06
  | .msg => 0x08
  | .mon => 0x0A
  | .aid => 0x0B
  | .nmeaPseudo => 0x4E

end Sys2Proof
end

