-- ==== Sys2Proof/Machine/Operands.lean ====
section
/-! DEFINITION. Operand assembly: the byte orders, the indexed reads and the assembled values of rules R11,
R12, R61, R67 and R122, written once. -/

namespace Sys2Proof.Machine

/-- R11 `zeros(n)`. -/
def zeros (n : Nat) : Bytes := List.replicate n 0

/-- R11 `s[i]`; the rules never index past the end of a sequence. -/
def byteAt (s : Bytes) (i : Nat) : Byte := s.getD i 0

/-- R11 `le16` of two bytes, low first. -/
def le16 (lo hi : Byte) : Nat := lo.toNat + 256 * hi.toNat

/-- R11 `le32` of four bytes, low first. -/
def le32 (b0 b1 b2 b3 : Byte) : Nat :=
  b0.toNat + 2 ^ 8 * b1.toNat + 2 ^ 16 * b2.toNat + 2 ^ 24 * b3.toNat

/-- R12 `MemRead(buf, off, 2)`. -/
def memRead16 (buf : Bytes) (off : Nat) : Nat := le16 (byteAt buf off) (byteAt buf (off + 1))

/-- R12 `MemRead(buf, off, 4)`. -/
def memRead32 (buf : Bytes) (off : Nat) : Nat :=
  le32 (byteAt buf off) (byteAt buf (off + 1)) (byteAt buf (off + 2)) (byteAt buf (off + 3))

/-- R11 `s[i..j)`. -/
def slice (s : Bytes) (i j : Nat) : Bytes := (s.drop i).take (j - i)

/-- The byte of a number that lies `k` bytes above its least significant one. -/
def byteOf (v k : Nat) : Byte := BitVec.ofNat 8 (v / 256 ^ k)

/-- R11 `bytes_le16`. -/
def bytesLe16 (v : Nat) : Bytes := [byteOf v 0, byteOf v 1]

/-- R11 `bytes_le32`. -/
def bytesLe32 (v : Nat) : Bytes := [byteOf v 0, byteOf v 1, byteOf v 2, byteOf v 3]

/-- Eight bytes, low first: the model's own layout of a timestamp operand. -/
def bytesLe64 (v : Nat) : Bytes := bytesLe32 v ++ bytesLe32 (v / 2 ^ 32)

/-- The number eight bytes hold, low first. -/
def memRead64 (buf : Bytes) (off : Nat) : Nat :=
  memRead32 buf off + 2 ^ 32 * memRead32 buf (off + 4)

/-- R90, R61: the frame of an identifier, a payload and a checksum field, in wire order. -/
def frameBytes (m : MsgId) (payload : Bytes) (ck : Word32) : Bytes :=
  [Config.sync1, Config.sync2] ++ bytesLe16 payload.length ++ [m.cls, m.id] ++ payload
    ++ bytesLe32 ck.toNat

end Sys2Proof.Machine
end

