-- ==== Sys2Proof/WellFormed.lean ====
section
/-! DEFINITION. Which instructions are well formed: those the encodings of R90, R97 and R114 can express,
each in the row that R125 selects for it. -/

namespace Sys2Proof

/-- The checks, by name. -/
inductive IllFormed where
  /-- R146, U13: a payload longer than 65535 bytes has no length field. -/
  | payloadTooLong
  /-- R125: the `STREAM1` row of an unrecognised byte loses `0xBA` and `0x24` to the rows with more mask bits. -/
  | triggerAsUnknown
  /-- R125: the generic frame row loses the identifiers of R99 to their own rows. -/
  | namedAsGeneric
  deriving DecidableEq, Repr

/-- A payload the 16-bit length field can count (R146). -/
def lengthFits (p : Bytes) : Bool := p.length ≤ Config.maxLength

/-- The check of one length-counted payload. -/
def checkPayload (p : Bytes) : Option IllFormed :=
  if lengthFits p then none else some .payloadTooLong

/-- The first check an instruction fails, if any. -/
def Instr.check : Instr → Option IllFormed
  | .send d => checkPayload d.payload
  | .receivePacket d => checkPayload d.payload
  | .receive d => checkPayload d.payload
  | .sendAndWaitAck d => checkPayload d.payload
  | .poll d => checkPayload d.payload
  | .reservedOp0 d => checkPayload d.payload
  | .reservedOp6 d => checkPayload d.payload
  | .reservedOp7 d => checkPayload d.payload
  | .checksum _ _ p => checkPayload p
  | .pack _ _ p => checkPayload p
  | .unpack _ => none
  | .feedByte _ _ => none
  | .feedEnd => none
  | .feed _ _ => none
  | .popEvent => none
  | .idleSync1 => none
  | .idleNmeaStart => none
  | .idleUnknown b =>
    if b = Config.sync1 ∨ b = Config.nmeaStart then some .triggerAsUnknown else none
  | .casicFrame m p _ =>
    if m ∈ MsgId.named then some .namedAsGeneric else checkPayload p
  | .ackNak p _ => checkPayload p
  | .ackAck p _ => checkPayload p
  | .monVer p _ => checkPayload p
  | .cfgPrt p _ => checkPayload p
  | .cfgMsg p _ => checkPayload p
  | .cfgRst p _ => checkPayload p
  | .cfgTp p _ => checkPayload p
  | .cfgRate p _ => checkPayload p
  | .cfgCfg p _ => checkPayload p
  | .cfgTmode p _ => checkPayload p
  | .cfgNavx p _ => checkPayload p

/-- A well-formed instruction passes every check. -/
abbrev Instr.WellFormed (i : Instr) : Prop := i.check = none

end Sys2Proof
end

