-- ==== Sys2Proof/Decode.lean ====
section
/-! DEFINITION. The decoder, total on any bytes and rejecting by name, and after it the encoder. The table's
four formats (R125) are over four different things, so a decoder is given the format with the bytes.
`STREAM1` and `FRAME` are the bytes of the wire (R90, R97). The byte layouts of `CMD` and `INTERNAL` are this
model's (DESIGN CHOICE, log entry 1): R114 gives a descriptor's fields and widths and R18 gives the ports,
at transaction level. -/

namespace Sys2Proof

open Machine

/-- The four formats of R125. -/
inductive Format where
  | cmd | internal | stream1 | frame
  deriving DecidableEq, Repr

/-- Why bytes are no instruction of a format. -/
inductive Reject where
  /-- The bytes end before the fields do, or go on after them. -/
  | badLength
  /-- `CMD`: `op` is a field of 3 bits (R114) and the byte that carries it holds more. -/
  | badOp
  /-- `INTERNAL`: no operation has this selector. -/
  | badSelector
  /-- `FRAME`: the first two bytes are not `0xBA 0xCE` (R90). -/
  | badSync
  deriving DecidableEq, Repr

/-- What the decoder answers. -/
inductive Decoded where
  | ok (i : Instr)
  | reject (r : Reject)
  deriving DecidableEq, Repr

/-- R115: the command of an `op` byte. -/
def decodeOp (op : Byte) (d : Descriptor) : Decoded :=
  if op = 0 then .ok (.reservedOp0 d)
  else if op = 1 then .ok (.send d)
  else if op = 2 then .ok (.receivePacket d)
  else if op = 3 then .ok (.receive d)
  else if op = 4 then .ok (.sendAndWaitAck d)
  else if op = 5 then .ok (.poll d)
  else if op = 6 then .ok (.reservedOp6 d)
  else if op = 7 then .ok (.reservedOp7 d)
  else .reject .badOp

/-- R114, in its order: `op`, `class`, `id`, `len` (two bytes, low first), `payload` (`len` bytes),
`timeout` (four bytes, low first). -/
def decodeCmd (bs : Bytes) : Decoded :=
  if bs.length = 9 + memRead16 bs 3 then
    decodeOp (byteAt bs 0)
      { cls := byteAt bs 1
        id := byteAt bs 2
        payload := slice bs 5 (5 + memRead16 bs 3)
        timeout := BitVec.ofNat 32 (memRead32 bs (5 + memRead16 bs 3)) }
  else .reject .badLength

/-- The `INTERNAL` operations in the table's order, selector byte first, then the operands; the last operand
of variable length runs to the end of the transaction. -/
def decodeInternal : Bytes → Decoded
  | [] => .reject .badLength
  | sel :: ops =>
    if sel = 0 then
      match ops with
      | c :: i :: p => if lengthFits p then .ok (.checksum c i p) else .reject .badLength
      | _ => .reject .badLength
    else if sel = 1 then
      match ops with
      | c :: i :: p => if lengthFits p then .ok (.pack c i p) else .reject .badLength
      | _ => .reject .badLength
    else if sel = 2 then .ok (.unpack ops)
    else if sel = 3 then
      match ops with
      | b :: ts => if ts.length = 8 then .ok (.feedByte b (BitVec.ofNat 64 (memRead64 ts 0))) else .reject .badLength
      | [] => .reject .badLength
    else if sel = 4 then if ops = [] then .ok .feedEnd else .reject .badLength
    else if sel = 5 then
      if 8 ≤ ops.length then .ok (.feed (ops.drop 8) (BitVec.ofNat 64 (memRead64 ops 0))) else .reject .badLength
    else if sel = 6 then if ops = [] then .ok .popEvent else .reject .badLength
    else .reject .badSelector

/-- R97: the first-byte dispatch of the stream, one byte. -/
def decodeStream1 : Bytes → Decoded
  | [b] =>
    if b = Config.sync1 then .ok .idleSync1
    else if b = Config.nmeaStart then .ok .idleNmeaStart
    else .ok (.idleUnknown b)
  | _ => .reject .badLength

/-- R99, R125: the frame row of an identifier; one that R99 does not list falls to the generic row. -/
def frameRow (m : MsgId) (p : Bytes) (ck : Word32) : Instr :=
  if m = .ackNak then .ackNak p ck
  else if m = .ackAck then .ackAck p ck
  else if m = .monVer then .monVer p ck
  else if m = .cfgPrt then .cfgPrt p ck
  else if m = .cfgMsg then .cfgMsg p ck
  else if m = .cfgRst then .cfgRst p ck
  else if m = .cfgTp then .cfgTp p ck
  else if m = .cfgRate then .cfgRate p ck
  else if m = .cfgCfg then .cfgCfg p ck
  else if m = .cfgTmode then .cfgTmode p ck
  else if m = .cfgNavx then .cfgNavx p ck
  else .casicFrame m p ck

/-- R90, R61: a whole frame, exactly `10 + L` bytes with `L` its length field. -/
def decodeFrame (bs : Bytes) : Decoded :=
  if bs.length = 10 + memRead16 bs 2 then
    if byteAt bs 0 = Config.sync1 ∧ byteAt bs 1 = Config.sync2 then
      .ok (frameRow ⟨byteAt bs 4, byteAt bs 5⟩ (slice bs 6 (6 + memRead16 bs 2))
        (BitVec.ofNat 32 (memRead32 bs (6 + memRead16 bs 2))))
    else .reject .badSync
  else .reject .badLength

/-- The decoder. -/
def decode : Format → Bytes → Decoded
  | .cmd, bs => decodeCmd bs
  | .internal, bs => decodeInternal bs
  | .stream1, bs => decodeStream1 bs
  | .frame, bs => decodeFrame bs

/-- The format of each row of the table. -/
def formatOf : Instr → Format
  | .send _ | .receivePacket _ | .receive _ | .sendAndWaitAck _ | .poll _ => .cmd
  | .reservedOp0 _ | .reservedOp6 _ | .reservedOp7 _ => .cmd
  | .checksum _ _ _ | .pack _ _ _ | .unpack _ | .feedByte _ _ | .feedEnd | .feed _ _ | .popEvent => .internal
  | .idleSync1 | .idleNmeaStart | .idleUnknown _ => .stream1
  | .casicFrame _ _ _ | .ackNak _ _ | .ackAck _ _ | .monVer _ _ | .cfgPrt _ _ | .cfgMsg _ _ => .frame
  | .cfgRst _ _ | .cfgTp _ _ | .cfgRate _ _ | .cfgCfg _ _ | .cfgTmode _ _ | .cfgNavx _ _ => .frame

/-- R114: the bytes of a descriptor under an `op` code. -/
def encodeCmd (op : Byte) (d : Descriptor) : Bytes :=
  [op, d.cls, d.id] ++ bytesLe16 d.payload.length ++ d.payload ++ bytesLe32 d.timeout.toNat

/-- The bytes of an instruction in its format. -/
def encode : Instr → Bytes
  | .send d => encodeCmd 1 d
  | .receivePacket d => encodeCmd 2 d
  | .receive d => encodeCmd 3 d
  | .sendAndWaitAck d => encodeCmd 4 d
  | .poll d => encodeCmd 5 d
  | .reservedOp0 d => encodeCmd 0 d
  | .reservedOp6 d => encodeCmd 6 d
  | .reservedOp7 d => encodeCmd 7 d
  | .checksum c i p => 0 :: c :: i :: p
  | .pack c i p => 1 :: c :: i :: p
  | .unpack buf => 2 :: buf
  | .feedByte b ts => 3 :: b :: bytesLe64 ts.toNat
  | .feedEnd => [4]
  | .feed c ts => 5 :: (bytesLe64 ts.toNat ++ c)
  | .popEvent => [6]
  | .idleSync1 => [Config.sync1]
  | .idleNmeaStart => [Config.nmeaStart]
  | .idleUnknown b => [b]
  | .casicFrame m p ck => frameBytes m p ck
  | .ackNak p ck => frameBytes .ackNak p ck
  | .ackAck p ck => frameBytes .ackAck p ck
  | .monVer p ck => frameBytes .monVer p ck
  | .cfgPrt p ck => frameBytes .cfgPrt p ck
  | .cfgMsg p ck => frameBytes .cfgMsg p ck
  | .cfgRst p ck => frameBytes .cfgRst p ck
  | .cfgTp p ck => frameBytes .cfgTp p ck
  | .cfgRate p ck => frameBytes .cfgRate p ck
  | .cfgCfg p ck => frameBytes .cfgCfg p ck
  | .cfgTmode p ck => frameBytes .cfgTmode p ck
  | .cfgNavx p ck => frameBytes .cfgNavx p ck

/-- The first `n` bytes of a number, the least significant first. -/
def wordBytes (n w : Nat) : Bytes := (List.range n).map (byteOf w)

/-- Bytes made up to a length with zeros. -/
def padTo (n : Nat) (bs : Bytes) : Bytes := bs ++ zeros (n - bs.length)

/-- The transaction a table word stands for. A `CMD` row's word is its `op` byte (below 8), and the bytes of a
descriptor above it; another single byte is a `STREAM1` row's; a longer word is a frame, its first wire byte
in bits 7..0. R125 writes a `FRAME` pattern with byte 0 leftmost: a 48-bit word with `0xBACE` in its top bits is read
that way, but where it has `0xCEBA` in its low bits too: such a word is a frame in both readings, and it is read with its
first wire byte in bits 7..0 (length, class and id then stand in the order that reading gives them). The `INTERNAL` rows
have no bits (`nbits` = 0): selector 0. Bits above the word are zero, up to the length the word itself declares. All of
this is the model's choice (DESIGN CHOICE, log entry 1). -/
def tableWord (nbits w : Nat) : Format × Bytes :=
  if nbits = 0 then (.internal, zeros 3)
  else if nbits = 48 ∧ w / 2 ^ 32 = 0xBACE ∧ w % 2 ^ 16 ≠ 0xCEBA then
    (.frame, padTo (10 + memRead16 (wordBytes 6 w).reverse 2) (wordBytes 6 w).reverse)
  else if w % 256 < 8 then
    (.cmd, padTo (9 + memRead16 (wordBytes ((nbits + 7) / 8) w) 3) (wordBytes ((nbits + 7) / 8) w))
  else if nbits ≤ 8 then (.stream1, wordBytes 1 w)
  else (.frame, padTo (10 + memRead16 (wordBytes ((nbits + 7) / 8) w) 2) (wordBytes ((nbits + 7) / 8) w))

/-- The instruction the decoder reads from a table word. -/
def decodeTableWord (nbits w : Nat) : Option Instr :=
  match decode (tableWord nbits w).1 (tableWord nbits w).2 with
  | .ok i => some i
  | .reject _ => none

end Sys2Proof
end

