-- ==== Sys2Proof/Machine/State.lean ====
section
/-! DEFINITION. The state of the block as plain data: the `DEMUX` and `ARBITER` elements of rule R21, the build
parameters (R8), what stands at its input ports, what its environment will do, and what its output ports have
delivered. `State.reset` is the machine right after reset (R53, R361). -/

namespace Sys2Proof.Machine

/-- R22: the parser sequencer's six resting states. -/
inductive PState where
  | idle | sync1 | sync2 | lenLo | body | nmea
  deriving DecidableEq, Repr

/-- R22: their encodings, 3 bits. -/
def PState.code : PState → BitVec 3
  | .idle => 0
  | .sync1 => 1
  | .sync2 => 2
  | .lenLo => 3
  | .body => 4
  | .nmea => 5

/-- R40: the arbiter sequencer's four values. -/
inductive AState where
  | idle | tx | wait | fault
  deriving DecidableEq, Repr

/-- R40: their encodings, 2 bits. -/
def AState.code : AState → BitVec 2
  | .idle => 0
  | .tx => 1
  | .wait => 2
  | .fault => 3

/-- R110: a Stream Event. -/
inductive Event where
  | casicPacket (msgId : MsgId) (payload : Bytes) (ts : Time) (raw : Bytes)
  | nmeaSentence (bytes : Bytes) (ts : Time)
  | unknownBytes (bytes : Bytes) (ts : Time)
  deriving DecidableEq, Repr

/-- R21, the rows marked D. -/
structure Demux where
  pstate : PState
  lenLo : Byte
  remaining : Nat
  acc : Bytes
  accTs : Time
  unk : Bytes
  unkTs : Time
  evq : List Event
  deriving DecidableEq, Repr

/-- R53, R361: the parser after reset. `LEN_LO`, `REMAINING`, `ACC_TS` and `UNK_TS` are "unspecified; not read
before written": zero here (DESIGN CHOICE, log entry 2). -/
def Demux.fresh : Demux :=
  { pstate := .idle, lenLo := 0, remaining := 0, acc := [], accTs := 0, unk := [], unkTs := 0, evq := [] }

/-- R21, the rows marked A, and three latches of the model (log entry 5): `tmo`, the `timeout` operand of the
command in progress, copied at acceptance (R82) and read when the wait is armed (R231); `txSent`, how many bytes
of `TXBUF` `PortWrite` has handed over (R47); `inRead`, whether a `PortRead` has begun and not returned (R224). -/
structure Arbiter where
  astate : AState
  op : BitVec 3
  pendClass : Byte
  pendId : Byte
  deadline : Nat
  txbuf : Bytes
  seenValid : Bool
  tmo : Timeout
  txSent : Nat
  inRead : Bool
  deriving DecidableEq, Repr

/-- R53, R361: the arbiter after reset; `OP`, `PEND_CLASS`, `PEND_ID` and `DEADLINE` are unspecified: zero here
(DESIGN CHOICE, log entry 2). -/
def Arbiter.fresh : Arbiter :=
  { astate := .idle, op := 0, pendClass := 0, pendId := 0, deadline := 0, txbuf := [], seenValid := false
    tmo := 0, txSent := 0, inRead := false }

/-- How one `PortRead` ends (R66, U3): it returns at most `n` bytes; it fails (R325); or it has not returned
when the step ends (the block stays in `A_WAIT`, its read outstanding). -/
inductive ReadDraw where
  | got (n : Nat)
  | fail
  | pause
  deriving DecidableEq, Repr

/-- How one `PortWrite` or `PortFlush` ends (R79, R237, U16): it returns; it fails after `k` bytes have gone to
the transport; or `k` bytes have gone and it has not returned when the step ends (the block stays in `A_TX`). -/
inductive WriteDraw where
  | done
  | fail (k : Nat)
  | pause (k : Nat)
  deriving DecidableEq, Repr

/-- The environment's liberties (R15 item 1, R386), none of them state of the block: the value of `now` at its
last read, the values it will show (R46), the bytes of the RX stream still to be read (R63, R52 (a)), and how
each port action ends, and the timestamps that the caller at the `feed` test port supplies (R170, R182). A list that has
run out stands for a quiet environment (log entry 3). -/
structure Env where
  now : Time
  clock : List Time
  rx : Bytes
  reads : List ReadDraw
  writes : List WriteDraw
  stamps : List Time := []
  deriving DecidableEq, Repr

/-- R117: the status of a result. -/
inductive Status where
  | ok | nak | timeout | transport | refused
  deriving DecidableEq, Repr

/-- R111: the tag of an event. -/
inductive EvTag where
  | packet | sentence | unknown
  deriving DecidableEq, Repr

/-- R116: the result record. A field that a result does not give (`ev_tag`, the identifier, `ts`) is `none`;
`len` is the length of `data`. -/
structure Result where
  status : Status
  nak : Bool
  hasPayload : Bool
  evTag : Option EvTag
  msgId : Option MsgId
  data : Bytes
  raw : Bytes
  ts : Option Time
  deriving DecidableEq, Repr

/-- R18, R64: the `tx` port carries bytes in order, and a flush marker. -/
inductive TxItem where
  | byte (b : Byte)
  | flush
  deriving DecidableEq, Repr

/-- R223, R225: the records the block issues on `log`. -/
inductive LogRecord where
  | sent (msgId : MsgId) (bytes : Bytes) (time : Time)
  | received (e : Event)
  | firstValid (msgId : MsgId)
  deriving DecidableEq, Repr

/-- R346: what the log sink accepts: a record, at a severity. -/
structure LogEntry where
  severity : Severity
  record : LogRecord
  deriving DecidableEq, Repr

/-- R113: the tag of a packet-log record. -/
inductive PktTag where
  | csip | nmea
  deriving DecidableEq, Repr

/-- R113: the direction of a packet-log record. -/
inductive Direction where
  | sent | received
  deriving DecidableEq, Repr

/-- R113, R347: a record of the packet-log sink, as a structured value (N10: its text form is not given). -/
structure PacketRecord where
  timestamp : Time
  tag : PktTag
  name : Option String
  bytes : Bytes
  direction : Direction
  deriving DecidableEq, Repr

/-- R119: the error codes of `UNPACK`. -/
inductive FrameError where
  | short | sync | trunc | cksum
  deriving DecidableEq, Repr

/-- R147: what `UNPACK` answers. -/
inductive Unpacked where
  | ok (msgId : MsgId) (payload : Bytes)
  | err (e : FrameError)
  deriving DecidableEq, Repr

/-- What the operations with no command code answer at the test access (R18, R19, R181). -/
inductive TestAnswer where
  | checksum (ck : Word32)
  | packed (frame : Bytes)
  | unpacked (u : Unpacked)
  | popped (e : Option Event)
  deriving DecidableEq, Repr

/-- What the output ports have delivered, oldest first: `rsp`, `tx`, `log`, the packet-log sink and the test
access. The receivers keep it (R362): it is no state the block reads. -/
structure Out where
  rsp : List Result
  tx : List TxItem
  log : List LogEntry
  pktLog : List PacketRecord
  test : List TestAnswer
  deriving DecidableEq, Repr

/-- One transfer presented at an input port (R18): a transaction of one of the table's formats, or `rst`. -/
inductive PortInput where
  | xact (f : Format) (bytes : Bytes)
  | rst
  deriving DecidableEq, Repr

/-- The state of the model. `ports` holds what the environment presents, oldest first: the next instruction is
fetched from its head. -/
structure State where
  params : Config.Params
  demux : Demux
  arb : Arbiter
  env : Env
  out : Out
  ports : List PortInput
  deriving DecidableEq, Repr

/-- The machine right after reset (R53, R361), with nothing presented at any port. The parameters are a build's
and not reset's (R362): `READ_MAX` = 4106, a `POLL_SLICE` of 100 ticks of a millisecond, timeouts of 2000 and 150 ticks
and both sinks present (DESIGN CHOICE, log entry 4). -/
def State.reset : State :=
  { params :=
      { readMaxLess1 := 4105, pollSlice := 100, tick := 1000, tInitial := 2000, tSubsequent := 150
        logSink := true, pktLogSink := true }
    demux := .fresh
    arb := .fresh
    env := { now := 0, clock := [], rx := [], reads := [], writes := [], stamps := [] }
    out := { rsp := [], tx := [], log := [], pktLog := [], test := [] }
    ports := [] }

/-- Why a step can stop with a fault. The spec has no error that stops the machine: every one is recovered,
returned as a result, or made the sticky `A_FAULT` (R320), all of them next states. -/
inductive Fault where
  /-- Raised by nobody: no rule of the spec stops the block. Safe. -/
  | neverRaised
  deriving DecidableEq, Repr

/-- Why a step can be refused. -/
inductive Refusal where
  /-- An instruction `exec` gives no meaning yet; raised by no arm now. Safe. -/
  | notModelled (mnemonic : String)
  /-- The bytes presented at a port are no transaction of its format; raised by `step` when the decoder
  rejects them. Safe: the model stops where a real port could not have carried them. -/
  | undecodable (r : Reject)
  /-- R146, U13: a payload longer than 65535 bytes has no frame; raised by the instructions that need its
  length field, on an operand no port can express. Safe. -/
  | payloadTooLong
  deriving DecidableEq, Repr

/-- What an instruction answers. -/
abbrev Answer := Host.Outcome State Fault Refusal

end Sys2Proof.Machine
end

