-- ==== Sys2Proof/Machine/Codec.lean ====
section
/-! DEFINITION. `CODEC` (40_codec.md): the three pure functions `CHECKSUM`, `PACK` and `UNPACK`. -/

namespace Sys2Proof.Machine

/-- R140: how many zero bytes pad a payload of `n` bytes to a multiple of 4. -/
def padLen (n : Nat) : Nat := (4 - n % 4) % 4

/-- R68, R140: the little-endian 32-bit words of a sequence whose length is a multiple of 4. -/
def leWords : Bytes → List Word32
  | b0 :: b1 :: b2 :: b3 :: rest => BitVec.ofNat 32 (le32 b0 b1 b2 b3) :: leWords rest
  | _ => []

/-- R140: the seed, truncated to 32 bits. -/
def checksumSeed (cls id : Byte) (n : Nat) : Word32 :=
  BitVec.ofNat 32 ((id.toNat <<< 24) + (cls.toNat <<< 16) + n)

/-- R140 `CHECKSUM(class, id, payload)`: each addition is `add32` (R144). -/
def checksum (cls id : Byte) (payload : Bytes) : Word32 :=
  (leWords (payload ++ zeros (padLen payload.length))).foldl (· + ·) (checksumSeed cls id payload.length)

/-- R145 `PACK(class, id, payload)`. -/
def pack (cls id : Byte) (payload : Bytes) : Bytes :=
  frameBytes ⟨cls, id⟩ payload (checksum cls id payload)

/-- R147 `UNPACK(buffer)`, its tests in the order of R148. -/
def unpack (buffer : Bytes) : Unpacked :=
  if buffer.length < Config.minFrame then .err .short
  else if byteAt buffer 0 ≠ Config.sync1 ∨ byteAt buffer 1 ≠ Config.sync2 then .err .sync
  else if buffer.length < Config.minFrame + memRead16 buffer 2 then .err .trunc
  else if BitVec.ofNat 32 (memRead32 buffer (6 + memRead16 buffer 2))
      ≠ checksum (byteAt buffer 4) (byteAt buffer 5) (slice buffer 6 (6 + memRead16 buffer 2)) then .err .cksum
  else .ok ⟨byteAt buffer 4, byteAt buffer 5⟩ (slice buffer 6 (6 + memRead16 buffer 2))

/-- R119: the result codes. -/
def unpackCode : Unpacked → Nat
  | .ok _ _ => 0
  | .err .short => 1
  | .err .sync => 2
  | .err .trunc => 3
  | .err .cksum => 4

/-- An answer at the test access (R19). -/
def State.answerTest (s : State) (a : TestAnswer) : State :=
  { s with out := { s.out with test := s.out.test ++ [a] } }

/-- `CHECKSUM` (R140), on its domain of at most 65535 payload bytes. -/
def execChecksum (cls id : Byte) (payload : Bytes) (s : State) : Answer :=
  if lengthFits payload then .next (s.answerTest (.checksum (checksum cls id payload)))
  else .refused .payloadTooLong

/-- `PACK` (R145); a payload of more than 65535 bytes is refused (R146). -/
def execPack (cls id : Byte) (payload : Bytes) (s : State) : Answer :=
  if lengthFits payload then .next (s.answerTest (.packed (pack cls id payload)))
  else .refused .payloadTooLong

/-- `UNPACK` (R147): an error is an answer (R153, R321). -/
def execUnpack (buffer : Bytes) (s : State) : Answer :=
  .next (s.answerTest (.unpacked (unpack buffer)))

end Sys2Proof.Machine
end

