-- ==== Sys2Proof/Machine/Demux.lean ====
section
/-! DEFINITION. `DEMUX` (41_demux.md): the byte-at-a-time parser, its flush, its feed and its queue, as functions
of the parser alone (R170: no port, no clock, no failure). -/

namespace Sys2Proof.Machine

/-- R13 `Emit(e)`: append at the tail of `EVQ`. -/
def Demux.emit (d : Demux) (e : Event) : Demux := { d with evq := d.evq ++ [e] }

/-- R178 `FlushUnknown()`. -/
def Demux.flushUnknown (d : Demux) : Demux :=
  if d.unk = [] then d else { d.emit (.unknownBytes d.unk d.unkTs) with unk := [] }

/-- R172: a sync trigger starts an accumulator. -/
def Demux.start (d : Demux) (p : PState) (b : Byte) (ts : Time) : Demux :=
  { d.flushUnknown with acc := [b], accTs := ts, pstate := p }

/-- R172: an unrecognised byte joins the run; the first one stamps it. -/
def Demux.addUnknown (d : Demux) (b : Byte) (ts : Time) : Demux :=
  { d with unk := d.unk ++ [b], unkTs := if d.unk = [] then ts else d.unkTs }

/-- R172 `IdleByte(b, ts)`. -/
def Demux.idleByte (d : Demux) (b : Byte) (ts : Time) : Demux :=
  if b = Config.sync1 then d.start .sync1 b ts
  else if b = Config.nmeaStart then d.start .nmea b ts
  else d.addUnknown b ts

/-- R13 `Append(ACC, [b])`. -/
def Demux.append (d : Demux) (b : Byte) : Demux := { d with acc := d.acc ++ [b] }

/-- The accumulator is emptied and the parser is idle again (R175 to R177). -/
def Demux.close (d : Demux) : Demux := { d with acc := [], pstate := .idle }

/-- R330: the entry of a frame error in the stream. The offending bytes become an event of their own, with the
timestamp of their first byte, and the parser is idle. -/
def Demux.abandon (d : Demux) : Demux := (d.emit (.unknownBytes d.acc d.accTs)).close

/-- R173: the lone `SYNC1` byte moves to the unknown run, which takes its timestamp. -/
def Demux.demote (d : Demux) : Demux :=
  { d with unk := d.unk ++ d.acc, unkTs := if d.unk = [] then d.accTs else d.unkTs, acc := [], pstate := .idle }

/-- R173. -/
def Demux.sync1Byte (d : Demux) (b : Byte) (ts : Time) : Demux :=
  if b = Config.sync2 then { d.append b with pstate := .sync2 } else d.demote.idleByte b ts

/-- R174. -/
def Demux.sync2Byte (d : Demux) (b : Byte) : Demux := { d.append b with lenLo := b, pstate := .lenLo }

/-- R175. -/
def Demux.lenLoByte (d : Demux) (b : Byte) : Demux :=
  if Config.maxPayload < le16 d.lenLo b then (d.append b).abandon
  else { d.append b with remaining := le16 d.lenLo b + 6, pstate := .body }

/-- R176: a complete frame is a packet, or unknown bytes. -/
def Demux.complete (d : Demux) : Demux :=
  match unpack d.acc with
  | .ok m p => (d.emit (.casicPacket m p d.accTs d.acc)).close
  | .err _ => d.abandon

/-- R176. -/
def Demux.bodyByte (d : Demux) (b : Byte) : Demux :=
  if d.remaining - 1 = 0 then { d.append b with remaining := d.remaining - 1 }.complete
  else { d.append b with remaining := d.remaining - 1 }

/-- R177: the end of line is tested before the guard. -/
def Demux.nmeaByte (d : Demux) (b : Byte) : Demux :=
  if b = Config.nmeaEnd then ((d.append b).emit (.nmeaSentence (d.acc ++ [b]) d.accTs)).close
  else if Config.nmeaMax ≤ (d.acc ++ [b]).length then (d.append b).abandon
  else d.append b

/-- R171 `FEED_BYTE(b, ts)`: `PSTATE` selects exactly one rule. -/
def Demux.feedByte (d : Demux) (b : Byte) (ts : Time) : Demux :=
  match d.pstate with
  | .idle => d.idleByte b ts
  | .sync1 => d.sync1Byte b ts
  | .sync2 => d.sync2Byte b
  | .lenLo => d.lenLoByte b
  | .body => d.bodyByte b
  | .nmea => d.nmeaByte b

/-- Bytes of one chunk, each with the chunk's timestamp (R180). -/
def Demux.feedBytes (d : Demux) (c : Bytes) (ts : Time) : Demux :=
  c.foldl (fun d b => d.feedByte b ts) d

/-- R179 `FEED_END()`. -/
def Demux.feedEnd (d : Demux) : Demux := d.flushUnknown

/-- R180 `FEED(c, ts)`. -/
def Demux.feed (d : Demux) (c : Bytes) (ts : Time) : Demux := (d.feedBytes c ts).feedEnd

/-- R181 `POP_EVENT()`. -/
def Demux.pop (d : Demux) : Option Event × Demux :=
  match d.evq with
  | [] => (none, d)
  | e :: es => (some e, { d with evq := es })

/-- `FEED_BYTE` at the test port (R18, R171). -/
def execFeedByte (b : Byte) (ts : Time) (s : State) : Answer :=
  .next { s with demux := s.demux.feedByte b ts }

/-- `FEED_END` at the test port (R179). -/
def execFeedEnd (s : State) : Answer := .next { s with demux := s.demux.feedEnd }

/-- `FEED` at the test port (R180). -/
def execFeed (c : Bytes) (ts : Time) (s : State) : Answer := .next { s with demux := s.demux.feed c ts }

/-- `POP_EVENT` at the test port (R181): the event, or none, is the port's answer. -/
def execPopEvent (s : State) : Answer :=
  .next ({ s with demux := s.demux.pop.2 }.answerTest (.popped s.demux.pop.1))

end Sys2Proof.Machine
end

