-- ==== Sys2Proof/Machine/Flags.lean ====
section
/-! DEFINITION. The result records: the status codes (R117) and the two flags of the block, `nak` and
`has_payload` (R44, R116), with the record each outcome delivers (R222 to R238). -/

namespace Sys2Proof.Machine

/-- R117: the numbers of the statuses, 3 bits. -/
def statusCode : Status → BitVec 3
  | .ok => 0
  | .nak => 1
  | .timeout => 2
  | .transport => 3
  | .refused => 4

/-- R111: the numbers of the event tags, 2 bits. -/
def evTagCode : EvTag → BitVec 2
  | .packet => 0
  | .sentence => 1
  | .unknown => 2

/-- A result with no payload and no event: `nak` is 1 exactly when the status is `S_NAK` (R116). -/
def bareResult (st : Status) : Result :=
  { status := st, nak := st == .nak, hasPayload := false
    evTag := none, msgId := none, data := [], raw := [], ts := none }

/-- R222, R229: `S_OK` with nothing to carry. -/
def okResult : Result := bareResult .ok
/-- R229, R230, R332: `S_NAK`. -/
def nakResult : Result := bareResult .nak
/-- R224 `TimeoutResult`. -/
def timeoutResult : Result := bareResult .timeout
/-- R237. -/
def transportResult : Result := bareResult .transport
/-- R221, R336. -/
def refusedResult : Result := bareResult .refused

/-- R227 `EventResult(e)`. `data` is the event's bytes, all of them. R60 sizes the `rsp` payload at 4106 bytes, and a run of
unknown bytes may be longer (`READ_MAX + 1`, R27, R62): such a run is delivered whole too, as R116 and R227 write it
(DESIGN CHOICE, log entry 21). -/
def eventResult : Event → Result
  | .casicPacket m p ts raw =>
    { status := .ok, nak := false, hasPayload := true
      evTag := some .packet, msgId := some m, data := p, raw := raw, ts := some ts }
  | .nmeaSentence bs ts =>
    { status := .ok, nak := false, hasPayload := true
      evTag := some .sentence, msgId := none, data := bs, raw := [], ts := some ts }
  | .unknownBytes bs ts =>
    { status := .ok, nak := false, hasPayload := true
      evTag := some .unknown, msgId := none, data := bs, raw := [], ts := some ts }

/-- R228 `PacketResult(e)` of a packet's identifier, payload and timestamp. -/
def packetResult (m : MsgId) (p : Bytes) (ts : Time) : Result :=
  { status := .ok, nak := false, hasPayload := true
    evTag := some .packet, msgId := some m, data := p, raw := [], ts := some ts }

/-- R230: the reply to a poll; the record gives no `ev_tag`. -/
def replyResult (m : MsgId) (p : Bytes) (ts : Time) : Result :=
  { status := .ok, nak := false, hasPayload := true
    evTag := none, msgId := some m, data := p, raw := [], ts := some ts }

/-- R116 `len`, 16 bits: the length of `data`. The spec does not state it for a `data` of more than 65535 bytes, which
no 16-bit number counts: there it is a free value (DESIGN CHOICE, log entry 21). -/
def resultLen (r : Result) : BitVec 16 :=
  if r.data.length ≤ 65535 then BitVec.ofNat 16 r.data.length else Config.lenBeyond r.data.length

/-- R44, R118: the source's reading of a poll's result. -/
def pollSuccess (r : Result) : Bool := r.hasPayload
/-- R44, R118: the third outcome. -/
def pollTimeout (r : Result) : Bool := !r.hasPayload && !r.nak

end Sys2Proof.Machine
end

