-- ==== Sys2Proof/Machine/Ops.lean ====
section
/-! DEFINITION. The primitive actions of R13 (`Now`, `PortRead`, `PortWrite`, `PortFlush`, `Log`, `Respond`),
the entry of the block's one sticky fault (R237, R333) as one shared operation, and the return from it (R337,
R360). -/

namespace Sys2Proof.Machine

/-- R46, R13 `Now()`: the next value the environment shows, never below the last one read (U12). -/
def State.readNow (s : State) : Time × State :=
  match s.env.clock with
  | [] => (s.env.now, s)
  | v :: vs =>
    (if v < s.env.now then s.env.now else v,
      { s with env := { s.env with now := if v < s.env.now then s.env.now else v, clock := vs } })

/-- R182: the timestamp that the caller at the `feed` test port supplies with the next byte of a `STREAM1` row: any value,
in any order, and no read of `now` (R170, R380). Where the environment gives none it is the value `now` last had (log
entry 6). -/
def State.takeStamp (s : State) : Time × State :=
  match s.env.stamps with
  | [] => (s.env.now, s)
  | ts :: tss => (ts, { s with env := { s.env with stamps := tss } })

/-- R66, R244: the most the block sets the transport's read timeout to before a `PortRead`, in `TICK`s, once W2 has read
the clock: `min(POLL_SLICE, DEADLINE - Now())`. It bounds how long that read may take and nothing else (log entry 10). -/
def State.readTimeout (s : State) : Nat := min s.params.pollSlice (s.arb.deadline - s.env.now.toNat)

/-- How many bytes a `PortRead(READ_MAX)` returns when the environment would give `n` (R66). -/
def State.readCount (s : State) (n : Nat) : Nat := min n s.params.readMax

/-- R13 `Respond(r)`: deliver a result. -/
def State.respond (s : State) (r : Result) : State :=
  { s with out := { s.out with rsp := s.out.rsp ++ [r] } }

/-- The end of a command: `ASTATE <- A_IDLE; Respond(r)` (R222, R224). -/
def State.finish (s : State) (r : Result) : State :=
  { s with arb := { s.arb with astate := .idle } }.respond r

/-- R113: the name registry, keyed by class and id (R51): R99's names, and for every other key what the registry holds,
which is a free value (DESIGN CHOICE, log entry 23). -/
def messageName (m : MsgId) : Option String :=
  if m = .ackNak then some "ACK-NAK"
  else if m = .ackAck then some "ACK-ACK"
  else if m = .monVer then some "MON-VER"
  else if m = .cfgPrt then some "CFG-PRT"
  else if m = .cfgMsg then some "CFG-MSG"
  else if m = .cfgRst then some "CFG-RST"
  else if m = .cfgTp then some "CFG-TP"
  else if m = .cfgRate then some "CFG-RATE"
  else if m = .cfgCfg then some "CFG-CFG"
  else if m = .cfgTmode then some "CFG-TMODE"
  else if m = .cfgNavx then some "CFG-NAVX"
  else Config.registryName m.cls m.id

/-- R113, R121: the name of a sentence: what the registry holds under the pseudo-class `0x4E`. -/
def sentenceName (bs : Bytes) : Option String := messageName ⟨Config.classNmea, Config.sentenceKey bs⟩

/-- R113: the packet-log record of a log record. Unknown bytes have no tag and reach the log sink only; so does
the one-time record. -/
def packetRecord : LogRecord → Option PacketRecord
  | .sent m bs t => some ⟨t, .csip, messageName m, bs, .sent⟩
  | .received (.casicPacket m _ ts raw) => some ⟨ts, .csip, messageName m, raw, .received⟩
  | .received (.nmeaSentence bs ts) => some ⟨ts, .nmea, sentenceName bs, bs, .received⟩
  | .received (.unknownBytes _ _) => none
  | .firstValid _ => none

/-- R346: the severity a record is logged at. R225 gives the one-time record `INFO`; of the others the spec states none,
and theirs is a free value (DESIGN CHOICE, log entry 22). -/
def LogRecord.severity : LogRecord → Severity
  | .sent _ bs t => Config.sentSeverity bs t
  | .received (.casicPacket _ _ ts raw) => Config.receivedSeverity (evTagCode .packet) raw ts
  | .received (.nmeaSentence bs ts) => Config.receivedSeverity (evTagCode .sentence) bs ts
  | .received (.unknownBytes bs ts) => Config.receivedSeverity (evTagCode .unknown) bs ts
  | .firstValid _ => .info

/-- R346: a record as the log sink takes it. -/
def LogRecord.entry (r : LogRecord) : LogEntry := { severity := r.severity, record := r }

/-- R13, R346, R347 `Log(rec)`: one record to each sink that is present. -/
def State.logRec (s : State) (r : LogRecord) : State :=
  { s with out := { s.out with
      log := if s.params.logSink then s.out.log ++ [r.entry] else s.out.log
      pktLog := if s.params.pktLogSink then s.out.pktLog ++ (packetRecord r).toList else s.out.pktLog } }

/-- R237, R333: entering `A_FAULT` on a transport error. The status is delivered, `TXBUF` is emptied, and
nothing else of the block changes. -/
def State.transportError (s : State) : State :=
  { s with arb := { s.arb with astate := .fault, txbuf := [], txSent := 0, inRead := false } }.respond transportResult

/-- R360, R337, R362: `rst`, the only way out of `A_FAULT`. Every state element takes its reset value and a
command in progress ends without a result; the parameters, the environment and what the output ports have
delivered stay. -/
def State.returnByReset (s : State) : State := { s with demux := .fresh, arb := .fresh }

/-- How a transmit action leaves the block. -/
inductive TxOutcome where
  | done (s : State)
  | blocked (s : State)
  | failed (s : State)

/-- R64: bytes go to the transport in order. -/
def State.handOver (s : State) (bs : Bytes) : State :=
  { s with
    out := { s.out with tx := s.out.tx ++ bs.map .byte }
    arb := { s.arb with txSent := s.arb.txSent + bs.length } }

/-- The bytes of `TXBUF` still to be handed over. -/
def State.unsent (s : State) : Bytes := s.arb.txbuf.drop s.arb.txSent

/-- R13 `PortWrite(TXBUF)`, from where it stands. -/
def State.portWrite (s : State) : TxOutcome :=
  if s.unsent = [] then .done s
  else
    match s.env.writes with
    | [] => .done (s.handOver s.unsent)
    | .done :: ws => .done ({ s with env := { s.env with writes := ws } }.handOver s.unsent)
    | .fail k :: ws => .failed ({ s with env := { s.env with writes := ws } }.handOver (s.unsent.take k))
    | .pause k :: ws => .blocked ({ s with env := { s.env with writes := ws } }.handOver (s.unsent.take k))

/-- R79 `PortFlush()`. -/
def State.portFlush (s : State) : TxOutcome :=
  match s.env.writes with
  | [] => .done { s with out := { s.out with tx := s.out.tx ++ [.flush] } }
  | .done :: ws =>
    .done { s with env := { s.env with writes := ws }, out := { s.out with tx := s.out.tx ++ [.flush] } }
  | .fail _ :: ws => .failed { s with env := { s.env with writes := ws } }
  | .pause _ :: ws => .blocked { s with env := { s.env with writes := ws } }

/-- R63, R52 (a): bytes arrive from the peer; the transport holds them behind those it already holds. -/
def State.arrive (s : State) (bs : Bytes) : State := { s with env := { s.env with rx := s.env.rx ++ bs } }

/-- W3 of R224: one `PortRead(READ_MAX)` that the environment lets return up to `n` bytes, the clock read after
it, and the feed of what came. -/
def State.readAndFeed (s : State) (n : Nat) : State :=
  let r := { s with env := { s.env with rx := s.env.rx.drop (s.readCount n) } }.readNow
  { r.2 with demux := r.2.demux.feed (s.env.rx.take (s.readCount n)) r.1 }

end Sys2Proof.Machine
end

