-- ==== Sys2Proof/Machine/Arbiter.lean ====
section
/-! DEFINITION. `ARBITER` (42_arbiter.md): the transmit path, the wait loop with each command's `Classify`, and
the commands. A command runs as far as its environment lets it: to its result, or to a port action that has not
returned when the step ends, and then `ASTATE` says where it stands and `goOn` resumes it. -/

namespace Sys2Proof.Machine

/-- R115: the codes of the five commands. -/
def opSend : BitVec 3 := 1
def opReceivePacket : BitVec 3 := 2
def opReceive : BitVec 3 := 3
def opSendAndWaitAck : BitVec 3 := 4
def opPoll : BitVec 3 := 5

/-- R226 `EchoMatch`, on the payload of a packet. -/
def echoMatch (a : Arbiter) (p : Bytes) : Bool :=
  2 ≤ p.length && byteAt p 0 == a.pendClass && byteAt p 1 == a.pendId

/-- R227. -/
def classifyReceivePacket (e : Event) : Option Result := some (eventResult e)

/-- R228. -/
def classifyReceive : Event → Option Result
  | .casicPacket m p ts _ => some (packetResult m p ts)
  | _ => none

/-- R229. -/
def classifyAck (a : Arbiter) : Event → Option Result
  | .casicPacket m p _ _ =>
    if m = .ackAck ∧ echoMatch a p then some okResult
    else if m = .ackNak ∧ echoMatch a p then some nakResult
    else none
  | _ => none

/-- R230: the NAK test is made first. -/
def classifyPoll (a : Arbiter) : Event → Option Result
  | .casicPacket m p ts _ =>
    if m = .ackNak ∧ echoMatch a p then some nakResult
    else if m = ⟨a.pendClass, a.pendId⟩ then some (replyResult ⟨a.pendClass, a.pendId⟩ p ts)
    else none
  | _ => none

/-- R224 `Classify`, chosen by `OP` (R41): `some r` is `Finish(r)`, `none` is `Discard`. No other command
waits. -/
def classify (a : Arbiter) (e : Event) : Option Result :=
  if a.op = opReceivePacket then classifyReceivePacket e
  else if a.op = opReceive then classifyReceive e
  else if a.op = opSendAndWaitAck then classifyAck a e
  else if a.op = opPoll then classifyPoll a e
  else none

/-- R225: the records and the flag of a popped event. -/
def State.logPopped (s : State) (e : Event) : State :=
  match e with
  | .casicPacket m _ _ _ =>
    if s.arb.seenValid then s.logRec (.received e)
    else
      { (s.logRec (.received e)).logRec (.firstValid m) with arb := { s.arb with seenValid := true } }
  | _ => s.logRec (.received e)

/-- R225 `PopAndLog()` without the `Classify` that follows it: the queue less its head, logged. -/
def State.popAndLog (s : State) (e : Event) (d : Demux) : State := { s with demux := d }.logPopped e

/-- W1 of R224, repeated while it discards: `true` when an event finished the command, `false` when the queue
is empty. The number bounds the events taken. -/
def State.drain : Nat → State → Bool × State
  | 0, s => (false, s)
  | n + 1, s =>
    match s.demux.pop with
    | (none, _) => (false, s)
    | (some e, d) =>
      match classify s.arb e with
      | some r => (true, (s.popAndLog e d).finish r)
      | none => State.drain n (s.popAndLog e d)

/-- W1 and W2 of R224: `true` when the command has ended, `false` when its next action is the read of W3. With
a read outstanding the block looks at neither. -/
def State.beforeRead (s : State) : Bool × State :=
  if s.arb.inRead then (false, s)
  else
    match s.drain s.demux.evq.length with
    | (true, s1) => (true, s1)
    | (false, s1) =>
      if s1.readNow.2.arb.deadline ≤ s1.readNow.1.toNat then (true, s1.readNow.2.finish timeoutResult)
      else (false, s1.readNow.2)

/-- W3 of R224 when the `PortRead` returns up to `n` bytes; what is left of the reads' list is given. -/
def State.readReturns (s : State) (ds : List ReadDraw) (n : Nat) : State :=
  { s with env := { s.env with reads := ds }, arb := { s.arb with inRead := false } }.readAndFeed n

/-- R224 `WaitLoop()`, given how its port reads will end: W1, then W2, then W3, again and again. A read that
fails is R237; one that has not returned leaves the block in `A_WAIT`. Where the list has run out the read returns
what the transport holds and the step ends in `A_WAIT` (log entry 3). -/
def State.waitLoop : List ReadDraw → State → State
  | [], s =>
    match s.beforeRead with
    | (true, s1) => s1
    | (false, s1) => s1.readReturns [] s1.params.readMax
  | .got n :: ds, s =>
    match s.beforeRead with
    | (true, s1) => s1
    | (false, s1) => State.waitLoop ds (s1.readReturns ds n)
  | .fail :: ds, s =>
    match s.beforeRead with
    | (true, s1) => s1
    | (false, s1) => { s1 with env := { s1.env with reads := ds } }.transportError
  | .pause :: ds, s =>
    match s.beforeRead with
    | (true, s1) => s1
    | (false, s1) => { s1 with env := { s1.env with reads := ds }, arb := { s1.arb with inRead := true } }

/-- R231, R43: `DEADLINE <- Now() + timeout`, in unbounded naturals. -/
def State.armDeadline (s : State) : State :=
  { s.readNow.2 with
    arb := { s.readNow.2.arb with deadline := s.readNow.1.toNat + s.readNow.2.arb.tmo.toNat } }

/-- R224: a wait starts, its deadline armed first. -/
def State.startWait (s : State) : State :=
  State.waitLoop s.armDeadline.env.reads
    { s.armDeadline with arb := { s.armDeadline.arb with astate := .wait, inRead := false } }

/-- R223: the log of the sent frame, after the flush; `TXBUF` is emptied. -/
def State.logSent (s : State) : State :=
  let r := s.readNow
  let s1 := r.2.logRec (.sent ⟨byteAt s.arb.txbuf 4, byteAt s.arb.txbuf 5⟩ s.arb.txbuf r.1)
  { s1 with arb := { s1.arb with txbuf := [], txSent := 0 } }

/-- What follows the sent frame: `SEND` is over (R222); the waiting commands arm and wait (R229, R230). -/
def State.afterSend (s : State) : State :=
  if s.arb.op = opSendAndWaitAck ∨ s.arb.op = opPoll then s.startWait else s.finish okResult

/-- R223 `SendFrame` from `PortWrite` on, and what follows it: write, flush, log, in that order. -/
def State.transmit (s : State) : State :=
  match s.portWrite with
  | .failed s1 => s1.transportError
  | .blocked s1 => s1
  | .done s1 =>
    match s1.portFlush with
    | .failed s2 => s2.transportError
    | .blocked s2 => s2
    | .done s2 => s2.logSent.afterSend

/-- The command in progress goes on from where its port action stands; nothing happens with none in progress. -/
def State.goOn (s : State) : State :=
  match s.arb.astate with
  | .idle => s
  | .fault => s
  | .tx => s.transmit
  | .wait => State.waitLoop s.env.reads s

/-- R221: taking a command copies its operands (R82). -/
def State.takeOp (s : State) (op : BitVec 3) (d : Descriptor) : State :=
  { s with arb := { s.arb with op := op, tmo := d.timeout } }

/-- R229, R230: the pending identifier. -/
def State.setPending (s : State) (d : Descriptor) : State :=
  { s with arb := { s.arb with pendClass := d.cls, pendId := d.id } }

/-- R223: `ASTATE <- A_TX; TXBUF <- PACK(class, id, payload)`, then the transmit path. -/
def State.sendFrame (s : State) (d : Descriptor) : State :=
  { s with arb := { s.arb with astate := .tx, txbuf := pack d.cls d.id d.payload, txSent := 0 } }.transmit

/-- Whether what is presented stands at the `cmd` port. -/
def PortInput.isCmd : PortInput → Bool
  | .xact .cmd _ => true
  | .xact .internal _ => false
  | .xact .stream1 _ => false
  | .xact .frame _ => false
  | .rst => false

/-- A held command waits at its own port, before the commands presented after it. The next transfer at another port, if
there is one, passes it and all of them, `rst` too (R328 item 6; log entry 8). -/
def requeue (x : PortInput) (ps : List PortInput) : List PortInput :=
  match ps.find? (fun p => !p.isCmd) with
  | some p => p :: x :: ps.eraseP (fun p => !p.isCmd)
  | none => x :: ps

/-- R221, D24: a command presented while one is in progress is not taken: it stays at its port, and the command in
progress goes on. -/
def State.hold (s : State) (i : Instr) : State :=
  { s with ports := requeue (.xact (formatOf i) (encode i)) s.ports }.goOn

/-- R221: command acceptance. `run` is the command taken in `A_IDLE`. -/
def State.accept (s : State) (i : Instr) (run : Answer) : Answer :=
  match s.arb.astate with
  | .idle => run
  | .fault => .next (s.respond refusedResult)
  | .tx => .next (s.hold i)
  | .wait => .next (s.hold i)

/-- R222 `SEND`. -/
def execSend (d : Descriptor) (s : State) : Answer :=
  s.accept (.send d)
    (if lengthFits d.payload then .next ((s.takeOp opSend d).sendFrame d) else .refused .payloadTooLong)

/-- R227 `RECEIVE_PACKET`. -/
def execReceivePacket (d : Descriptor) (s : State) : Answer :=
  s.accept (.receivePacket d) (.next (s.takeOp opReceivePacket d).startWait)

/-- R228 `RECEIVE`. -/
def execReceive (d : Descriptor) (s : State) : Answer :=
  s.accept (.receive d) (.next (s.takeOp opReceive d).startWait)

/-- R229 `SEND_AND_WAIT_ACK`. -/
def execSendAndWaitAck (d : Descriptor) (s : State) : Answer :=
  s.accept (.sendAndWaitAck d)
    (if lengthFits d.payload then .next (((s.takeOp opSendAndWaitAck d).setPending d).sendFrame d)
     else .refused .payloadTooLong)

/-- R230 `POLL`. -/
def execPoll (d : Descriptor) (s : State) : Answer :=
  s.accept (.poll d)
    (if lengthFits d.payload then .next (((s.takeOp opPoll d).setPending d).sendFrame d)
     else .refused .payloadTooLong)

/-- R221, R336: a reserved `op` is refused and changes nothing. -/
def State.refuseOp (s : State) (i : Instr) : Answer := s.accept i (.next (s.respond refusedResult))

/-- R115, R336: `op` = 0. -/
def execReservedOp0 (d : Descriptor) (s : State) : Answer := s.refuseOp (.reservedOp0 d)

/-- R115, R336: `op` = 6. -/
def execReservedOp6 (d : Descriptor) (s : State) : Answer := s.refuseOp (.reservedOp6 d)

/-- R115, R336: `op` = 7. -/
def execReservedOp7 (d : Descriptor) (s : State) : Answer := s.refuseOp (.reservedOp7 d)

end Sys2Proof.Machine
end

