-- ==== Sys2Proof/Machine/Stream.lean ====
section
/-! DEFINITION. The wire patterns of the table: one byte of the stream as the parser evaluates it (format `STREAM1`,
R97), and one whole frame that arrives on the RX stream (format `FRAME`, R90, R99). -/

namespace Sys2Proof.Machine

/-- R97, R171: the parser evaluates one byte of the stream, at the `feed` test port (R18, R170) and with the timestamp
its caller supplies (R182, log entry 6): the clock is not read (R380). The row of the table names what it does in
`PSTATE = IDLE`; in another state the parser takes it as that state's rule says. -/
def State.streamByte (s : State) (b : Byte) : State :=
  { s.takeStamp.2 with demux := s.demux.feedByte b s.takeStamp.1 }

/-- R172, R184: `0xBA`. -/
def execIdleSync1 (s : State) : Answer := .next (s.streamByte Config.sync1)

/-- R172, R184: `0x24`. -/
def execIdleNmeaStart (s : State) : Answer := .next (s.streamByte Config.nmeaStart)

/-- R172, R184: any other byte. -/
def execIdleUnknown (b : Byte) (s : State) : Answer := .next (s.streamByte b)

/-- A frame arrives at the transport, whatever its length and checksum fields hold (R120): its bytes join the RX stream
behind those already there (R63), and the command in progress goes on. Only a `PortRead` of a wait brings them into the
block, `READ_MAX` at a time (R66); outside a wait the transport holds them for a later one (R52 (a)). -/
def State.deliver (s : State) (m : MsgId) (payload : Bytes) (ck : Word32) : Answer :=
  if lengthFits payload then .next (s.arrive (frameBytes m payload ck)).goOn else .refused .payloadTooLong

/-- R90, R120: a frame of any identifier that has no row of its own. -/
def execCasicFrame (m : MsgId) (payload : Bytes) (ck : Word32) (s : State) : Answer := s.deliver m payload ck

/-- R100 `ACK-NAK`; its echo is judged by the wait in progress (R226, R229, R230). -/
def execAckNak (payload : Bytes) (ck : Word32) (s : State) : Answer := s.deliver .ackNak payload ck

/-- R100 `ACK-ACK`; its echo is judged by the wait in progress (R226, R229). -/
def execAckAck (payload : Bytes) (ck : Word32) (s : State) : Answer := s.deliver .ackAck payload ck

/-- R101 `MON-VER`. -/
def execMonVer (payload : Bytes) (ck : Word32) (s : State) : Answer := s.deliver .monVer payload ck

/-- R102 `CFG-PRT`. -/
def execCfgPrt (payload : Bytes) (ck : Word32) (s : State) : Answer := s.deliver .cfgPrt payload ck

/-- R103 `CFG-MSG`. -/
def execCfgMsg (payload : Bytes) (ck : Word32) (s : State) : Answer := s.deliver .cfgMsg payload ck

/-- R104 `CFG-RST`. -/
def execCfgRst (payload : Bytes) (ck : Word32) (s : State) : Answer := s.deliver .cfgRst payload ck

/-- R105 `CFG-TP`. -/
def execCfgTp (payload : Bytes) (ck : Word32) (s : State) : Answer := s.deliver .cfgTp payload ck

/-- R106 `CFG-RATE`. -/
def execCfgRate (payload : Bytes) (ck : Word32) (s : State) : Answer := s.deliver .cfgRate payload ck

/-- R107 `CFG-CFG`. -/
def execCfgCfg (payload : Bytes) (ck : Word32) (s : State) : Answer := s.deliver .cfgCfg payload ck

/-- R108 `CFG-TMODE`. -/
def execCfgTmode (payload : Bytes) (ck : Word32) (s : State) : Answer := s.deliver .cfgTmode payload ck

/-- R109 `CFG-NAVX`. -/
def execCfgNavx (payload : Bytes) (ck : Word32) (s : State) : Answer := s.deliver .cfgNavx payload ck

end Sys2Proof.Machine
end

