-- ==== Sys2Proof/Machine/Dispatch.lean ====
section
/-! DEFINITION. The dispatch: one arm per constructor of `Instr`, each one direct call of its meaning. -/

namespace Sys2Proof.Machine

def exec (i : Instr) (s : State) : Host.Outcome State Fault Refusal :=
  match i with
  | .send d => Sys2Proof.Machine.execSend d s
  | .receivePacket d => Sys2Proof.Machine.execReceivePacket d s
  | .receive d => Sys2Proof.Machine.execReceive d s
  | .sendAndWaitAck d => Sys2Proof.Machine.execSendAndWaitAck d s
  | .poll d => Sys2Proof.Machine.execPoll d s
  | .reservedOp0 d => Sys2Proof.Machine.execReservedOp0 d s
  | .reservedOp6 d => Sys2Proof.Machine.execReservedOp6 d s
  | .reservedOp7 d => Sys2Proof.Machine.execReservedOp7 d s
  | .checksum cls id payload => Sys2Proof.Machine.execChecksum cls id payload s
  | .pack cls id payload => Sys2Proof.Machine.execPack cls id payload s
  | .unpack buffer => Sys2Proof.Machine.execUnpack buffer s
  | .feedByte b ts => Sys2Proof.Machine.execFeedByte b ts s
  | .feedEnd => Sys2Proof.Machine.execFeedEnd s
  | .feed c ts => Sys2Proof.Machine.execFeed c ts s
  | .popEvent => Sys2Proof.Machine.execPopEvent s
  | .idleSync1 => Sys2Proof.Machine.execIdleSync1 s
  | .idleNmeaStart => Sys2Proof.Machine.execIdleNmeaStart s
  | .idleUnknown b => Sys2Proof.Machine.execIdleUnknown b s
  | .casicFrame m payload ck => Sys2Proof.Machine.execCasicFrame m payload ck s
  | .ackNak payload ck => Sys2Proof.Machine.execAckNak payload ck s
  | .ackAck payload ck => Sys2Proof.Machine.execAckAck payload ck s
  | .monVer payload ck => Sys2Proof.Machine.execMonVer payload ck s
  | .cfgPrt payload ck => Sys2Proof.Machine.execCfgPrt payload ck s
  | .cfgMsg payload ck => Sys2Proof.Machine.execCfgMsg payload ck s
  | .cfgRst payload ck => Sys2Proof.Machine.execCfgRst payload ck s
  | .cfgTp payload ck => Sys2Proof.Machine.execCfgTp payload ck s
  | .cfgRate payload ck => Sys2Proof.Machine.execCfgRate payload ck s
  | .cfgCfg payload ck => Sys2Proof.Machine.execCfgCfg payload ck s
  | .cfgTmode payload ck => Sys2Proof.Machine.execCfgTmode payload ck s
  | .cfgNavx payload ck => Sys2Proof.Machine.execCfgNavx payload ck s

end Sys2Proof.Machine
end

