-- ==== Sys2Proof/Machine/Step.lean ====
section
/-! DEFINITION. One step of the block: what stands first at its input ports is taken, or the command in
progress goes on; and the host's way to place an instruction where the next step fetches it. -/

namespace Sys2Proof.Machine

/-- One step. With nothing presented, a command in progress goes on (R224) and an idle block does nothing of
its own accord (R361). `rst` overrides everything (R328). A transaction is decoded and executed. -/
def step (s : State) : Host.Outcome State Fault Refusal :=
  match s.ports with
  | [] => .next s.goOn
  | .rst :: ps => .next { s with ports := ps }.returnByReset
  | .xact f bs :: ps =>
    match decode f bs with
    | .ok i => exec i { s with ports := ps }
    | .reject r => .refused (.undecodable r)

/-- The instruction of a table word, presented first at the ports. -/
def State.withFetchWord (s : State) (nbits w : Nat) : State :=
  { s with ports := .xact (tableWord nbits w).1 (tableWord nbits w).2 :: s.ports }

end Sys2Proof.Machine
end

