-- ==== Sys2Proof/Machine/Payload.lean ====
section
/-! DEFINITION. The payload layouts of rules R100 to R109, as the host reads and writes them: the block itself
carries every payload as opaque bytes but for the echo of R100 (R93). A payload shorter than its structure is the
host's `DecodeError` (R285, R322); a longer one is read by its first bytes. `f32` and `f64` fields are their bits
(R10: the block never interprets them), an `i8` its byte. A run of bytes has its width in its type, so that what is
written has the structure's fixed size. -/

namespace Sys2Proof.Machine

/-- A little-endian field of two bytes. -/
def field16 (p : Bytes) (off : Nat) : BitVec 16 := BitVec.ofNat 16 (memRead16 p off)
/-- A little-endian field of four bytes. -/
def field32 (p : Bytes) (off : Nat) : BitVec 32 := BitVec.ofNat 32 (memRead32 p off)
/-- A little-endian field of eight bytes. -/
def field64 (p : Bytes) (off : Nat) : BitVec 64 := BitVec.ofNat 64 (memRead64 p off)

/-- A field of `n` bytes. -/
def fieldBytes (p : Bytes) (off n : Nat) : Vector Byte n := Vector.ofFn fun i => byteAt p (off + i)

/-- A payload layout read under R285. -/
inductive Payload where
  /-- R100: class and id of the acknowledged or rejected request. -/
  | ack (cls id : Byte)
  /-- R101: two strings of 32 bytes, NUL-padded. -/
  | monVer (swVersion hwVersion : Vector Byte 32)
  /-- R102. -/
  | cfgPrt (portId protoMask : Byte) (mode : BitVec 16) (baud : BitVec 32)
  /-- R103. -/
  | cfgMsg (cls id : Byte) (rate : BitVec 16)
  /-- R104. -/
  | cfgRst (bbrMask : BitVec 16) (resetMode startMode : Byte)
  /-- R105. -/
  | cfgTp (interval width : BitVec 32) (enable polarity timeRef timeSource : Byte) (userDelay : BitVec 32)
  /-- R106. -/
  | cfgRate (intervalMs reserved : BitVec 16)
  /-- R107. -/
  | cfgCfg (mask : BitVec 16) (mode reserved : Byte)
  /-- R108. -/
  | cfgTmode (mode reserved : BitVec 16) (x y z : BitVec 64) (posVar svinDur svinVar : BitVec 32)
  /-- R109: offsets 0 to 15 are not listed by the source (N4); seven `f32` follow. -/
  | cfgNavx (head : Vector Byte 16) (f0 f1 f2 f3 f4 f5 f6 : BitVec 32)
  deriving DecidableEq, Repr

/-- R99: the payload length of each listed message. -/
def payloadSize (m : MsgId) : Option Nat :=
  if m = .ackNak ∨ m = .ackAck then some 2
  else if m = .monVer then some 64
  else if m = .cfgPrt then some 8
  else if m = .cfgMsg ∨ m = .cfgRst ∨ m = .cfgRate ∨ m = .cfgCfg then some 4
  else if m = .cfgTp then some 16
  else if m = .cfgTmode then some 40
  else if m = .cfgNavx then some 44
  else none

/-- R100 to R109: the fields of a payload that is long enough; no layout for another identifier. -/
def payloadFields (m : MsgId) (p : Bytes) : Option Payload :=
  if m = .ackNak ∨ m = .ackAck then some (.ack (byteAt p 0) (byteAt p 1))
  else if m = .monVer then some (.monVer (fieldBytes p 0 32) (fieldBytes p 32 32))
  else if m = .cfgPrt then some (.cfgPrt (byteAt p 0) (byteAt p 1) (field16 p 2) (field32 p 4))
  else if m = .cfgMsg then some (.cfgMsg (byteAt p 0) (byteAt p 1) (field16 p 2))
  else if m = .cfgRst then some (.cfgRst (field16 p 0) (byteAt p 2) (byteAt p 3))
  else if m = .cfgTp then
    some (.cfgTp (field32 p 0) (field32 p 4) (byteAt p 8) (byteAt p 9) (byteAt p 10) (byteAt p 11) (field32 p 12))
  else if m = .cfgRate then some (.cfgRate (field16 p 0) (field16 p 2))
  else if m = .cfgCfg then some (.cfgCfg (field16 p 0) (byteAt p 2) (byteAt p 3))
  else if m = .cfgTmode then
    some (.cfgTmode (field16 p 0) (field16 p 2) (field64 p 4) (field64 p 12) (field64 p 20) (field32 p 28)
      (field32 p 32) (field32 p 36))
  else if m = .cfgNavx then
    some (.cfgNavx (fieldBytes p 0 16) (field32 p 16) (field32 p 20) (field32 p 24) (field32 p 28) (field32 p 32)
      (field32 p 36) (field32 p 40))
  else none

/-- R285 `decode(bytes)`: `none` is the `DecodeError` of a payload shorter than the structure, or an identifier
the source lays nothing out for. -/
def decodePayload (m : MsgId) (p : Bytes) : Option Payload :=
  match payloadSize m with
  | none => none
  | some n => if p.length < n then none else payloadFields m p

/-- R285 `encode(Struct)`, fixed-size output. -/
def encodePayload : Payload → Bytes
  | .ack c i => [c, i]
  | .monVer sw hw => sw.toList ++ hw.toList
  | .cfgPrt port proto mode baud => [port, proto] ++ bytesLe16 mode.toNat ++ bytesLe32 baud.toNat
  | .cfgMsg c i rate => [c, i] ++ bytesLe16 rate.toNat
  | .cfgRst bbr rm sm => bytesLe16 bbr.toNat ++ [rm, sm]
  | .cfgTp iv w en pol tr tsrc ud =>
    bytesLe32 iv.toNat ++ bytesLe32 w.toNat ++ [en, pol, tr, tsrc] ++ bytesLe32 ud.toNat
  | .cfgRate iv res => bytesLe16 iv.toNat ++ bytesLe16 res.toNat
  | .cfgCfg mask mode res => bytesLe16 mask.toNat ++ [mode, res]
  | .cfgTmode mode res x y z pv sd sv =>
    bytesLe16 mode.toNat ++ bytesLe16 res.toNat ++ bytesLe64 x.toNat ++ bytesLe64 y.toNat ++ bytesLe64 z.toNat
      ++ bytesLe32 pv.toNat ++ bytesLe32 sd.toNat ++ bytesLe32 sv.toNat
  | .cfgNavx head f0 f1 f2 f3 f4 f5 f6 =>
    head.toList ++ bytesLe32 f0.toNat ++ bytesLe32 f1.toNat ++ bytesLe32 f2.toNat ++ bytesLe32 f3.toNat
      ++ bytesLe32 f4.toNat ++ bytesLe32 f5.toNat ++ bytesLe32 f6.toNat

end Sys2Proof.Machine
end

