-- ==== Sys2Proof/Machine/Query.lean ====
section
/-! DEFINITION. The host's multi-reply query (R239), as the commands it presents: the two timeouts are parameters of
the host (R8), carried by the `timeout` operand. The block holds no state of it, and no step calls these. -/

namespace Sys2Proof.Machine

/-- R239: the first command of a query, with the long timeout. -/
def queryFirst (p : Config.Params) (m : MsgId) : Instr := .poll ⟨m.cls, m.id, [], p.tInitial⟩

/-- R239: after a reply the host waits for further ones with the short timeout; any other status ends the query. -/
def queryNext (p : Config.Params) (r : Result) : Option Instr :=
  match r.status with
  | .ok => some (.receive ⟨0, 0, [], p.tSubsequent⟩)
  | .nak => none
  | .timeout => none
  | .transport => none
  | .refused => none

/-- R239: the host keeps a reply when it has the identifier asked for. -/
def queryKeeps (m : MsgId) (r : Result) : Bool := r.status == .ok && r.msgId == some m

end Sys2Proof.Machine
end

