-- ==== Sys2Proof/Safety.lean ====
section
/-! DEFINITION. What counts as a sound state and a sound run, in the terms the statements use: the invariants of
rules R30, R44, R47 and R48, the conservation of bytes of R31, and the comparison of event sequences of R185. -/

namespace Sys2Proof.Machine

/-- The bytes an event carries (R31): `raw_bytes` of a packet, `bytes` of the other two kinds. -/
def Event.bytes : Event → Bytes
  | .casicPacket _ _ _ raw => raw
  | .nmeaSentence bs _ => bs
  | .unknownBytes bs _ => bs

/-- Whether an event is a `CasicPacket`. -/
def Event.isPacket : Event → Bool
  | .casicPacket _ _ _ _ => true
  | .nmeaSentence _ _ => false
  | .unknownBytes _ _ => false

/-- Whether an event is an `UnknownBytes`. -/
def Event.isUnknown : Event → Bool
  | .casicPacket _ _ _ _ => false
  | .nmeaSentence _ _ => false
  | .unknownBytes _ _ => true

/-- An event with its timestamp deleted (R185). -/
def Event.untimed : Event → Event
  | .casicPacket m p _ raw => .casicPacket m p 0 raw
  | .nmeaSentence bs _ => .nmeaSentence bs 0
  | .unknownBytes bs _ => .unknownBytes bs 0

/-- The bytes of a sequence of events, in order (R31). -/
def eventBytes (es : List Event) : Bytes := es.flatMap Event.bytes

/-- R31: the bytes of the queued events, of `UNK` and of `ACC`, in that order. -/
def Demux.held (d : Demux) : Bytes := eventBytes d.evq ++ d.unk ++ d.acc

/-- R30 item 6, of one event. -/
def Event.sound : Event → Bool
  | .casicPacket m p _ raw =>
    unpack raw == .ok m p && raw.length == 10 + p.length && p.length ≤ Config.maxPayload
  | .nmeaSentence bs _ =>
    bs.head? == some Config.nmeaStart && bs.getLast? == some Config.nmeaEnd &&
      !bs.dropLast.contains Config.nmeaEnd && 2 ≤ bs.length && bs.length ≤ Config.nmeaMax
  | .unknownBytes bs _ => 1 ≤ bs.length

/-- R30 item 4, `BODY`: the header stands in `ACC`, its length is within the bound, and `REMAINING` counts what is
missing of the frame. -/
abbrev Demux.BodyShape (d : Demux) : Prop :=
  4 ≤ d.acc.length ∧ byteAt d.acc 0 = Config.sync1 ∧ byteAt d.acc 1 = Config.sync2 ∧
    memRead16 d.acc 2 ≤ Config.maxPayload ∧ d.acc.length + d.remaining = 10 + memRead16 d.acc 2 ∧
    1 ≤ d.remaining

/-- R30 item 5, `NMEA`. -/
abbrev Demux.NmeaShape (d : Demux) : Prop :=
  d.acc.head? = some Config.nmeaStart ∧ d.acc.length < Config.nmeaMax ∧ Config.nmeaEnd ∉ d.acc

/-- R30 items 1, 2 and 4 to 6. Item 3 is about `FEED_END`. -/
abbrev Demux.Inv (d : Demux) : Prop :=
  (d.acc = [] ↔ d.pstate = .idle) ∧
  (d.unk ≠ [] → d.pstate = .idle) ∧
  (d.pstate = .sync1 → d.acc = [Config.sync1]) ∧
  (d.pstate = .sync2 → d.acc = [Config.sync1, Config.sync2]) ∧
  (d.pstate = .lenLo → d.acc = [Config.sync1, Config.sync2, d.lenLo]) ∧
  (d.pstate = .body → d.BodyShape) ∧
  (d.pstate = .nmea → d.NmeaShape) ∧
  (∀ e ∈ d.evq, e.sound = true)

/-- Whether `TXBUF` holds a whole packed frame (R47). -/
def isPacked (bs : Bytes) : Bool :=
  match unpack bs with
  | .ok m p => bs == pack m.cls m.id p && lengthFits p
  | .err _ => false

/-- R40, R41, R47: outside `A_TX` nothing is being sent; in `A_TX` a whole frame is, for a sending command; a wait is
a waiting command's; a read is outstanding only in a wait. -/
abbrev Arbiter.Inv (a : Arbiter) : Prop :=
  (a.astate ≠ .tx → a.txbuf = [] ∧ a.txSent = 0) ∧
  (a.astate = .tx → isPacked a.txbuf = true ∧ a.txSent ≤ a.txbuf.length ∧
    (a.op = opSend ∨ a.op = opSendAndWaitAck ∨ a.op = opPoll)) ∧
  (a.astate = .wait → a.op = opReceivePacket ∨ a.op = opReceive ∨ a.op = opSendAndWaitAck ∨ a.op = opPoll) ∧
  (a.inRead = true → a.astate = .wait)

/-- R44, R116: `nak` is 1 exactly when the status is `S_NAK`, and `nak` and `has_payload` are never both 1. -/
abbrev Result.Sound (r : Result) : Prop :=
  (r.nak = true ↔ r.status = .nak) ∧ ¬ (r.nak = true ∧ r.hasPayload = true)

/-- The invariant of the machine. -/
abbrev State.Inv (s : State) : Prop :=
  s.demux.Inv ∧ s.arb.Inv ∧ ∀ r ∈ s.out.rsp, r.Sound

/-- R333: the premise of a claim about a session: no transport fault is recorded. -/
abbrev State.NoTransportFault (s : State) : Prop := s.arb.astate ≠ .fault

/-- A step that answers a next state. -/
abbrev Steps (s t : State) : Prop := step s = .next t

/-- R185: a driver of the parser alone: a chunk with its timestamp, or a pop. -/
inductive DemuxAction where
  | feed (c : Bytes) (ts : Time)
  | pop
  deriving DecidableEq, Repr

/-- One action; the popped events are kept. -/
def runAction (x : List Event × Demux) : DemuxAction → List Event × Demux
  | .feed c ts => (x.1, x.2.feed c ts)
  | .pop => (x.1 ++ x.2.pop.1.toList, x.2.pop.2)

/-- Actions from a fresh parser (R185). -/
def runActions (as : List DemuxAction) : List Event × Demux := as.foldl runAction ([], Demux.fresh)

/-- The full event sequence of a run: what was popped, then what is queued. -/
def allEvents (as : List DemuxAction) : List Event := (runActions as).1 ++ (runActions as).2.evq

/-- The bytes an action feeds. -/
def DemuxAction.bytes : DemuxAction → Bytes
  | .feed c _ => c
  | .pop => []

/-- The bytes a run feeds, in order. -/
def fedBytes (as : List DemuxAction) : Bytes := as.flatMap DemuxAction.bytes

/-- R185 `norm`: timestamps deleted, and every maximal run of adjacent unknown runs one event. -/
def normEvents : List Event → List Event
  | [] => []
  | .unknownBytes bs _ :: es =>
    match normEvents es with
    | .unknownBytes cs _ :: rest => .unknownBytes (bs ++ cs) 0 :: rest
    | rest => .unknownBytes bs 0 :: rest
  | e :: es => e.untimed :: normEvents es

/-- R185 (d): every chunk boundary of a run (an end of a chunk that more bytes follow) falls where `UNK` is
empty before the `FEED_END`. -/
def cleanCuts (as : List DemuxAction) : Prop :=
  ∀ pre c ts post, as = pre ++ .feed c ts :: post → fedBytes post ≠ [] →
    ((runActions pre).2.feedBytes c ts).unk = []

/-- R185 (e): every chunk of a run carries one timestamp. -/
def oneTime (ts : Time) (as : List DemuxAction) : Prop := ∀ c t, DemuxAction.feed c t ∈ as → t = ts

/-- The identifier, payload and checksum field of a frame row. -/
def frameParts : Instr → Option (MsgId × Bytes × Word32)
  | .casicFrame m p ck => some (m, p, ck)
  | .ackNak p ck => some (.ackNak, p, ck)
  | .ackAck p ck => some (.ackAck, p, ck)
  | .monVer p ck => some (.monVer, p, ck)
  | .cfgPrt p ck => some (.cfgPrt, p, ck)
  | .cfgMsg p ck => some (.cfgMsg, p, ck)
  | .cfgRst p ck => some (.cfgRst, p, ck)
  | .cfgTp p ck => some (.cfgTp, p, ck)
  | .cfgRate p ck => some (.cfgRate, p, ck)
  | .cfgCfg p ck => some (.cfgCfg, p, ck)
  | .cfgTmode p ck => some (.cfgTmode, p, ck)
  | .cfgNavx p ck => some (.cfgNavx, p, ck)
  | .send _ | .receivePacket _ | .receive _ | .sendAndWaitAck _ | .poll _ => none
  | .reservedOp0 _ | .reservedOp6 _ | .reservedOp7 _ => none
  | .checksum _ _ _ | .pack _ _ _ | .unpack _ | .feedByte _ _ | .feedEnd | .feed _ _ | .popEvent => none
  | .idleSync1 | .idleNmeaStart | .idleUnknown _ => none

/-- The bytes of a frame row that stands first at the ports: what arrives on the RX stream in the next step. -/
def arrivingBytes : List PortInput → Bytes
  | .xact f bs :: _ =>
    match decode f bs with
    | .ok i =>
      match frameParts i with
      | some (m, p, ck) => frameBytes m p ck
      | none => []
    | .reject _ => []
  | .rst :: _ => []
  | [] => []

/-- R224: a wait whose next action is the read of W3: its read is outstanding, or nothing is queued and the deadline is
not reached. -/
abbrev State.ReadsNext (s : State) : Prop :=
  s.arb.astate = .wait ∧ s.demux.evq = [] ∧ (s.arb.inRead = true ∨ s.readNow.1.toNat < s.arb.deadline)

/-- The state in which that read stands: the clock has been read at W2, but for a read already outstanding. -/
def State.atRead (s : State) : State := if s.arb.inRead then s else s.readNow.2

/-- Whether a record is that of a sent frame (R223). -/
def LogRecord.isSent : LogRecord → Bool
  | .sent _ _ _ => true
  | .received _ => false
  | .firstValid _ => false

/-- R223, R64, R232: one step of sending what is left, `rest`, of the frame `bs`. While the transmission goes on, some of
`rest` is out, what is not is what is still to be sent, and nothing is logged. When it ends, either a port action failed:
some of `rest` is out and nothing is logged; or all of it is out with one flush marker, and one sent record is logged
(where the sink is present). -/
abbrev State.SendsRest (s t : State) (bs rest : Bytes) : Prop :=
  (t.arb.astate = .tx → ∃ k, t.out.tx = s.out.tx ++ (rest.take k).map .byte ∧ t.unsent = rest.drop k ∧
    t.arb.txbuf = bs ∧ t.out.log = s.out.log) ∧
  (t.arb.astate ≠ .tx →
    (t.arb.astate = .fault ∧ t.out.log = s.out.log ∧ ∃ k, t.out.tx = s.out.tx ++ (rest.take k).map .byte) ∨
    (t.out.tx = s.out.tx ++ rest.map .byte ++ [.flush] ∧
      ∃ recs : List LogRecord, t.out.log = s.out.log ++ recs.map LogRecord.entry ∧
        recs.countP LogRecord.isSent = if s.params.logSink then 1 else 0))

/-- Whether a record is the one-time record of the first valid packet (R225). -/
def LogRecord.isFirstValid : LogRecord → Bool
  | .sent _ _ _ => false
  | .received _ => false
  | .firstValid _ => true

/-- R67: the little-endian 16-bit field at an offset. -/
def u16At (p : Bytes) (k : Nat) : BitVec 16 := byteAt p (k + 1) ++ byteAt p k
/-- R67: the little-endian 32-bit field at an offset. -/
def u32At (p : Bytes) (k : Nat) : BitVec 32 := u16At p (k + 2) ++ u16At p k
/-- R67: the little-endian 64-bit field at an offset. -/
def u64At (p : Bytes) (k : Nat) : BitVec 64 := u32At p (k + 4) ++ u32At p k

/-- R68: what the payload adds to the checksum: byte `j` weighs `2^(8 * (j mod 4))`. -/
def weightedSum (p : Bytes) : Nat :=
  ((List.range p.length).map fun j => (byteAt p j).toNat * 2 ^ (8 * (j % 4))).sum

/-- A byte sequence with bit `k` of byte `j` flipped (R151). -/
def flipBit (f : Bytes) (j k : Nat) : Bytes := f.set j (byteAt f j ^^^ (1#8 <<< k))

/-- The pending run as the event a flush emits, if any (R178). -/
def Demux.pendingRun (d : Demux) : List Event := if d.unk = [] then [] else [.unknownBytes d.unk d.unkTs]

/-- What is left of the writes' list when one `PortWrite` and one `PortFlush` have both returned; `none` when one
of the two fails or stays outstanding. -/
def takesFrame : List WriteDraw → Option (List WriteDraw)
  | [] => some []
  | [.done] => some []
  | .done :: .done :: ws => some ws
  | .done :: .fail _ :: _ => none
  | .done :: .pause _ :: _ => none
  | .fail _ :: _ => none
  | .pause _ :: _ => none

/-- The records of events popped in turn (R225), given whether a valid packet has been seen. -/
def popRecords : Bool → List Event → List LogRecord
  | _, [] => []
  | seen, .casicPacket m p ts raw :: es =>
    .received (.casicPacket m p ts raw) :: ((if seen then [] else [.firstValid m]) ++ popRecords true es)
  | seen, e :: es => .received e :: popRecords seen es

/-- The sinks that are present with some records more (R346, R347). -/
def State.withRecords (s : State) (rs : List LogRecord) : State :=
  { s with out := { s.out with
      log := if s.params.logSink then s.out.log ++ rs.map LogRecord.entry else s.out.log
      pktLog := if s.params.pktLogSink then s.out.pktLog ++ rs.filterMap packetRecord else s.out.pktLog } }

/-- R222, R223: the state a taken `SEND` leaves when the transport takes the frame. -/
def State.sentFrame (s : State) (d : Descriptor) (ws : List WriteDraw) : State :=
  let s1 : State := { s with env := { s.env with writes := ws } }
  State.withRecords
    { s1.readNow.2 with
      arb := { s.arb with op := 1, tmo := d.timeout, txbuf := [], txSent := 0 }
      out := { s.out with
        tx := s.out.tx ++ (pack d.cls d.id d.payload).map .byte ++ [.flush]
        rsp := s.out.rsp ++ [⟨.ok, false, false, none, none, [], [], none⟩] } }
    [.sent ⟨d.cls, d.id⟩ (pack d.cls d.id d.payload) s1.readNow.1]

/-- The state in which a sending command's wait has answered from the queue: the frame is out and logged, the deadline
is armed after that (R231), the events up to the answer are popped and logged (R225), and the result is delivered. -/
def State.answeredFromQueue (s : State) (d : Descriptor) (op : BitVec 3) (ws : List WriteDraw)
    (popped rest : List Event) (r : Result) : State :=
  let s1 : State := { s with env := { s.env with writes := ws } }
  let s2 := s1.readNow.2.readNow
  State.withRecords
    { s2.2 with
      demux := { s.demux with evq := rest }
      arb := { s.arb with
        op := op, tmo := d.timeout, pendClass := d.cls, pendId := d.id, txbuf := [], txSent := 0, inRead := false
        deadline := s2.1.toNat + d.timeout.toNat, seenValid := s.arb.seenValid || popped.any Event.isPacket }
      out := { s.out with
        tx := s.out.tx ++ (pack d.cls d.id d.payload).map .byte ++ [.flush]
        rsp := s.out.rsp ++ [r] } }
    (.sent ⟨d.cls, d.id⟩ (pack d.cls d.id d.payload) s1.readNow.1 :: popRecords s.arb.seenValid popped)

/-- R225: events popped and logged in turn; `rest` is what stays queued. -/
def State.popAll (s : State) (popped rest : List Event) : State :=
  State.withRecords
    { s with
      demux := { s.demux with evq := rest }
      arb := { s.arb with seenValid := s.arb.seenValid || popped.any Event.isPacket } }
    (popRecords s.arb.seenValid popped)

/-- R224: the state a wait leaves that ends on the last of the events popped, with its result. -/
def State.waitEnds (s : State) (popped rest : List Event) (r : Result) : State :=
  let u := s.popAll popped rest
  { u with arb := { u.arb with astate := .idle }, out := { u.out with rsp := u.out.rsp ++ [r] } }

/-- R227, R228, R231: the state in which the wait of a receive starts: the deadline is armed, and nothing else is done. -/
def State.armedReceive (s : State) (d : Descriptor) (op : BitVec 3) : State :=
  { s.readNow.2 with
    arb := { s.arb with
      astate := .wait, op := op, tmo := d.timeout, inRead := false
      deadline := s.readNow.1.toNat + d.timeout.toNat } }

/-- R229, R230, R231: the state in which the wait of a sending command starts that its step took: the frame is out with
its flush marker and logged, the deadline is armed after that, and nothing is popped yet. -/
def State.armedWait (s : State) (d : Descriptor) (op : BitVec 3) (ws : List WriteDraw) : State :=
  let s1 : State := { s with env := { s.env with writes := ws } }
  let s2 := s1.readNow.2.readNow
  State.withRecords
    { s2.2 with
      arb := { s.arb with
        astate := .wait, op := op, tmo := d.timeout, pendClass := d.cls, pendId := d.id, txbuf := [], txSent := 0
        inRead := false, deadline := s2.1.toNat + d.timeout.toNat }
      out := { s.out with tx := s.out.tx ++ (pack d.cls d.id d.payload).map .byte ++ [.flush] } }
    [.sent ⟨d.cls, d.id⟩ (pack d.cls d.id d.payload) s1.readNow.1]

/-- What is left of the writes' list when what is left of `TXBUF` is written and flushed: a `PortWrite` that has handed
over the whole of it has returned. `none` when one of the two fails or stays outstanding. -/
def State.takesRest (s : State) : Option (List WriteDraw) :=
  if s.unsent = [] then
    match s.env.writes with
    | [] => some []
    | .done :: ws => some ws
    | .fail _ :: _ => none
    | .pause _ :: _ => none
  else takesFrame s.env.writes

/-- R222, R223: the state a resumed transmission of `SEND` leaves when the transport takes the rest of the frame. -/
def State.resumedSend (s : State) (ws : List WriteDraw) : State :=
  let s1 : State := { s with env := { s.env with writes := ws } }
  State.withRecords
    { s1.readNow.2 with
      arb := { s.arb with astate := .idle, txbuf := [], txSent := 0 }
      out := { s.out with
        tx := s.out.tx ++ s.unsent.map .byte ++ [.flush]
        rsp := s.out.rsp ++ [⟨.ok, false, false, none, none, [], [], none⟩] } }
    [.sent ⟨byteAt s.arb.txbuf 4, byteAt s.arb.txbuf 5⟩ s.arb.txbuf s1.readNow.1]

/-- R229, R230, R231: the state in which the wait of a sending command starts after a resumed transmission. -/
def State.resumedWait (s : State) (ws : List WriteDraw) : State :=
  let s1 : State := { s with env := { s.env with writes := ws } }
  let s2 := s1.readNow.2.readNow
  State.withRecords
    { s2.2 with
      arb := { s.arb with
        astate := .wait, txbuf := [], txSent := 0, inRead := false, deadline := s2.1.toNat + s.arb.tmo.toNat }
      out := { s.out with tx := s.out.tx ++ s.unsent.map .byte ++ [.flush] } }
    [.sent ⟨byteAt s.arb.txbuf 4, byteAt s.arb.txbuf 5⟩ s.arb.txbuf s1.readNow.1]

/-- R226, R100: an `ACK-ACK` (`id` = 1) or `ACK-NAK` (`id` = 0) packet whose payload begins with a given pair. -/
def IsEcho (ackId cls id : Byte) (e : Event) : Prop :=
  ∃ rest ts raw, e = .casicPacket ⟨0x05, ackId⟩ (cls :: id :: rest) ts raw

/-- R53: two parsers that agree on every element a rule can read next; an element that is written before it is read
may differ. -/
abbrev Demux.SameLive (d e : Demux) : Prop :=
  d.pstate = e.pstate ∧ d.acc = e.acc ∧ d.unk = e.unk ∧ d.evq = e.evq ∧
  (d.pstate = .lenLo → d.lenLo = e.lenLo) ∧ (d.pstate = .body → d.remaining = e.remaining) ∧
  (d.pstate ≠ .idle → d.accTs = e.accTs) ∧ (d.unk ≠ [] → d.unkTs = e.unkTs)

/-- R53: two arbiters that agree on every element a rule can read next: `OP` while a command is in progress (R41),
`PEND_CLASS` and `PEND_ID` while one that uses them is (R42), `DEADLINE` in a wait (R43), the `timeout` operand until
the wait is armed (R231). -/
abbrev Arbiter.SameLive (a b : Arbiter) : Prop :=
  a.astate = b.astate ∧ a.txbuf = b.txbuf ∧ a.seenValid = b.seenValid ∧ a.txSent = b.txSent ∧ a.inRead = b.inRead ∧
  (a.astate = .tx ∨ a.astate = .wait → a.op = b.op) ∧
  ((a.astate = .tx ∨ a.astate = .wait) ∧ (a.op = opSendAndWaitAck ∨ a.op = opPoll) →
    a.pendClass = b.pendClass ∧ a.pendId = b.pendId) ∧
  (a.astate = .tx → a.tmo = b.tmo) ∧ (a.astate = .wait → a.deadline = b.deadline)

/-- R53: two states that differ in no element that is read before it is written. -/
abbrev State.SameLive (s t : State) : Prop :=
  s.params = t.params ∧ s.env = t.env ∧ s.out = t.out ∧ s.ports = t.ports ∧
  s.demux.SameLive t.demux ∧ s.arb.SameLive t.arb

end Sys2Proof.Machine
end

