-- ==== Sys2Proof/Certificates/Slice0/Obligations.lean ====
section
/-! DEFINITION. The statements about the model, for the provers. Each docstring names the rules of `spec/` it
formalises; where a statement rests on a choice of the model it names the log entry. -/

open Sys2Proof Sys2Proof.Machine

/-! ### Encoding and the step -/

/-- R90, R97, R114, R125: decoding an encoded well-formed instruction gives it back, every operand included. The
layouts of formats `CMD` and `INTERNAL` are the model's (log entry 1). -/
def Obligations.DecodeEncode : Prop :=
  ∀ i : Instr, i.WellFormed → decode (formatOf i) (encode i) = .ok i

/-- Each accepted byte sequence has one meaning: what the decoder reads is well formed, of the format it was given
in, and encodes to the same bytes (R125; log entry 1). -/
def Obligations.EncodeDecode : Prop :=
  ∀ (f : Format) (bs : Bytes) (i : Instr), decode f bs = .ok i →
    i.WellFormed ∧ formatOf i = f ∧ encode i = bs

/-- Words written out from the encodings decode to the rows they stand for: the operation codes of R115, the byte
patterns of R97 and R99, the bytes of R90. The model's choice (log entry 1) is what R125 does not give: that a table
word's byte 0 lies in its lowest bits (R125 writes byte 0 leftmost), that a lone `op` byte stands for a descriptor
whose other fields are zero, and the selector byte of an `INTERNAL` transaction. -/
def Obligations.WordsOfTheTableDecode : Prop :=
  decodeTableWord 8 0x01 = some (.send ⟨0, 0, [], 0⟩) ∧
  decodeTableWord 8 0x05 = some (.poll ⟨0, 0, [], 0⟩) ∧
  decodeTableWord 8 0x06 = some (.reservedOp6 ⟨0, 0, [], 0⟩) ∧
  decodeTableWord 8 0xBA = some .idleSync1 ∧
  decodeTableWord 8 0x24 = some .idleNmeaStart ∧
  decodeTableWord 48 0x00060000CEBA = some (.cfgPrt [] 0) ∧
  decode .frame [0xBA, 0xCE, 0x02, 0x00, 0x05, 0x01, 0x06, 0x04, 0x08, 0x04, 0x05, 0x01]
    = .ok (.ackAck [0x06, 0x04] 0x01050408) ∧
  decode .internal [0x06] = .ok .popEvent

/-- When the bytes that stand first at the ports decode to an instruction, the step is `exec` of it, with its
transaction taken off the ports. With nothing presented, what is in progress goes on (R224), as it does whatever is
presented, and an idle block does nothing (R361). The model's choices: that the transfers at all ports stand in one
queue whose head a step takes (log entries 8 and 13; R18 does not order the ports), and how far one step runs (log entry
19). -/
def Obligations.StepRunsTheDecodedInstruction : Prop :=
  (∀ (s : State) (f : Format) (bs : Bytes) (ps : List PortInput) (i : Instr),
    s.ports = .xact f bs :: ps → decode f bs = .ok i → step s = exec i { s with ports := ps }) ∧
  (∀ s : State, s.ports = [] → step s = .next s.goOn) ∧
  (∀ (s : State) (qs : List PortInput), State.goOn { s with ports := qs } = { s.goOn with ports := qs }) ∧
  (∀ s : State, s.arb.astate = .idle ∨ s.arb.astate = .fault → s.goOn = s)

/-- R120 ("None traps"), R190, R350: every well-formed instruction answers a next state in every state. -/
def Obligations.EveryWellFormedInstructionAnswersNext : Prop :=
  ∀ (i : Instr) (s : State), i.WellFormed → ∃ t, exec i s = .next t

/-! ### CODEC -/

/-- R140, R68, R144: `CHECKSUM` answers the seed plus payload byte `j` weighed `2^(8 * (j mod 4))`, mod `2^32`, and
changes nothing but the test access's answers. -/
def Obligations.ChecksumAnswersTheWeightedSum : Prop :=
  ∀ (c i : Byte) (p : Bytes) (s : State), p.length ≤ 65535 →
    ∃ ck : Word32,
      exec (.checksum c i p) s = .next { s with out := { s.out with test := s.out.test ++ [.checksum ck] } } ∧
      ck.toNat = (i.toNat * 2 ^ 24 + c.toNat * 2 ^ 16 + p.length + weightedSum p) % 2 ^ 32

/-- R142, R144 (b): the checksum of an empty payload; and appended zero bytes show in the length term alone. -/
def Obligations.ChecksumOfEmptyAndPaddedPayloads : Prop :=
  (∀ c i : Byte, (checksum c i []).toNat = i.toNat * 2 ^ 24 + c.toNat * 2 ^ 16) ∧
  ∀ (c i : Byte) (p : Bytes) (k : Nat), p.length + k ≤ 65535 →
    checksum c i (p ++ zeros k) = checksum c i p + BitVec.ofNat 32 k

/-- R143: the checksum of a frame's fields is the sum of the little-endian words of `f[2 .. 6 + L)`, zero-padded,
and byte `j` of that range weighs `2^(8 * (j mod 4))` in it. -/
def Obligations.ChecksumIsTheStreamingSum : Prop :=
  ∀ f : Bytes, 6 + memRead16 f 2 ≤ f.length →
    checksum (byteAt f 4) (byteAt f 5) (slice f 6 (6 + memRead16 f 2))
        = (leWords (slice f 2 (6 + memRead16 f 2) ++ zeros (padLen (memRead16 f 2)))).foldl (· + ·) 0 ∧
    (checksum (byteAt f 4) (byteAt f 5) (slice f 6 (6 + memRead16 f 2))).toNat
        = weightedSum (slice f 2 (6 + memRead16 f 2)) % 2 ^ 32

/-- R145, R146: `PACK` answers the frame, of length `10 + len`; a payload that the length field cannot count is
refused. -/
def Obligations.PackAnswersTheFrame : Prop :=
  ∀ (c i : Byte) (p : Bytes) (s : State),
    (p.length ≤ 65535 →
      exec (.pack c i p) s = .next { s with out := { s.out with test := s.out.test ++ [.packed
        ([0xBA, 0xCE, BitVec.ofNat 8 p.length, BitVec.ofNat 8 (p.length / 256), c, i] ++ p
          ++ bytesLe32 (checksum c i p).toNat)] } }) ∧
    (65535 < p.length → exec (.pack c i p) s = .refused .payloadTooLong) ∧
    (pack c i p).length = 10 + p.length

/-- R147, R149, R94: `UNPACK` accepts exactly the buffers that begin with a packed frame, and gives back what was
packed; it changes nothing but the test access's answers. -/
def Obligations.UnpackAcceptsExactlyPackedFrames : Prop :=
  ∀ (buf : Bytes) (s : State), ∃ u : Unpacked,
    exec (.unpack buf) s = .next { s with out := { s.out with test := s.out.test ++ [.unpacked u] } } ∧
    ∀ (m : MsgId) (p : Bytes),
      u = .ok m p ↔ p.length ≤ 65535 ∧ ∃ rest, buf = pack m.cls m.id p ++ rest

/-- R148, R328 item 1: the tests of `UNPACK` are made in order, and the first that fails gives the code. -/
def Obligations.UnpackReportsTheFirstFailure : Prop :=
  ∀ buf : Bytes,
    (unpack buf = .err .short ↔ buf.length < 10) ∧
    (unpack buf = .err .sync ↔ 10 ≤ buf.length ∧ (byteAt buf 0 ≠ 0xBA ∨ byteAt buf 1 ≠ 0xCE)) ∧
    (unpack buf = .err .trunc ↔ 10 ≤ buf.length ∧ byteAt buf 0 = 0xBA ∧ byteAt buf 1 = 0xCE ∧
      buf.length < 10 + memRead16 buf 2) ∧
    (unpack buf = .err .cksum ↔ byteAt buf 0 = 0xBA ∧ byteAt buf 1 = 0xCE ∧ 10 + memRead16 buf 2 ≤ buf.length ∧
      memRead32 buf (6 + memRead16 buf 2)
        ≠ (checksum (byteAt buf 4) (byteAt buf 5) (slice buf 6 (6 + memRead16 buf 2))).toNat)

/-- R150: the round trip, on the whole domain. -/
def Obligations.UnpackOfPack : Prop :=
  ∀ (c i : Byte) (p : Bytes), p.length ≤ 65535 → unpack (pack c i p) = .ok ⟨c, i⟩ p

/-- R151: one flipped bit anywhere but in the length field is detected, with the code the rule gives. -/
def Obligations.SingleBitFlipDetected : Prop :=
  ∀ (c i : Byte) (p : Bytes) (j k : Nat), p.length ≤ 65535 → j < (pack c i p).length → k < 8 → j ≠ 2 → j ≠ 3 →
    unpack (flipBit (pack c i p) j k) = .err (if j < 2 then .sync else .cksum)

/-- R152: every proper prefix of a valid frame is refused, with the code its length gives. -/
def Obligations.TruncationDetected : Prop :=
  ∀ (c i : Byte) (p : Bytes) (n : Nat), p.length ≤ 65535 → n < (pack c i p).length →
    unpack ((pack c i p).take n) = .err (if n < 10 then .short else .trunc)

/-- R285, R100 to R109: a payload shorter than its structure is a `DecodeError`; one that is long enough is read, each
field at the offset its rule gives, and writing its fields back gives its first bytes again; every structure is
written in its fixed size and reads back as itself. That a longer payload is read by its first bytes is the model's
(log entry 14; R285 says only that such a buffer "is not said to fail"). -/
def Obligations.PayloadLayoutsRoundTrip : Prop :=
  (∀ (m : MsgId) (p : Bytes) (n : Nat), payloadSize m = some n →
    (p.length < n → decodePayload m p = none) ∧
    (n ≤ p.length → ∃ f, decodePayload m p = some f ∧ encodePayload f = p.take n)) ∧
  (∀ f : Payload, ∃ m, payloadSize m = some (encodePayload f).length ∧ decodePayload m (encodePayload f) = some f) ∧
  ∀ p : Bytes,
    (2 ≤ p.length →
      decodePayload ⟨0x05, 0x00⟩ p = some (.ack (byteAt p 0) (byteAt p 1)) ∧
      decodePayload ⟨0x05, 0x01⟩ p = some (.ack (byteAt p 0) (byteAt p 1))) ∧
    (64 ≤ p.length → ∃ sw hw, decodePayload ⟨0x0A, 0x04⟩ p = some (.monVer sw hw) ∧
      sw.toList = p.take 32 ∧ hw.toList = (p.drop 32).take 32) ∧
    (8 ≤ p.length → decodePayload ⟨0x06, 0x00⟩ p
      = some (.cfgPrt (byteAt p 0) (byteAt p 1) (u16At p 2) (u32At p 4))) ∧
    (4 ≤ p.length →
      decodePayload ⟨0x06, 0x01⟩ p = some (.cfgMsg (byteAt p 0) (byteAt p 1) (u16At p 2)) ∧
      decodePayload ⟨0x06, 0x02⟩ p = some (.cfgRst (u16At p 0) (byteAt p 2) (byteAt p 3)) ∧
      decodePayload ⟨0x06, 0x04⟩ p = some (.cfgRate (u16At p 0) (u16At p 2)) ∧
      decodePayload ⟨0x06, 0x05⟩ p = some (.cfgCfg (u16At p 0) (byteAt p 2) (byteAt p 3))) ∧
    (16 ≤ p.length → decodePayload ⟨0x06, 0x03⟩ p
      = some (.cfgTp (u32At p 0) (u32At p 4) (byteAt p 8) (byteAt p 9) (byteAt p 10) (byteAt p 11) (u32At p 12))) ∧
    (40 ≤ p.length → decodePayload ⟨0x06, 0x06⟩ p
      = some (.cfgTmode (u16At p 0) (u16At p 2) (u64At p 4) (u64At p 12) (u64At p 20) (u32At p 28) (u32At p 32)
          (u32At p 36))) ∧
    (44 ≤ p.length → ∃ head, head.toList = p.take 16 ∧ decodePayload ⟨0x06, 0x07⟩ p
      = some (.cfgNavx head (u32At p 16) (u32At p 20) (u32At p 24) (u32At p 28) (u32At p 32) (u32At p 36) (u32At p 40)))

/-! ### DEMUX, state by state -/

/-- R172: `FEED_BYTE` in `IDLE`. -/
def Obligations.FeedByteInIdle : Prop :=
  ∀ (s : State) (b : Byte) (ts : Time), s.demux.pstate = .idle →
    (b = 0xBA → exec (.feedByte b ts) s = .next { s with demux := { s.demux with
      evq := s.demux.evq ++ s.demux.pendingRun, unk := [], acc := [b], accTs := ts, pstate := .sync1 } }) ∧
    (b = 0x24 → exec (.feedByte b ts) s = .next { s with demux := { s.demux with
      evq := s.demux.evq ++ s.demux.pendingRun, unk := [], acc := [b], accTs := ts, pstate := .nmea } }) ∧
    (b ≠ 0xBA → b ≠ 0x24 → exec (.feedByte b ts) s = .next { s with demux := { s.demux with
      unk := s.demux.unk ++ [b], unkTs := if s.demux.unk = [] then ts else s.demux.unkTs } })

/-- R173: `FEED_BYTE` in `SYNC1`, where by R30 `ACC` is the lone `0xBA` and `UNK` is empty. -/
def Obligations.FeedByteInSync1 : Prop :=
  ∀ (s : State) (b : Byte) (ts : Time), s.demux.Inv → s.demux.pstate = .sync1 →
    (b = 0xCE → exec (.feedByte b ts) s = .next { s with demux := { s.demux with
      acc := [0xBA, 0xCE], pstate := .sync2 } }) ∧
    (b = 0xBA → exec (.feedByte b ts) s = .next { s with demux := { s.demux with
      evq := s.demux.evq ++ [.unknownBytes [0xBA] s.demux.accTs], unkTs := s.demux.accTs, acc := [0xBA],
      accTs := ts } }) ∧
    (b = 0x24 → exec (.feedByte b ts) s = .next { s with demux := { s.demux with
      evq := s.demux.evq ++ [.unknownBytes [0xBA] s.demux.accTs], unkTs := s.demux.accTs, acc := [0x24],
      accTs := ts, pstate := .nmea } }) ∧
    (b ≠ 0xCE → b ≠ 0xBA → b ≠ 0x24 → exec (.feedByte b ts) s = .next { s with demux := { s.demux with
      unk := [0xBA, b], unkTs := s.demux.accTs, acc := [], pstate := .idle } })

/-- R174, R175, R9: `FEED_BYTE` in `SYNC2` and `LENLO`: every value is a length byte; a declared length above 4096
abandons the header as one event. -/
def Obligations.FeedByteInTheHeader : Prop :=
  ∀ (s : State) (b : Byte) (ts : Time),
    (s.demux.pstate = .sync2 → exec (.feedByte b ts) s = .next { s with demux := { s.demux with
      acc := s.demux.acc ++ [b], lenLo := b, pstate := .lenLo } }) ∧
    (s.demux.pstate = .lenLo → s.demux.lenLo.toNat + 256 * b.toNat ≤ 4096 →
      exec (.feedByte b ts) s = .next { s with demux := { s.demux with
        acc := s.demux.acc ++ [b], remaining := s.demux.lenLo.toNat + 256 * b.toNat + 6, pstate := .body } }) ∧
    (s.demux.pstate = .lenLo → 4096 < s.demux.lenLo.toNat + 256 * b.toNat →
      exec (.feedByte b ts) s = .next { s with demux := { s.demux with
        evq := s.demux.evq ++ [.unknownBytes (s.demux.acc ++ [b]) s.demux.accTs], acc := [], pstate := .idle } })

/-- R176: `FEED_BYTE` in `BODY`: bytes are counted, and at the last one `UNPACK` decides what the frame is. -/
def Obligations.FeedByteInBody : Prop :=
  ∀ (s : State) (b : Byte) (ts : Time), s.demux.pstate = .body →
    (2 ≤ s.demux.remaining → exec (.feedByte b ts) s = .next { s with demux := { s.demux with
      acc := s.demux.acc ++ [b], remaining := s.demux.remaining - 1 } }) ∧
    (∀ m p, s.demux.remaining = 1 → unpack (s.demux.acc ++ [b]) = .ok m p →
      exec (.feedByte b ts) s = .next { s with demux := { s.demux with
        evq := s.demux.evq ++ [.casicPacket m p s.demux.accTs (s.demux.acc ++ [b])],
        remaining := 0, acc := [], pstate := .idle } }) ∧
    (∀ e, s.demux.remaining = 1 → unpack (s.demux.acc ++ [b]) = .err e →
      exec (.feedByte b ts) s = .next { s with demux := { s.demux with
        evq := s.demux.evq ++ [.unknownBytes (s.demux.acc ++ [b]) s.demux.accTs],
        remaining := 0, acc := [], pstate := .idle } })

/-- R177, R328 item 2: `FEED_BYTE` in `NMEA`: end of line first, then the guard at 1024 bytes. -/
def Obligations.FeedByteInNmea : Prop :=
  ∀ (s : State) (b : Byte) (ts : Time), s.demux.pstate = .nmea →
    (b = 0x0A → exec (.feedByte b ts) s = .next { s with demux := { s.demux with
      evq := s.demux.evq ++ [.nmeaSentence (s.demux.acc ++ [b]) s.demux.accTs], acc := [], pstate := .idle } }) ∧
    (b ≠ 0x0A → s.demux.acc.length + 1 < 1024 → exec (.feedByte b ts) s = .next { s with demux := { s.demux with
      acc := s.demux.acc ++ [b] } }) ∧
    (b ≠ 0x0A → 1024 ≤ s.demux.acc.length + 1 → exec (.feedByte b ts) s = .next { s with demux := { s.demux with
      evq := s.demux.evq ++ [.unknownBytes (s.demux.acc ++ [b]) s.demux.accTs], acc := [], pstate := .idle } })

/-- R178, R179, R181: `FEED_END` emits the pending run, if any; `POP_EVENT` answers the oldest event, or none. -/
def Obligations.FeedEndAndPopEvent : Prop :=
  ∀ s : State,
    exec .feedEnd s = .next { s with demux := { s.demux with
      evq := s.demux.evq ++ s.demux.pendingRun, unk := [] } } ∧
    (s.demux.evq = [] →
      exec .popEvent s = .next { s with out := { s.out with test := s.out.test ++ [.popped none] } }) ∧
    (∀ e es, s.demux.evq = e :: es → exec .popEvent s = .next { s with
      demux := { s.demux with evq := es }, out := { s.out with test := s.out.test ++ [.popped (some e)] } })

/-- R172, R97, R170, R182, R380: the three `STREAM1` rows in `IDLE`, each stamped with the timestamp its caller supplies,
and without a read of the clock. The model's choice (log entry 6) is that the byte is evaluated at the `feed` test port,
and what its timestamp is where the environment gives none: the value the clock last had. -/
def Obligations.StreamRowsInIdle : Prop :=
  ∀ (s : State) (ts : Time) (tss : List Time), s.demux.pstate = .idle →
    s.env.stamps = ts :: tss ∨ (s.env.stamps = [] ∧ tss = [] ∧ ts = s.env.now) →
    exec .idleSync1 s = .next { s with env := { s.env with stamps := tss }, demux := { s.demux with
      evq := s.demux.evq ++ s.demux.pendingRun, unk := [], acc := [0xBA], accTs := ts, pstate := .sync1 } } ∧
    exec .idleNmeaStart s = .next { s with env := { s.env with stamps := tss }, demux := { s.demux with
      evq := s.demux.evq ++ s.demux.pendingRun, unk := [], acc := [0x24], accTs := ts, pstate := .nmea } } ∧
    ∀ b : Byte, b ≠ 0xBA → b ≠ 0x24 →
      exec (.idleUnknown b) s = .next { s with env := { s.env with stamps := tss }, demux := { s.demux with
        unk := s.demux.unk ++ [b], unkTs := if s.demux.unk = [] then ts else s.demux.unkTs } }

/-- R63, R66, R52 (a), R120, R112, R91: a frame row that arrives joins the RX stream, and the command in progress goes
on; with none in progress nothing else changes. Fed to an idle parser, its bytes leave exactly one event more (after the
pending run): the packet when its checksum field is right, its bytes as unknown bytes otherwise, with no filter on the
identifier. So a `RECEIVE_PACKET` in progress reads it, however the reads cut it into pieces of `READ_MAX` bytes or
less, and returns that event, as long as the clock stays below the deadline. That a row stands for its arrival is the
model's choice (log entry 6). -/
def Obligations.FrameRowsBecomeEvents : Prop :=
  ∀ (i : Instr) (m : MsgId) (p : Bytes) (ck : Word32) (s : State), frameParts i = some (m, p, ck) →
    (p.length ≤ 65535 →
      exec i s = .next (State.goOn { s with env := { s.env with rx := s.env.rx ++ frameBytes m p ck } }) ∧
      (s.arb.astate = .idle ∨ s.arb.astate = .fault →
        exec i s = .next { s with env := { s.env with rx := s.env.rx ++ frameBytes m p ck } })) ∧
    (p.length ≤ 4096 → ∀ (d : Demux) (ts : Time), d.pstate = .idle →
      d.feed (frameBytes m p ck) ts
        = { pstate := .idle, lenLo := BitVec.ofNat 8 p.length, remaining := 0, acc := [], accTs := ts, unk := [],
            unkTs := d.unkTs,
            evq := d.evq ++ d.pendingRun ++
              [if ck = checksum m.cls m.id p then .casicPacket m p ts (frameBytes m p ck)
               else .unknownBytes (frameBytes m p ck) ts] }) ∧
    (∀ (ns : List Nat) (ds : List ReadDraw), p.length ≤ 4096 → s.arb.astate = .wait → s.arb.op = 2 →
      s.demux.evq = [] → s.demux.pstate = .idle → s.demux.unk = [] → s.env.rx = [] →
      s.env.reads = ns.map .got ++ ds → (∀ n ∈ ns, n ≤ s.params.readMax) → ns.sum = 10 + p.length →
      s.env.now.toNat < s.arb.deadline → (∀ v ∈ s.env.clock, v.toNat < s.arb.deadline) →
      ∃ t ts, exec i s = .next t ∧ t.arb.astate = .idle ∧ t.demux.evq = [] ∧ t.demux.pstate = .idle ∧
        t.env.rx = [] ∧ t.out.tx = s.out.tx ∧ t.out.rsp = s.out.rsp ++
          [if ck = checksum m.cls m.id p then ⟨.ok, false, true, some .packet, some m, p, frameBytes m p ck, some ts⟩
           else ⟨.ok, false, true, some .unknown, none, frameBytes m p ck, [], some ts⟩])

/-! ### DEMUX, over byte streams -/

/-- R31, R190, R80: `FEED` of any bytes loses and duplicates none of them, leaves `UNK` empty, and changes nothing but
the parser. -/
def Obligations.FeedConservesBytes : Prop :=
  ∀ (s : State) (c : Bytes) (ts : Time), s.demux.Inv →
    ∃ d : Demux, exec (.feed c ts) s = .next { s with demux := d } ∧
      d.held = s.demux.held ++ c ∧ d.unk = [] ∧ d.Inv ∧ ∃ es, d.evq = s.demux.evq ++ es

/-- R171, R243, R27, C12: under the invariant of R30 one byte emits no event or one, a chunk fed to a parser with no
pending run emits at most one event per byte, and within the chunk `UNK` holds at most one byte more than the chunk. -/
def Obligations.EventsPerByteAreBounded : Prop :=
  (∀ (d : Demux) (b : Byte) (ts : Time), d.Inv →
    (d.feedByte b ts).evq = d.evq ∨ ∃ e, (d.feedByte b ts).evq = d.evq ++ [e]) ∧
  ∀ (d : Demux) (c : Bytes) (ts : Time), d.Inv → d.unk = [] →
    (d.feed c ts).evq.length ≤ d.evq.length + c.length ∧ (d.feedBytes c ts).unk.length ≤ c.length + 1

/-- R187: at frame completion `UNPACK` can fail only with `E_CKSUM`. -/
def Obligations.CompletionFailsOnlyOnTheChecksum : Prop :=
  ∀ (d : Demux) (b : Byte) (e : FrameError), d.Inv → d.pstate = .body → d.remaining = 1 →
    unpack (d.acc ++ [b]) = .err e → e = .cksum

/-- R186, R171: a lone sync byte before a valid frame, fed to a parser that is idle with no pending run, comes out as
exactly one run, and the frame as a packet. -/
def Obligations.ResyncOnDoubledSync : Prop :=
  ∀ (s : State) (c i : Byte) (p : Bytes) (ts : Time), s.demux.pstate = .idle → s.demux.unk = [] → p.length ≤ 4096 →
    ∃ d : Demux, exec (.feed (0xBA :: pack c i p) ts) s = .next { s with demux := d } ∧
      d.evq = s.demux.evq ++ [.unknownBytes [0xBA] ts, .casicPacket ⟨c, i⟩ p ts (pack c i p)] ∧
      d.pstate = .idle ∧ d.acc = [] ∧ d.unk = []

/-- R188, R96: a `$`, bytes that are no line feed, and a line feed, 1024 bytes at most, fed to a parser that is idle with
no pending run, are exactly one sentence. -/
def Obligations.SentenceIsExtracted : Prop :=
  ∀ (s : State) (body : Bytes) (ts : Time), s.demux.pstate = .idle → s.demux.unk = [] → 0x0A ∉ body →
    body.length ≤ 1022 →
    ∃ d : Demux, exec (.feed (0x24 :: (body ++ [0x0A])) ts) s = .next { s with demux := d } ∧
      d.evq = s.demux.evq ++ [.nmeaSentence (0x24 :: (body ++ [0x0A])) ts] ∧
      d.pstate = .idle ∧ d.acc = [] ∧ d.unk = []

/-- R189, R175: a header that declares more than 4096 bytes, fed to a parser that is idle with no pending run, is
abandoned as unknown bytes, and a valid frame that follows it at once is parsed. -/
def Obligations.OversizeHeaderIsAbandoned : Prop :=
  ∀ (s : State) (lo hi c i : Byte) (p : Bytes) (ts : Time),
    s.demux.pstate = .idle → s.demux.unk = [] → 4096 < lo.toNat + 256 * hi.toNat → p.length ≤ 4096 →
    ∃ d : Demux, exec (.feed ([0xBA, 0xCE, lo, hi] ++ pack c i p) ts) s = .next { s with demux := d } ∧
      d.evq = s.demux.evq ++ [.unknownBytes [0xBA, 0xCE, lo, hi] ts, .casicPacket ⟨c, i⟩ p ts (pack c i p)] ∧
      d.pstate = .idle ∧ d.acc = [] ∧ d.unk = []

/-- R183, R370: while a frame's body is counted no byte is looked at: fewer bytes than `REMAINING` are only stored. -/
def Obligations.BodySwallowsWhatFollows : Prop :=
  ∀ (d : Demux) (c : Bytes) (ts : Time), d.pstate = .body → d.unk = [] → c.length < d.remaining →
    d.feed c ts = { d with acc := d.acc ++ c, remaining := d.remaining - c.length }

/-- R185 (a), (b), (c): however a byte string is cut into chunks, stamped and interleaved with pops, the events are the
same up to timestamps and the cutting of unknown runs, packets and sentences are the same in bytes and order, and
the parser ends in the same state. -/
def Obligations.ChunkingDoesNotMatter : Prop :=
  ∀ as bs : List DemuxAction, fedBytes as = fedBytes bs →
    normEvents (allEvents as) = normEvents (allEvents bs) ∧
    ((allEvents as).filter (fun e => !e.isUnknown)).map Event.untimed
      = ((allEvents bs).filter (fun e => !e.isUnknown)).map Event.untimed ∧
    (runActions as).2.pstate = (runActions bs).2.pstate ∧
    (runActions as).2.acc = (runActions bs).2.acc ∧
    ((runActions as).2.pstate = .lenLo → (runActions as).2.lenLo = (runActions bs).2.lenLo) ∧
    ((runActions as).2.pstate = .body → (runActions as).2.remaining = (runActions bs).2.remaining)

/-- R185 (d), (e): where no chunk boundary falls inside an unknown run, the events are identical but for timestamps; with
one timestamp throughout, identical. -/
def Obligations.CleanChunkingIsExact : Prop :=
  ∀ as bs : List DemuxAction, fedBytes as = fedBytes bs → cleanCuts as → cleanCuts bs →
    (allEvents as).map Event.untimed = (allEvents bs).map Event.untimed ∧
    ∀ ts : Time, oneTime ts as → oneTime ts bs → allEvents as = allEvents bs

/-! ### ARBITER: commands -/

/-- R222, R223: `SEND` taken in `A_IDLE`, when the transport takes the frame: the frame and the flush marker go out, one
record is logged after them, and the result is `S_OK`. Nothing is read, and the parser, `DEADLINE`, `PEND_CLASS` and
`PEND_ID` are as before. A `SEND` whose transmission goes on in a later step ends so when the transport takes the rest
of the frame (that it goes on with the bytes not yet handed over is the model's choice, log entries 5, 18 and 19). -/
def Obligations.SendCompletes : Prop :=
  (∀ (d : Descriptor) (s : State) (ws : List WriteDraw),
    s.arb.astate = .idle → d.payload.length ≤ 65535 → takesFrame s.env.writes = some ws →
    exec (.send d) s = .next (s.sentFrame d ws)) ∧
  (∀ (s : State) (ws : List WriteDraw), s.ports = [] → s.arb.astate = .tx → s.arb.op = 1 → s.takesRest = some ws →
    step s = .next (s.resumedSend ws))

/-- R237, R325, R333, R241, R338, R328 item 5, U16: when `PortWrite` fails after `k` bytes, each sending command ends in
`A_FAULT` with `S_TRANSPORT`: those bytes are out, nothing is logged, and the parser is as before; when `PortFlush`
fails, the whole frame is out and no flush marker. When the `PortRead` of a wait fails, the wait ends so too, whether
or not the deadline has passed unseen: `DEMUX` and `EVQ` are as before the failed read, what an earlier read of the wait
fed stays, and nothing is logged. So it is too when the port action fails in a later step, in which a transmission goes
on, and when the first read of a sending command's wait fails in the step that took the command. That a write that fails
has sent a prefix, and that a read that fails has taken nothing from the RX stream, is the model's choice (log entry
18), and so is that a transmission goes on with the bytes not yet handed over (log entries 5 and 19). -/
def Obligations.FailingPortActionsFault : Prop :=
  (∀ (d : Descriptor) (s : State) (i : Instr), i = .send d ∨ i = .sendAndWaitAck d ∨ i = .poll d →
    s.arb.astate = .idle → d.payload.length ≤ 65535 →
    (∀ k ws, s.env.writes = .fail k :: ws → ∃ t, exec i s = .next t ∧
      t.arb.astate = .fault ∧ t.arb.txbuf = [] ∧ t.demux = s.demux ∧ t.env = { s.env with writes := ws } ∧
      t.ports = s.ports ∧ t.params = s.params ∧ t.arb.deadline = s.arb.deadline ∧
      t.out = { s.out with tx := s.out.tx ++ ((pack d.cls d.id d.payload).take k).map .byte
                           rsp := s.out.rsp ++ [⟨.transport, false, false, none, none, [], [], none⟩] }) ∧
    (∀ k ws, s.env.writes = .done :: .fail k :: ws → ∃ t, exec i s = .next t ∧
      t.arb.astate = .fault ∧ t.arb.txbuf = [] ∧ t.demux = s.demux ∧ t.env = { s.env with writes := ws } ∧
      t.ports = s.ports ∧ t.params = s.params ∧ t.arb.deadline = s.arb.deadline ∧
      t.out = { s.out with tx := s.out.tx ++ (pack d.cls d.id d.payload).map .byte
                           rsp := s.out.rsp ++ [⟨.transport, false, false, none, none, [], [], none⟩] })) ∧
  (∀ (d : Descriptor) (s : State) (i : Instr) (ds : List ReadDraw), i = .receivePacket d ∨ i = .receive d →
    s.arb.astate = .idle → s.demux.evq = [] → s.env.reads = .fail :: ds →
    s.readNow.2.readNow.1.toNat < s.readNow.1.toNat + d.timeout.toNat →
    ∃ t, exec i s = .next t ∧ t.arb.astate = .fault ∧ t.demux = s.demux ∧ t.env.rx = s.env.rx ∧ t.env.reads = ds ∧
      t.out = { s.out with rsp := s.out.rsp ++ [⟨.transport, false, false, none, none, [], [], none⟩] }) ∧
  (∀ (s : State) (ds : List ReadDraw), s.ports = [] → s.arb.astate = .wait → s.arb.inRead = true ∨ s.ReadsNext →
    s.env.reads = .fail :: ds →
    ∃ t, step s = .next t ∧ t.arb = { s.arb with astate := .fault, txbuf := [], txSent := 0, inRead := false } ∧
      t.demux = s.demux ∧ t.env.rx = s.env.rx ∧ t.env.reads = ds ∧ t.env.writes = s.env.writes ∧
      t.out = { s.out with rsp := s.out.rsp ++ [⟨.transport, false, false, none, none, [], [], none⟩] }) ∧
  (∀ (s : State) (n : Nat) (ds : List ReadDraw), s.ports = [] → s.ReadsNext → s.env.reads = .got n :: .fail :: ds →
    (s.demux.feed (s.env.rx.take (min n s.params.readMax)) s.atRead.readNow.1).evq = [] →
    s.atRead.readNow.2.readNow.1.toNat < s.arb.deadline →
    ∃ t, step s = .next t ∧ t.arb.astate = .fault ∧
      t.demux = s.demux.feed (s.env.rx.take (min n s.params.readMax)) s.atRead.readNow.1 ∧
      t.env.rx = s.env.rx.drop (min n s.params.readMax) ∧ t.env.reads = ds ∧
      t.out = { s.out with rsp := s.out.rsp ++ [⟨.transport, false, false, none, none, [], [], none⟩] }) ∧
  (∀ (s : State) (k : Nat) (ws : List WriteDraw), s.ports = [] → s.arb.astate = .tx →
    (s.unsent ≠ [] → s.env.writes = .fail k :: ws → step s = .next { s with
      arb := { s.arb with astate := .fault, txbuf := [], txSent := 0, inRead := false }
      env := { s.env with writes := ws }
      out := { s.out with tx := s.out.tx ++ (s.unsent.take k).map .byte
                          rsp := s.out.rsp ++ [⟨.transport, false, false, none, none, [], [], none⟩] } }) ∧
    (s.unsent ≠ [] → s.env.writes = .done :: .fail k :: ws → step s = .next { s with
      arb := { s.arb with astate := .fault, txbuf := [], txSent := 0, inRead := false }
      env := { s.env with writes := ws }
      out := { s.out with tx := s.out.tx ++ s.unsent.map .byte
                          rsp := s.out.rsp ++ [⟨.transport, false, false, none, none, [], [], none⟩] } }) ∧
    (s.unsent = [] → s.env.writes = .fail k :: ws → step s = .next { s with
      arb := { s.arb with astate := .fault, txbuf := [], txSent := 0, inRead := false }
      env := { s.env with writes := ws }
      out := { s.out with rsp := s.out.rsp ++ [⟨.transport, false, false, none, none, [], [], none⟩] } })) ∧
  (∀ (d : Descriptor) (s : State) (i : Instr) (ws : List WriteDraw) (ds : List ReadDraw),
    (i = .sendAndWaitAck d ∧ ∀ e ∈ s.demux.evq, ¬ IsEcho 1 d.cls d.id e ∧ ¬ IsEcho 0 d.cls d.id e) ∨
      (i = .poll d ∧ ∀ e ∈ s.demux.evq, ¬ IsEcho 0 d.cls d.id e ∧
        ∀ p ts raw, e ≠ .casicPacket ⟨d.cls, d.id⟩ p ts raw) →
    s.arb.astate = .idle → d.payload.length ≤ 65535 → takesFrame s.env.writes = some ws → s.env.reads = .fail :: ds →
    s.readNow.2.readNow.2.readNow.1.toNat < s.readNow.2.readNow.1.toNat + d.timeout.toNat →
    ∃ t, exec i s = .next t ∧ t.arb.astate = .fault ∧ t.demux = { s.demux with evq := [] } ∧ t.env.rx = s.env.rx ∧
      t.env.reads = ds ∧ t.env.writes = ws ∧
      t.out.tx = s.out.tx ++ (pack d.cls d.id d.payload).map .byte ++ [.flush] ∧
      t.out.rsp = s.out.rsp ++ [⟨.transport, false, false, none, none, [], [], none⟩])

/-- R227, R224 (W1 first), R225, R116: `RECEIVE_PACKET` with a queued event returns the oldest one, of any kind, in the
record R227 gives that kind, whatever the clock says, and reads no port; `len` of the record is the length of its data
(of more than 65535 bytes nothing is said: log entry 21). That an unknown run longer than the 4106 bytes R60 gives the
`rsp` payload is delivered whole is the model's choice (log entry 21). A wait of it that goes on with an event queued,
its read not outstanding, does the same; with none queued the command arms its deadline and its wait goes on from there.
-/
def Obligations.ReceivePacketReturnsTheOldestEvent : Prop :=
  (∀ (d : Descriptor) (s : State) (e : Event) (es : List Event) (r : Result), s.demux.evq = e :: es →
    r = (match e with
      | .casicPacket m p ts raw => ⟨.ok, false, true, some .packet, some m, p, raw, some ts⟩
      | .nmeaSentence bs ts => ⟨.ok, false, true, some .sentence, none, bs, [], some ts⟩
      | .unknownBytes bs ts => ⟨.ok, false, true, some .unknown, none, bs, [], some ts⟩) →
    (s.arb.astate = .idle → exec (.receivePacket d) s = .next
      (State.withRecords { s.readNow.2 with
          demux := { s.demux with evq := es }
          arb := { s.arb with
            op := 2, tmo := d.timeout, inRead := false, deadline := s.readNow.1.toNat + d.timeout.toNat,
            seenValid := s.arb.seenValid || e.isPacket }
          out := { s.out with rsp := s.out.rsp ++ [r] } }
        (popRecords s.arb.seenValid [e]))) ∧
    (s.ports = [] → s.arb.astate = .wait → s.arb.op = 2 → s.arb.inRead = false →
      step s = .next (s.waitEnds [e] es r)) ∧
    (r.data.length ≤ 65535 → (resultLen r).toNat = r.data.length)) ∧
  (∀ (d : Descriptor) (s : State), s.arb.astate = .idle → s.demux.evq = [] →
    exec (.receivePacket d) s = .next (s.armedReceive d 2).goOn)

/-- R228, R235, R376, R225: `RECEIVE` discards and logs what is no packet and returns the first packet queued. A wait of
it that goes on with a packet queued, its read not outstanding, does the same; with none queued the command arms its
deadline, what is queued is popped and logged, and its wait goes on from there. -/
def Obligations.ReceiveReturnsTheFirstPacket : Prop :=
  (∀ (d : Descriptor) (s : State) (pre es : List Event) (m : MsgId) (p : Bytes) (ts : Time) (raw : Bytes),
    (∀ e ∈ pre, e.isPacket = false) → s.demux.evq = pre ++ .casicPacket m p ts raw :: es →
    (s.arb.astate = .idle → exec (.receive d) s = .next
      (State.withRecords { s.readNow.2 with
          demux := { s.demux with evq := es }
          arb := { s.arb with
            op := 3, tmo := d.timeout, inRead := false, deadline := s.readNow.1.toNat + d.timeout.toNat,
            seenValid := true }
          out := { s.out with
            rsp := s.out.rsp ++ [⟨.ok, false, true, some .packet, some m, p, [], some ts⟩] } }
        (popRecords s.arb.seenValid (pre ++ [.casicPacket m p ts raw])))) ∧
    (s.ports = [] → s.arb.astate = .wait → s.arb.op = 3 → s.arb.inRead = false →
      step s = .next (s.waitEnds (pre ++ [.casicPacket m p ts raw]) es
        ⟨.ok, false, true, some .packet, some m, p, [], some ts⟩))) ∧
  (∀ (d : Descriptor) (s : State), (∀ e ∈ s.demux.evq, e.isPacket = false) →
    (s.arb.astate = .idle → exec (.receive d) s = .next ((s.armedReceive d 3).popAll s.demux.evq []).goOn) ∧
    (s.ports = [] → s.arb.astate = .wait → s.arb.op = 3 → s.arb.inRead = false →
      step s = .next (s.popAll s.demux.evq []).goOn))

/-- R229, R231, R234, R236: `SEND_AND_WAIT_ACK` sends, then pops events until one is an acknowledgement that echoes the
request: `S_OK` for `ACK-ACK`, `S_NAK` for `ACK-NAK`. A stale one already queued counts. A wait of it that goes on with
such an event queued, its read not outstanding, ends so too; with none queued the frame is sent, the deadline is armed
after it, what is queued is popped and logged, and the wait goes on from there. A transmission that goes on in a later
step, when the transport takes the rest of the frame, starts the wait so too (log entries 5, 18 and 19). -/
def Obligations.SendAndWaitAckIsAnswered : Prop :=
  (∀ (d : Descriptor) (s : State) (ws : List WriteDraw) (pre es : List Event) (e : Event),
    s.arb.astate = .idle → d.payload.length ≤ 65535 → takesFrame s.env.writes = some ws →
    s.demux.evq = pre ++ e :: es →
    (∀ x ∈ pre, ¬ IsEcho 1 d.cls d.id x ∧ ¬ IsEcho 0 d.cls d.id x) →
    (IsEcho 1 d.cls d.id e → exec (.sendAndWaitAck d) s = .next (s.answeredFromQueue d 4 ws
      (pre ++ [e]) es ⟨.ok, false, false, none, none, [], [], none⟩)) ∧
    (IsEcho 0 d.cls d.id e → exec (.sendAndWaitAck d) s = .next (s.answeredFromQueue d 4 ws
      (pre ++ [e]) es ⟨.nak, true, false, none, none, [], [], none⟩))) ∧
  (∀ (d : Descriptor) (s : State) (ws : List WriteDraw),
    s.arb.astate = .idle → d.payload.length ≤ 65535 → takesFrame s.env.writes = some ws →
    (∀ x ∈ s.demux.evq, ¬ IsEcho 1 d.cls d.id x ∧ ¬ IsEcho 0 d.cls d.id x) →
    exec (.sendAndWaitAck d) s = .next ((s.armedWait d 4 ws).popAll s.demux.evq []).goOn) ∧
  (∀ (s : State) (pre es : List Event) (e : Event),
    s.ports = [] → s.arb.astate = .wait → s.arb.op = 4 → s.arb.inRead = false → s.demux.evq = pre ++ e :: es →
    (∀ x ∈ pre, ¬ IsEcho 1 s.arb.pendClass s.arb.pendId x ∧ ¬ IsEcho 0 s.arb.pendClass s.arb.pendId x) →
    (IsEcho 1 s.arb.pendClass s.arb.pendId e →
      step s = .next (s.waitEnds (pre ++ [e]) es ⟨.ok, false, false, none, none, [], [], none⟩)) ∧
    (IsEcho 0 s.arb.pendClass s.arb.pendId e →
      step s = .next (s.waitEnds (pre ++ [e]) es ⟨.nak, true, false, none, none, [], [], none⟩))) ∧
  (∀ s : State, s.ports = [] → s.arb.astate = .wait → s.arb.op = 4 → s.arb.inRead = false →
    (∀ x ∈ s.demux.evq, ¬ IsEcho 1 s.arb.pendClass s.arb.pendId x ∧ ¬ IsEcho 0 s.arb.pendClass s.arb.pendId x) →
    step s = .next (s.popAll s.demux.evq []).goOn) ∧
  (∀ (s : State) (ws : List WriteDraw), s.ports = [] → s.arb.astate = .tx → s.arb.op = 4 → s.takesRest = some ws →
    step s = .next (s.resumedWait ws).goOn)

/-- R230, R231, R236, R328 item 4: `POLL` sends, then pops events until one is a NAK that echoes the request (`S_NAK`,
tested first) or a packet of the request's identifier (`S_OK` with its payload). A wait of it that goes on with such an
event queued, its read not outstanding, ends so too; with none queued the frame is sent, the deadline is armed after it,
what is queued is popped and logged, and the wait goes on from there. A transmission that goes on in a later step, when
the transport takes the rest of the frame, starts the wait so too (log entries 5, 18 and 19). -/
def Obligations.PollIsAnswered : Prop :=
  (∀ (d : Descriptor) (s : State) (ws : List WriteDraw) (pre es : List Event) (e : Event),
    s.arb.astate = .idle → d.payload.length ≤ 65535 → takesFrame s.env.writes = some ws →
    s.demux.evq = pre ++ e :: es →
    (∀ x ∈ pre, ¬ IsEcho 0 d.cls d.id x ∧ ∀ p ts raw, x ≠ .casicPacket ⟨d.cls, d.id⟩ p ts raw) →
    (IsEcho 0 d.cls d.id e → exec (.poll d) s = .next (s.answeredFromQueue d 5 ws
      (pre ++ [e]) es ⟨.nak, true, false, none, none, [], [], none⟩)) ∧
    (∀ p ts raw, e = .casicPacket ⟨d.cls, d.id⟩ p ts raw → ¬ IsEcho 0 d.cls d.id e →
      exec (.poll d) s = .next (s.answeredFromQueue d 5 ws
        (pre ++ [e]) es ⟨.ok, false, true, none, some ⟨d.cls, d.id⟩, p, [], some ts⟩))) ∧
  (∀ (d : Descriptor) (s : State) (ws : List WriteDraw),
    s.arb.astate = .idle → d.payload.length ≤ 65535 → takesFrame s.env.writes = some ws →
    (∀ x ∈ s.demux.evq, ¬ IsEcho 0 d.cls d.id x ∧ ∀ p ts raw, x ≠ .casicPacket ⟨d.cls, d.id⟩ p ts raw) →
    exec (.poll d) s = .next ((s.armedWait d 5 ws).popAll s.demux.evq []).goOn) ∧
  (∀ (s : State) (pre es : List Event) (e : Event),
    s.ports = [] → s.arb.astate = .wait → s.arb.op = 5 → s.arb.inRead = false → s.demux.evq = pre ++ e :: es →
    (∀ x ∈ pre, ¬ IsEcho 0 s.arb.pendClass s.arb.pendId x ∧
      ∀ p ts raw, x ≠ .casicPacket ⟨s.arb.pendClass, s.arb.pendId⟩ p ts raw) →
    (IsEcho 0 s.arb.pendClass s.arb.pendId e →
      step s = .next (s.waitEnds (pre ++ [e]) es ⟨.nak, true, false, none, none, [], [], none⟩)) ∧
    (∀ p ts raw, e = .casicPacket ⟨s.arb.pendClass, s.arb.pendId⟩ p ts raw →
      ¬ IsEcho 0 s.arb.pendClass s.arb.pendId e →
      step s = .next (s.waitEnds (pre ++ [e]) es
        ⟨.ok, false, true, none, some ⟨s.arb.pendClass, s.arb.pendId⟩, p, [], some ts⟩))) ∧
  (∀ s : State, s.ports = [] → s.arb.astate = .wait → s.arb.op = 5 → s.arb.inRead = false →
    (∀ x ∈ s.demux.evq, ¬ IsEcho 0 s.arb.pendClass s.arb.pendId x ∧
      ∀ p ts raw, x ≠ .casicPacket ⟨s.arb.pendClass, s.arb.pendId⟩ p ts raw) →
    step s = .next (s.popAll s.demux.evq []).goOn) ∧
  (∀ (s : State) (ws : List WriteDraw), s.ports = [] → s.arb.astate = .tx → s.arb.op = 5 → s.takesRest = some ws →
    step s = .next (s.resumedWait ws).goOn)

/-- R224 (W1 before W2 before W3), R343, R323, R331, R241: how a wait goes and ends when no answer comes. A wait of
`timeout` 0 whose queue holds no answer pops what is queued and answers `S_TIMEOUT`; the port is not read and nothing
is resent. With nothing queued, `S_TIMEOUT` is answered as soon as the clock read at W2 has reached `DEADLINE`; before
that one `PortRead` is made, what it returns is fed, stamped with the clock read after it, and the wait goes on from
there; while that read has not returned the block stays in the wait. So reads that return nothing are repeated until the
clock has reached `DEADLINE`, and then the wait ends. -/
def Obligations.WaitsEndAtTheDeadline : Prop :=
  (∀ (d : Descriptor) (s : State), s.arb.astate = .idle → d.timeout = 0 → d.payload.length ≤ 65535 →
      (∀ i, (i = .receivePacket d ∧ s.demux.evq = []) ∨
          (i = .receive d ∧ ∀ e ∈ s.demux.evq, e.isPacket = false) →
        ∃ t, exec i s = .next t ∧ t.arb.astate = .idle ∧ t.demux = { s.demux with evq := [] } ∧
          t.env.rx = s.env.rx ∧ t.env.reads = s.env.reads ∧ t.out.tx = s.out.tx ∧
          t.out.rsp = s.out.rsp ++ [⟨.timeout, false, false, none, none, [], [], none⟩]) ∧
      (∀ i ws, takesFrame s.env.writes = some ws →
          (i = .sendAndWaitAck d ∧ ∀ e ∈ s.demux.evq, ¬ IsEcho 1 d.cls d.id e ∧ ¬ IsEcho 0 d.cls d.id e) ∨
          (i = .poll d ∧ ∀ e ∈ s.demux.evq, ¬ IsEcho 0 d.cls d.id e ∧
            ∀ p ts raw, e ≠ .casicPacket ⟨d.cls, d.id⟩ p ts raw) →
        ∃ t, exec i s = .next t ∧ t.arb.astate = .idle ∧ t.demux = { s.demux with evq := [] } ∧
          t.env.rx = s.env.rx ∧ t.env.reads = s.env.reads ∧
          t.out.tx = s.out.tx ++ (pack d.cls d.id d.payload).map .byte ++ [.flush] ∧
          t.out.rsp = s.out.rsp ++ [⟨.timeout, false, false, none, none, [], [], none⟩])) ∧
  (∀ s : State, s.ports = [] → s.arb.astate = .wait → s.arb.inRead = false → s.demux.evq = [] →
    s.arb.deadline ≤ s.readNow.1.toNat →
    step s = .next { s.readNow.2 with
      arb := { s.arb with astate := .idle }
      out := { s.out with rsp := s.out.rsp ++ [⟨.timeout, false, false, none, none, [], [], none⟩] } }) ∧
  (∀ (s : State) (n : Nat) (ds : List ReadDraw), s.ports = [] → s.ReadsNext → s.env.reads = .got n :: ds →
    step s = step { s.atRead.readNow.2 with
      demux := s.demux.feed (s.env.rx.take (min n s.params.readMax)) s.atRead.readNow.1
      arb := { s.arb with inRead := false }
      env := { s.atRead.readNow.2.env with rx := s.env.rx.drop (min n s.params.readMax), reads := ds } }) ∧
  (∀ (s : State) (ds : List ReadDraw), s.ports = [] → s.ReadsNext → s.env.reads = .pause :: ds →
    step s = .next { s.atRead with
      arb := { s.arb with inRead := true }, env := { s.atRead.env with reads := ds } }) ∧
  (∀ (s : State) (k : Nat) (ds : List ReadDraw) (vs cs : List Time) (v : Time), s.ports = [] →
    s.arb.astate = .wait → s.arb.inRead = false → s.demux.evq = [] → s.demux.unk = [] →
    s.env.reads = List.replicate k (.got 0) ++ ds → s.env.clock = vs ++ v :: cs → vs.length = 2 * k →
    s.env.now.toNat < s.arb.deadline → (∀ w ∈ vs, w.toNat < s.arb.deadline) → s.arb.deadline ≤ v.toNat →
    step s = .next { s with
      arb := { s.arb with astate := .idle }
      env := { s.env with now := v, clock := cs, reads := ds }
      out := { s.out with rsp := s.out.rsp ++ [⟨.timeout, false, false, none, none, [], [], none⟩] } }) ∧
  (∀ (d : Descriptor) (s : State) (i : Instr) (k : Nat) (ds : List ReadDraw) (t0 : Time) (vs cs : List Time) (v : Time),
    i = .receivePacket d ∨ i = .receive d → s.arb.astate = .idle → s.demux.evq = [] → s.demux.unk = [] →
    s.env.reads = List.replicate k (.got 0) ++ ds → s.env.clock = t0 :: vs ++ v :: cs → vs.length = 2 * k →
    s.env.now ≤ t0 → 0 < d.timeout.toNat → (∀ w ∈ vs, w.toNat < t0.toNat + d.timeout.toNat) →
    t0.toNat + d.timeout.toNat ≤ v.toNat →
    ∃ t, exec i s = .next t ∧ t.arb.astate = .idle ∧ t.demux = s.demux ∧
      t.env = { s.env with now := v, clock := cs, reads := ds } ∧
      t.out = { s.out with rsp := s.out.rsp ++ [⟨.timeout, false, false, none, none, [], [], none⟩] })

/-- R224 (W3), R66, R227, R228: with nothing queued and the deadline not reached, a receive reads the port; a whole frame
that the read returns to an idle parser is the packet returned, stamped with the clock read after the read. -/
def Obligations.ReceiveReadsThePort : Prop :=
  ∀ (d : Descriptor) (s : State) (m : MsgId) (p more : Bytes) (n : Nat) (ds : List ReadDraw) (t0 t1 t2 : Time)
    (cs : List Time),
    s.arb.astate = .idle → s.demux.evq = [] → s.demux.pstate = .idle → s.demux.unk = [] →
    p.length ≤ 4096 → s.env.rx = pack m.cls m.id p ++ more → s.env.reads = .got n :: ds →
    min n s.params.readMax = 10 + p.length →
    s.env.clock = t0 :: t1 :: t2 :: cs → s.env.now ≤ t0 → t0 ≤ t1 → t1 ≤ t2 →
    t1.toNat < t0.toNat + d.timeout.toNat →
    (∃ t, exec (.receive d) s = .next t ∧ t.arb.astate = .idle ∧ t.env.rx = more ∧ t.env.reads = ds ∧
      t.env.clock = cs ∧ t.demux.evq = [] ∧ t.demux.pstate = .idle ∧
      t.out.rsp = s.out.rsp ++ [⟨.ok, false, true, some .packet, some m, p, [], some t2⟩]) ∧
    (∃ t, exec (.receivePacket d) s = .next t ∧ t.arb.astate = .idle ∧ t.env.rx = more ∧ t.env.reads = ds ∧
      t.env.clock = cs ∧ t.demux.evq = [] ∧ t.demux.pstate = .idle ∧
      t.out.rsp = s.out.rsp ++ [⟨.ok, false, true, some .packet, some m, p, pack m.cls m.id p, some t2⟩])

/-- R226, R229, R230, R332, R100: during a wait, an arriving acknowledgement that the next read takes whole and that
echoes the pending request ends it: `ACK-ACK` gives `S_OK` to `SEND_AND_WAIT_ACK`, `ACK-NAK` gives `S_NAK` to it and to
`POLL`; payload bytes from offset 2 on are not compared. -/
def Obligations.EchoingAckEndsTheWait : Prop :=
  ∀ (s : State) (rest : Bytes) (ck : Word32) (n : Nat) (ds : List ReadDraw),
    s.ReadsNext → s.demux.pstate = .idle → s.demux.unk = [] → s.env.rx = [] → s.env.reads = .got n :: ds →
    rest.length ≤ 4094 → 12 + rest.length ≤ min n s.params.readMax →
    (s.arb.op = 4 → ck = checksum 0x05 0x01 (s.arb.pendClass :: s.arb.pendId :: rest) →
      ∃ t, exec (.ackAck (s.arb.pendClass :: s.arb.pendId :: rest) ck) s = .next t ∧ t.arb.astate = .idle ∧
        t.demux.evq = [] ∧ t.env.rx = [] ∧ t.env.reads = ds ∧ t.out.tx = s.out.tx ∧
        t.out.rsp = s.out.rsp ++ [⟨.ok, false, false, none, none, [], [], none⟩]) ∧
    (s.arb.op = 4 ∨ s.arb.op = 5 → ck = checksum 0x05 0x00 (s.arb.pendClass :: s.arb.pendId :: rest) →
      ∃ t, exec (.ackNak (s.arb.pendClass :: s.arb.pendId :: rest) ck) s = .next t ∧ t.arb.astate = .idle ∧
        t.demux.evq = [] ∧ t.env.rx = [] ∧ t.env.reads = ds ∧ t.out.tx = s.out.tx ∧
        t.out.rsp = s.out.rsp ++ [⟨.nak, true, false, none, none, [], [], none⟩])

/-- R234, R226, R120: an acknowledgement that arrives and is read whole during a `SEND_AND_WAIT_ACK` or a `POLL` without
echoing the request (a payload shorter than two bytes never does; for a poll, one that is not of the polled identifier
either) is popped, logged and discarded: the wait goes on as it would have without it, whatever the clock and the
environment do then, and `DEADLINE` stays. While the clock is below `DEADLINE` and the next read has not returned, the
block is still in that wait. -/
def Obligations.ForeignAckIsDiscarded : Prop :=
  ∀ (s : State) (m : MsgId) (p : Bytes) (ck : Word32) (i : Instr) (n : Nat) (ds : List ReadDraw),
    s.ReadsNext → s.demux.pstate = .idle → s.demux.unk = [] → s.env.rx = [] → s.env.reads = .got n :: ds →
    p.length ≤ 4096 → 10 + p.length ≤ min n s.params.readMax → p.take 2 ≠ [s.arb.pendClass, s.arb.pendId] →
    (i = .ackAck p ck ∧ m = ⟨0x05, 0x01⟩) ∨ (i = .ackNak p ck ∧ m = ⟨0x05, 0x00⟩) → ck = checksum m.cls m.id p →
    s.arb.op = 4 ∨ (s.arb.op = 5 ∧ m ≠ ⟨s.arb.pendClass, s.arb.pendId⟩) →
    (∃ u : State, exec i s = .next u.goOn ∧ u.arb = { s.arb with inRead := false, seenValid := true } ∧
      u.demux.evq = [] ∧ u.demux.pstate = .idle ∧ u.demux.acc = [] ∧ u.demux.unk = [] ∧
      u.env = { s.atRead.readNow.2.env with rx := [], reads := ds } ∧ u.params = s.params ∧ u.ports = s.ports ∧
      u.out = (s.withRecords (popRecords s.arb.seenValid
        [.casicPacket m p s.atRead.readNow.1 (frameBytes m p ck)])).out) ∧
    (∀ ds', ds = .pause :: ds' → s.atRead.readNow.2.readNow.1.toNat < s.arb.deadline →
      ∃ t, exec i s = .next t ∧ t.arb.astate = .wait ∧ t.arb.deadline = s.arb.deadline ∧ t.arb.op = s.arb.op ∧
        t.demux.evq = [] ∧ t.demux.pstate = .idle ∧ t.out.rsp = s.out.rsp ∧ t.env.rx = [])

/-- R230, R118: during a `POLL`, an arriving frame of the polled identifier that the next read takes whole and that is
no echoing NAK ends the wait with its payload, which may be empty, stamped with the clock read after that read. -/
def Obligations.ReplyEndsThePoll : Prop :=
  ∀ (s : State) (i : Instr) (m : MsgId) (p : Bytes) (ck : Word32) (n : Nat) (ds : List ReadDraw),
    s.ReadsNext → s.arb.op = 5 → s.demux.pstate = .idle → s.demux.unk = [] → s.env.rx = [] →
    s.env.reads = .got n :: ds → frameParts i = some (m, p, ck) → m = ⟨s.arb.pendClass, s.arb.pendId⟩ →
    p.length ≤ 4096 → 10 + p.length ≤ min n s.params.readMax → ck = checksum m.cls m.id p →
    ¬ (m = .ackNak ∧ p.take 2 = [0x05, 0x00]) →
    ∃ t, exec i s = .next t ∧ t.arb.astate = .idle ∧ t.demux.evq = [] ∧ t.env.rx = [] ∧
      t.env.reads = ds ∧ t.out.tx = s.out.tx ∧
      t.out.rsp = s.out.rsp ++ [⟨.ok, false, true, none, some m, p, [], some s.atRead.readNow.1⟩]

/-- R336, R221, R115: a command in `A_FAULT`, and a reserved `op` in `A_IDLE` too, is refused: the result is delivered
and no state element, port or clock changes. -/
def Obligations.RefusedCommandChangesNothing : Prop :=
  ∀ (i : Instr) (s : State),
    (formatOf i = .cmd ∧ s.arb.astate = .fault) ∨
      ((∃ d, i = .reservedOp0 d ∨ i = .reservedOp6 d ∨ i = .reservedOp7 d) ∧ s.arb.astate = .idle) →
    exec i s = .next { s with out := { s.out with
      rsp := s.out.rsp ++ [⟨.refused, false, false, none, none, [], [], none⟩] } }

/-- R221, U8: a command presented in `A_TX` or `A_WAIT` is not taken: what is in progress goes on exactly as without it,
and it waits, before every command presented after it. What stands at the other ports keeps its order, and the first of
it passes the held commands and is taken next (log entry 8), `rst` among it (R328). -/
def Obligations.CommandIsHeldWhileBusy : Prop :=
  ∀ (i : Instr) (s : State), formatOf i = .cmd → s.arb.astate = .tx ∨ s.arb.astate = .wait →
    ∃ qs : List PortInput, exec i s = .next { s.goOn with ports := qs } ∧
      qs.filter PortInput.isCmd = .xact .cmd (encode i) :: s.ports.filter PortInput.isCmd ∧
      qs.filter (fun x => !x.isCmd) = s.ports.filter (fun x => !x.isCmd) ∧
      (∀ x, s.ports.find? (fun y => !y.isCmd) = some x → qs.head? = some x)

/-! ### The machine -/

/-- The machine after reset meets the invariant. -/
def Obligations.ResetMeetsTheInvariant : Prop := State.reset.Inv

/-- R30, R44, R47, R48: every step keeps the invariant, from every state that has it. -/
def Obligations.StepKeepsTheInvariant : Prop :=
  ∀ s t : State, s.Inv → Steps s t → t.Inv

/-- R361, R53, R22, R40: what the spec says the state is after reset, and that the block then does nothing of its own
accord. -/
def Obligations.ResetState : Prop :=
  State.reset.demux.pstate = .idle ∧ State.reset.demux.acc = [] ∧ State.reset.demux.unk = [] ∧
  State.reset.demux.evq = [] ∧ State.reset.arb.astate = .idle ∧ State.reset.arb.seenValid = false ∧
  State.reset.arb.txbuf = [] ∧ State.reset.out = ⟨[], [], [], [], []⟩ ∧ step State.reset = .next State.reset

/-- R360, R361, R362, R337, R328 item 6: `rst` takes the parser and the arbiter to their reset values whatever the block
was doing, ends a command in progress without a result, and touches neither the parameters, nor the clock and the
transport, nor what the output ports have delivered. However many commands wait before it while one is in progress, it
is taken in the step after the first of them is found to wait, and they wait on (log entry 8). -/
def Obligations.ResetOverridesEverything : Prop :=
  (∀ (s : State) (ps : List PortInput), s.ports = .rst :: ps →
    step s = .next { s with demux := State.reset.demux, arb := State.reset.arb, ports := ps }) ∧
  (∀ (s : State) (i : Instr) (b : Bytes) (cs ps : List PortInput), s.arb.astate = .tx ∨ s.arb.astate = .wait →
    decode .cmd b = .ok i → (∀ c ∈ cs, c.isCmd = true) → s.ports = .xact .cmd b :: (cs ++ .rst :: ps) →
    ∃ t : State, step s = .next t ∧ t = { s.goOn with ports := .rst :: .xact .cmd b :: (cs ++ ps) } ∧
      step t = .next { t with
        demux := State.reset.demux, arb := State.reset.arb, ports := .xact .cmd b :: (cs ++ ps) })

/-- R237, R333, R337, R338, R48: `A_FAULT` is left by `rst` alone; in it no step sends, reads the port or runs a
command. What the transport holds only grows, by the frames that arrive (log entry 6). -/
def Obligations.FaultIsSticky : Prop :=
  ∀ s t : State, s.arb.astate = .fault → (∀ ps, s.ports ≠ .rst :: ps) → Steps s t →
    t.arb = s.arb ∧ t.out.tx = s.out.tx ∧ t.env.rx = s.env.rx ++ arrivingBytes s.ports ∧
    t.env.reads = s.env.reads ∧ t.env.writes = s.env.writes ∧ t.out.log = s.out.log

/-- R237, R333: the block enters `A_FAULT` only with the result `S_TRANSPORT`, and delivers that result only there. -/
def Obligations.OnlyTransportErrorsFault : Prop :=
  ∀ s t : State, s.arb.astate ≠ .fault → Steps s t →
    (t.arb.astate = .fault ↔ t.out.rsp = s.out.rsp ++ [⟨.transport, false, false, none, none, [], [], none⟩])

/-- R48, R221, R329: a step delivers one result at most, and none while a command stays in progress; a command delivers
one when it ends, in the step that took it (from `A_IDLE`) or in a later one (from `A_TX` or `A_WAIT`). -/
def Obligations.OneResultAtMost : Prop :=
  (∀ s t : State, Steps s t →
    (t.out.rsp = s.out.rsp ∨ ∃ r, t.out.rsp = s.out.rsp ++ [r]) ∧
    (t.arb.astate = .tx ∨ t.arb.astate = .wait → t.out.rsp = s.out.rsp) ∧
    (s.arb.astate = .tx ∨ s.arb.astate = .wait → (∀ ps, s.ports ≠ .rst :: ps) →
      t.arb.astate = .idle ∨ t.arb.astate = .fault → ∃ r, t.out.rsp = s.out.rsp ++ [r])) ∧
  (∀ (i : Instr) (s t : State), s.arb.astate = .idle → formatOf i = .cmd → exec i s = .next t →
    t.arb.astate = .idle ∨ t.arb.astate = .fault → ∃ r, t.out.rsp = s.out.rsp ++ [r])

/-- R382, R343: `S_TIMEOUT` is never reported before `DEADLINE`. -/
def Obligations.NoTimeoutBeforeTheDeadline : Prop :=
  ∀ (s t : State) (r : Result), Steps s t → t.out.rsp = s.out.rsp ++ [r] → r.status = .timeout →
    t.arb.deadline ≤ t.env.now.toNat

/-- R48, R234, R43: during a wait no step but `rst` changes `DEADLINE`, `OP`, `PEND_CLASS` or `PEND_ID`. -/
def Obligations.WaitKeepsItsDeadline : Prop :=
  ∀ s t : State, s.arb.astate = .wait → (∀ ps, s.ports ≠ .rst :: ps) → Steps s t →
    t.arb.deadline = s.arb.deadline ∧ t.arb.op = s.arb.op ∧ t.arb.pendClass = s.arb.pendClass ∧
    t.arb.pendId = s.arb.pendId

/-- R232, R64, R223: a sending command taken in `A_IDLE` sends its own frame from its first byte: the whole of it and one
flush marker, or, where a port action has failed or not returned, a first part of it, what is left being what is still
to be sent. An instruction that is no sending command sends nothing. In `A_TX` a step sends from what is left in the
same way. So however many steps it takes no byte is sent twice, one flush marker at most follows the whole frame, and
the one sent record (where the sink is present) is logged in the step that ends the transmission. In `A_WAIT` and
`A_FAULT` no step sends. That a `PortWrite` that has failed or not returned has handed over a first part, that a
`PortFlush` that has failed or not returned has sent no marker, and that a later step sends what is left are the model's
choices (log entries 18, 5 and 19). -/
def Obligations.NothingIsSentTwice : Prop :=
  (∀ (i : Instr) (s t : State), s.arb.astate = .idle → exec i s = .next t →
    (∀ d, i = .send d ∨ i = .sendAndWaitAck d ∨ i = .poll d →
      s.SendsRest t (pack d.cls d.id d.payload) (pack d.cls d.id d.payload)) ∧
    ((∀ d, i ≠ .send d ∧ i ≠ .sendAndWaitAck d ∧ i ≠ .poll d) → t.out.tx = s.out.tx)) ∧
  (∀ s t : State, s.Inv → s.arb.astate = .tx → (∀ ps, s.ports ≠ .rst :: ps) → Steps s t →
    s.SendsRest t s.arb.txbuf s.unsent) ∧
  (∀ s t : State, s.arb.astate = .wait ∨ s.arb.astate = .fault → Steps s t → t.out.tx = s.out.tx)

/-- R77, R348, R223: a sending command logs nothing while its transmission goes on, whether in the step that takes it or
in a later one; when the frame is out, its record comes first, and everything logged after that is about popped
events. -/
def Obligations.SentIsLoggedFirst : Prop :=
  (∀ (d : Descriptor) (s t : State) (i : Instr), i = .send d ∨ i = .sendAndWaitAck d ∨ i = .poll d →
    s.arb.astate = .idle → exec i s = .next t →
    (t.arb.astate = .tx → t.out.log = s.out.log) ∧
    ∀ ws, s.params.logSink = true → takesFrame s.env.writes = some ws →
      ∃ recs : List LogRecord, t.out.log = s.out.log ++
          (LogRecord.sent ⟨d.cls, d.id⟩ (pack d.cls d.id d.payload) s.readNow.1 :: recs).map LogRecord.entry ∧
        ∀ r ∈ recs, r.isSent = false) ∧
  (∀ s t : State, s.arb.astate = .tx → (∀ ps, s.ports ≠ .rst :: ps) → Steps s t →
    (t.arb.astate = .tx → t.out.log = s.out.log) ∧
    (s.params.logSink = true → t.arb.astate = .idle ∨ t.arb.astate = .wait →
      ∃ recs : List LogRecord, t.out.log = s.out.log ++
          (LogRecord.sent ⟨byteAt s.arb.txbuf 4, byteAt s.arb.txbuf 5⟩ s.arb.txbuf s.readNow.1 :: recs).map
            LogRecord.entry ∧
        ∀ r ∈ recs, r.isSent = false))

/-- R45, R225, R240: a step records the first valid packet at most once, at severity `INFO`, and never once `SEEN_VALID`
is set. A step that records it leaves `SEEN_VALID` set, and one that sets `SEEN_VALID` records it (where the sink is
present); only `rst` clears `SEEN_VALID`. So one session has one such record at most. -/
def Obligations.FirstValidIsRecordedOnce : Prop :=
  ∀ s t : State, (∀ ps, s.ports ≠ .rst :: ps) → Steps s t →
    (s.arb.seenValid = true → t.arb.seenValid = true) ∧
    ∃ recs : List LogRecord, t.out.log = s.out.log ++ recs.map LogRecord.entry ∧
      recs.countP LogRecord.isFirstValid ≤ 1 ∧
      (s.arb.seenValid = true → ∀ m, .firstValid m ∉ recs) ∧
      ((∃ m, .firstValid m ∈ recs) → t.arb.seenValid = true) ∧
      (s.params.logSink = true → s.arb.seenValid = false → t.arb.seenValid = true → ∃ m, .firstValid m ∈ recs) ∧
      ∀ e ∈ recs.map LogRecord.entry, e.record.isFirstValid = true → e.severity = .info

/-- R50, R46, R63, R66, R76, R113, R347: no step changes a parameter; the clock never goes back; the RX stream, with the
frame that arrives in the step behind it, and the environment's answers are consumed in order; what an output port
has delivered stays, in order; and the packet log gets exactly the packet-log records of what is logged. Such a record
has a sent frame's or a popped event's time, tag, name, bytes and direction: `CSIP` and the name R99 gives the identifier
for a frame, `NMEA` and the name of a key of class `0x4E` for a sentence; unknown bytes have none (which names the
registry holds beyond R99's, and which key is a sentence's, is free: log entry 23). That the one-time record has none,
and so reaches the log sink alone, is the model's reading (log entry 12). -/
def Obligations.StepsAppendAndConsumeInOrder : Prop :=
  (∀ s t : State, Steps s t →
    t.params = s.params ∧ s.env.now ≤ t.env.now ∧
    t.env.rx <:+ s.env.rx ++ arrivingBytes s.ports ∧ t.env.reads <:+ s.env.reads ∧ t.env.writes <:+ s.env.writes ∧
    t.env.clock <:+ s.env.clock ∧ t.env.stamps <:+ s.env.stamps ∧
    s.out.rsp <+: t.out.rsp ∧ s.out.tx <+: t.out.tx ∧ s.out.test <+: t.out.test ∧
    ∃ recs : List LogRecord,
      t.out.log = s.out.log ++ (if s.params.logSink then recs.map LogRecord.entry else []) ∧
      t.out.pktLog = s.out.pktLog ++ (if s.params.pktLogSink then recs.filterMap packetRecord else [])) ∧
  (∀ (m : MsgId) (p bs : Bytes) (ts : Time),
    packetRecord (.sent m bs ts) = some ⟨ts, .csip, messageName m, bs, .sent⟩ ∧
    packetRecord (.received (.casicPacket m p ts bs)) = some ⟨ts, .csip, messageName m, bs, .received⟩ ∧
    (∃ n, packetRecord (.received (.nmeaSentence bs ts)) = some ⟨ts, .nmea, messageName ⟨0x4E, n⟩, bs, .received⟩) ∧
    packetRecord (.received (.unknownBytes bs ts)) = none ∧ packetRecord (.firstValid m) = none) ∧
  messageName ⟨0x05, 0x00⟩ = some "ACK-NAK" ∧ messageName ⟨0x05, 0x01⟩ = some "ACK-ACK" ∧
  messageName ⟨0x0A, 0x04⟩ = some "MON-VER" ∧ messageName ⟨0x06, 0x00⟩ = some "CFG-PRT" ∧
  messageName ⟨0x06, 0x01⟩ = some "CFG-MSG" ∧ messageName ⟨0x06, 0x02⟩ = some "CFG-RST" ∧
  messageName ⟨0x06, 0x03⟩ = some "CFG-TP" ∧ messageName ⟨0x06, 0x04⟩ = some "CFG-RATE" ∧
  messageName ⟨0x06, 0x05⟩ = some "CFG-CFG" ∧ messageName ⟨0x06, 0x06⟩ = some "CFG-TMODE" ∧
  messageName ⟨0x06, 0x07⟩ = some "CFG-NAVX"

/-- R346, R244, U10, U18, D17, D30: of the open parameters only `READ_MAX` enters a result: with any `POLL_SLICE`,
`TICK`, `T_INITIAL` and `T_SUBSEQUENT`, and with either log sink present or absent, a step does the same to everything
but the two logs. -/
def Obligations.OnlyReadMaxEntersResults : Prop :=
  ∀ (s t : State) (q : Config.Params), q.readMax = s.params.readMax → Steps s t →
    ∃ t' : State, Steps { s with params := q } t' ∧
      t'.demux = t.demux ∧ t'.arb = t.arb ∧ t'.env = t.env ∧ t'.ports = t.ports ∧ t'.out.rsp = t.out.rsp ∧
      t'.out.tx = t.out.tx ∧ t'.out.test = t.out.test

/-- R53, R23, R24, R41, R43, U2: no element whose reset value is unspecified is read before it is written: a step does
the same from any two states that differ only in elements to be written before they are read. Nothing rests on the
values log entry 2 gives such elements. -/
def Obligations.UnspecifiedElementsAreWrittenBeforeRead : Prop :=
  ∀ s s' t : State, s.SameLive s' → Steps s t → ∃ t' : State, Steps s' t' ∧ t.SameLive t'
end

