-- ==== Sys2Proof/Laws/State.lean ====
section
/-! SUPPORT. One lemma per field per named update of the state and of the parser, so that no later proof unfolds a
record update. -/

namespace Sys2Proof.Machine

section
variable (s : State) (r : Result) (a : TestAnswer) (lr : LogRecord) (bs : Bytes) (e : Event) (d : Demux)
  (op : BitVec 3) (q : Descriptor) (rs : List LogRecord)

@[simp] theorem State.respond_params : (s.respond r).params = s.params := rfl
@[simp] theorem State.respond_demux : (s.respond r).demux = s.demux := rfl
@[simp] theorem State.respond_arb : (s.respond r).arb = s.arb := rfl
@[simp] theorem State.respond_env : (s.respond r).env = s.env := rfl
@[simp] theorem State.respond_out : (s.respond r).out = { s.out with rsp := s.out.rsp ++ [r] } := rfl
@[simp] theorem State.respond_ports : (s.respond r).ports = s.ports := rfl

@[simp] theorem State.answerTest_params : (s.answerTest a).params = s.params := rfl
@[simp] theorem State.answerTest_demux : (s.answerTest a).demux = s.demux := rfl
@[simp] theorem State.answerTest_arb : (s.answerTest a).arb = s.arb := rfl
@[simp] theorem State.answerTest_env : (s.answerTest a).env = s.env := rfl
@[simp] theorem State.answerTest_out : (s.answerTest a).out = { s.out with test := s.out.test ++ [a] } := rfl
@[simp] theorem State.answerTest_ports : (s.answerTest a).ports = s.ports := rfl

@[simp] theorem State.finish_params : (s.finish r).params = s.params := rfl
@[simp] theorem State.finish_demux : (s.finish r).demux = s.demux := rfl
@[simp] theorem State.finish_arb : (s.finish r).arb = { s.arb with astate := .idle } := rfl
@[simp] theorem State.finish_env : (s.finish r).env = s.env := rfl
@[simp] theorem State.finish_out : (s.finish r).out = { s.out with rsp := s.out.rsp ++ [r] } := rfl
@[simp] theorem State.finish_ports : (s.finish r).ports = s.ports := rfl

@[simp] theorem State.transportError_params : (s.transportError).params = s.params := rfl
@[simp] theorem State.transportError_demux : (s.transportError).demux = s.demux := rfl
@[simp] theorem State.transportError_arb : (s.transportError).arb = { s.arb with astate := .fault, txbuf := [], txSent := 0, inRead := false } := rfl
@[simp] theorem State.transportError_env : (s.transportError).env = s.env := rfl
@[simp] theorem State.transportError_out : (s.transportError).out = { s.out with rsp := s.out.rsp ++ [transportResult] } := rfl
@[simp] theorem State.transportError_ports : (s.transportError).ports = s.ports := rfl

@[simp] theorem State.returnByReset_params : (s.returnByReset).params = s.params := rfl
@[simp] theorem State.returnByReset_demux : (s.returnByReset).demux = .fresh := rfl
@[simp] theorem State.returnByReset_arb : (s.returnByReset).arb = .fresh := rfl
@[simp] theorem State.returnByReset_env : (s.returnByReset).env = s.env := rfl
@[simp] theorem State.returnByReset_out : (s.returnByReset).out = s.out := rfl
@[simp] theorem State.returnByReset_ports : (s.returnByReset).ports = s.ports := rfl

@[simp] theorem State.handOver_params : (s.handOver bs).params = s.params := rfl
@[simp] theorem State.handOver_demux : (s.handOver bs).demux = s.demux := rfl
@[simp] theorem State.handOver_arb : (s.handOver bs).arb = { s.arb with txSent := s.arb.txSent + bs.length } := rfl
@[simp] theorem State.handOver_env : (s.handOver bs).env = s.env := rfl
@[simp] theorem State.handOver_out : (s.handOver bs).out = { s.out with tx := s.out.tx ++ bs.map .byte } := rfl
@[simp] theorem State.handOver_ports : (s.handOver bs).ports = s.ports := rfl

@[simp] theorem State.arrive_params : (s.arrive bs).params = s.params := rfl
@[simp] theorem State.arrive_demux : (s.arrive bs).demux = s.demux := rfl
@[simp] theorem State.arrive_arb : (s.arrive bs).arb = s.arb := rfl
@[simp] theorem State.arrive_env : (s.arrive bs).env = { s.env with rx := s.env.rx ++ bs } := rfl
@[simp] theorem State.arrive_out : (s.arrive bs).out = s.out := rfl
@[simp] theorem State.arrive_ports : (s.arrive bs).ports = s.ports := rfl

@[simp] theorem State.takeOp_params : (s.takeOp op q).params = s.params := rfl
@[simp] theorem State.takeOp_demux : (s.takeOp op q).demux = s.demux := rfl
@[simp] theorem State.takeOp_arb : (s.takeOp op q).arb = { s.arb with op := op, tmo := q.timeout } := rfl
@[simp] theorem State.takeOp_env : (s.takeOp op q).env = s.env := rfl
@[simp] theorem State.takeOp_out : (s.takeOp op q).out = s.out := rfl
@[simp] theorem State.takeOp_ports : (s.takeOp op q).ports = s.ports := rfl

@[simp] theorem State.setPending_params : (s.setPending q).params = s.params := rfl
@[simp] theorem State.setPending_demux : (s.setPending q).demux = s.demux := rfl
@[simp] theorem State.setPending_arb : (s.setPending q).arb = { s.arb with pendClass := q.cls, pendId := q.id } := rfl
@[simp] theorem State.setPending_env : (s.setPending q).env = s.env := rfl
@[simp] theorem State.setPending_out : (s.setPending q).out = s.out := rfl
@[simp] theorem State.setPending_ports : (s.setPending q).ports = s.ports := rfl

@[simp] theorem State.logRec_params : (s.logRec lr).params = s.params := rfl
@[simp] theorem State.logRec_demux : (s.logRec lr).demux = s.demux := rfl
@[simp] theorem State.logRec_arb : (s.logRec lr).arb = s.arb := rfl
@[simp] theorem State.logRec_env : (s.logRec lr).env = s.env := rfl
@[simp] theorem State.logRec_out : (s.logRec lr).out = { s.out with log := if s.params.logSink then s.out.log ++ [lr.entry] else s.out.log, pktLog := if s.params.pktLogSink then s.out.pktLog ++ (packetRecord lr).toList else s.out.pktLog } := rfl
@[simp] theorem State.logRec_ports : (s.logRec lr).ports = s.ports := rfl

@[simp] theorem LogRecord.entry_record : lr.entry.record = lr := rfl
@[simp] theorem LogRecord.entry_severity : lr.entry.severity = lr.severity := rfl
@[simp] theorem LogRecord.map_entry_record : (rs.map LogRecord.entry).map LogEntry.record = rs := by
  simp [Function.comp_def]

@[simp] theorem State.withRecords_params : (s.withRecords rs).params = s.params := rfl
@[simp] theorem State.withRecords_demux : (s.withRecords rs).demux = s.demux := rfl
@[simp] theorem State.withRecords_arb : (s.withRecords rs).arb = s.arb := rfl
@[simp] theorem State.withRecords_env : (s.withRecords rs).env = s.env := rfl
@[simp] theorem State.withRecords_out : (s.withRecords rs).out = { s.out with log := if s.params.logSink then s.out.log ++ rs.map LogRecord.entry else s.out.log, pktLog := if s.params.pktLogSink then s.out.pktLog ++ rs.filterMap packetRecord else s.out.pktLog } := rfl
@[simp] theorem State.withRecords_ports : (s.withRecords rs).ports = s.ports := rfl

end

section
variable (d : Demux) (e : Event) (b : Byte) (ts : Time) (p : PState)

@[simp] theorem Demux.emit_pstate : (d.emit e).pstate = d.pstate := rfl
@[simp] theorem Demux.emit_lenLo : (d.emit e).lenLo = d.lenLo := rfl
@[simp] theorem Demux.emit_remaining : (d.emit e).remaining = d.remaining := rfl
@[simp] theorem Demux.emit_acc : (d.emit e).acc = d.acc := rfl
@[simp] theorem Demux.emit_accTs : (d.emit e).accTs = d.accTs := rfl
@[simp] theorem Demux.emit_unk : (d.emit e).unk = d.unk := rfl
@[simp] theorem Demux.emit_unkTs : (d.emit e).unkTs = d.unkTs := rfl
@[simp] theorem Demux.emit_evq : (d.emit e).evq = d.evq ++ [e] := rfl

@[simp] theorem Demux.append_pstate : (d.append b).pstate = d.pstate := rfl
@[simp] theorem Demux.append_lenLo : (d.append b).lenLo = d.lenLo := rfl
@[simp] theorem Demux.append_remaining : (d.append b).remaining = d.remaining := rfl
@[simp] theorem Demux.append_acc : (d.append b).acc = d.acc ++ [b] := rfl
@[simp] theorem Demux.append_accTs : (d.append b).accTs = d.accTs := rfl
@[simp] theorem Demux.append_unk : (d.append b).unk = d.unk := rfl
@[simp] theorem Demux.append_unkTs : (d.append b).unkTs = d.unkTs := rfl
@[simp] theorem Demux.append_evq : (d.append b).evq = d.evq := rfl

@[simp] theorem Demux.close_pstate : (d.close).pstate = .idle := rfl
@[simp] theorem Demux.close_lenLo : (d.close).lenLo = d.lenLo := rfl
@[simp] theorem Demux.close_remaining : (d.close).remaining = d.remaining := rfl
@[simp] theorem Demux.close_acc : (d.close).acc = [] := rfl
@[simp] theorem Demux.close_accTs : (d.close).accTs = d.accTs := rfl
@[simp] theorem Demux.close_unk : (d.close).unk = d.unk := rfl
@[simp] theorem Demux.close_unkTs : (d.close).unkTs = d.unkTs := rfl
@[simp] theorem Demux.close_evq : (d.close).evq = d.evq := rfl

@[simp] theorem Demux.abandon_pstate : (d.abandon).pstate = .idle := rfl
@[simp] theorem Demux.abandon_lenLo : (d.abandon).lenLo = d.lenLo := rfl
@[simp] theorem Demux.abandon_remaining : (d.abandon).remaining = d.remaining := rfl
@[simp] theorem Demux.abandon_acc : (d.abandon).acc = [] := rfl
@[simp] theorem Demux.abandon_accTs : (d.abandon).accTs = d.accTs := rfl
@[simp] theorem Demux.abandon_unk : (d.abandon).unk = d.unk := rfl
@[simp] theorem Demux.abandon_unkTs : (d.abandon).unkTs = d.unkTs := rfl
@[simp] theorem Demux.abandon_evq : (d.abandon).evq = d.evq ++ [.unknownBytes d.acc d.accTs] := rfl

@[simp] theorem Demux.demote_pstate : (d.demote).pstate = .idle := rfl
@[simp] theorem Demux.demote_lenLo : (d.demote).lenLo = d.lenLo := rfl
@[simp] theorem Demux.demote_remaining : (d.demote).remaining = d.remaining := rfl
@[simp] theorem Demux.demote_acc : (d.demote).acc = [] := rfl
@[simp] theorem Demux.demote_accTs : (d.demote).accTs = d.accTs := rfl
@[simp] theorem Demux.demote_unk : (d.demote).unk = d.unk ++ d.acc := rfl
@[simp] theorem Demux.demote_unkTs : (d.demote).unkTs = if d.unk = [] then d.accTs else d.unkTs := rfl
@[simp] theorem Demux.demote_evq : (d.demote).evq = d.evq := rfl

@[simp] theorem Demux.addUnknown_pstate : (d.addUnknown b ts).pstate = d.pstate := rfl
@[simp] theorem Demux.addUnknown_lenLo : (d.addUnknown b ts).lenLo = d.lenLo := rfl
@[simp] theorem Demux.addUnknown_remaining : (d.addUnknown b ts).remaining = d.remaining := rfl
@[simp] theorem Demux.addUnknown_acc : (d.addUnknown b ts).acc = d.acc := rfl
@[simp] theorem Demux.addUnknown_accTs : (d.addUnknown b ts).accTs = d.accTs := rfl
@[simp] theorem Demux.addUnknown_unk : (d.addUnknown b ts).unk = d.unk ++ [b] := rfl
@[simp] theorem Demux.addUnknown_unkTs : (d.addUnknown b ts).unkTs = if d.unk = [] then ts else d.unkTs := rfl
@[simp] theorem Demux.addUnknown_evq : (d.addUnknown b ts).evq = d.evq := rfl

end

end Sys2Proof.Machine
end

