-- ==== Sys2Proof/Laws/Operands.lean ====
section
/-! SUPPORT. What the operand assembly does: the byte orders are inverse to each other, and indexed reads see through
concatenation. -/

namespace Sys2Proof.Machine

@[simp] theorem zeros_length (n : Nat) : (zeros n).length = n := by simp [zeros]
@[simp] theorem bytesLe16_length (v : Nat) : (bytesLe16 v).length = 2 := rfl
@[simp] theorem bytesLe32_length (v : Nat) : (bytesLe32 v).length = 4 := rfl
@[simp] theorem bytesLe64_length (v : Nat) : (bytesLe64 v).length = 8 := rfl

theorem le16_byteOf (v : Nat) (h : v < 65536) : le16 (byteOf v 0) (byteOf v 1) = v := by
  simp only [le16, byteOf, BitVec.toNat_ofNat]; omega

theorem le32_byteOf (v : Nat) (h : v < 2 ^ 32) :
    le32 (byteOf v 0) (byteOf v 1) (byteOf v 2) (byteOf v 3) = v := by
  simp only [le32, byteOf, BitVec.toNat_ofNat]; omega

theorem le16_lt (a b : Byte) : le16 a b < 65536 := by
  simp only [le16]; have := a.isLt; have := b.isLt; omega

theorem le32_lt (a b c d : Byte) : le32 a b c d < 2 ^ 32 := by
  simp only [le32]; have := a.isLt; have := b.isLt; have := c.isLt; have := d.isLt; omega

theorem memRead16_lt (buf : Bytes) (off : Nat) : memRead16 buf off < 65536 := le16_lt _ _
theorem memRead32_lt (buf : Bytes) (off : Nat) : memRead32 buf off < 2 ^ 32 := le32_lt _ _ _ _

theorem bytesLe16_le16 (a b : Byte) : bytesLe16 (le16 a b) = [a, b] := by
  have := a.isLt; have := b.isLt
  simp only [bytesLe16, le16, byteOf, List.cons.injEq, and_true]
  constructor <;> apply BitVec.eq_of_toNat_eq <;> simp only [BitVec.toNat_ofNat] <;> omega

theorem bytesLe32_le32 (a b c d : Byte) : bytesLe32 (le32 a b c d) = [a, b, c, d] := by
  have := a.isLt; have := b.isLt; have := c.isLt; have := d.isLt
  simp only [bytesLe32, le32, byteOf, List.cons.injEq, and_true]
  refine ⟨?_, ?_, ?_, ?_⟩ <;> apply BitVec.eq_of_toNat_eq <;> simp only [BitVec.toNat_ofNat] <;> omega

@[simp] theorem byteAt_cons_zero (a : Byte) (l : Bytes) : byteAt (a :: l) 0 = a := rfl
@[simp] theorem byteAt_cons_succ (a : Byte) (l : Bytes) (n : Nat) : byteAt (a :: l) (n + 1) = byteAt l n := rfl

theorem byteAt_append_left (s t : Bytes) (i : Nat) (h : i < s.length) : byteAt (s ++ t) i = byteAt s i := by
  simp [byteAt, List.getD_eq_getElem?_getD, List.getElem?_append_left h]

theorem byteAt_append_right (s t : Bytes) (k : Nat) : byteAt (s ++ t) (s.length + k) = byteAt t k := by
  simp [byteAt, List.getD_eq_getElem?_getD, List.getElem?_append_right]

theorem memRead16_append_left (s t : Bytes) (i : Nat) (h : i + 1 < s.length) :
    memRead16 (s ++ t) i = memRead16 s i := by
  simp only [memRead16]
  rw [byteAt_append_left _ _ _ (by omega), byteAt_append_left _ _ _ (by omega)]

theorem memRead32_append_left (s t : Bytes) (i : Nat) (h : i + 3 < s.length) :
    memRead32 (s ++ t) i = memRead32 s i := by
  simp only [memRead32]
  rw [byteAt_append_left _ _ _ (by omega), byteAt_append_left _ _ _ (by omega),
    byteAt_append_left _ _ _ (by omega), byteAt_append_left _ _ _ (by omega)]

theorem memRead32_append_right (s t : Bytes) (k : Nat) : memRead32 (s ++ t) (s.length + k) = memRead32 t k := by
  simp only [memRead32, Nat.add_assoc, byteAt_append_right]

theorem memRead32_bytesLe32 (v : Nat) (h : v < 2 ^ 32) (t : Bytes) : memRead32 (bytesLe32 v ++ t) 0 = v := by
  simpa [memRead32, bytesLe32] using le32_byteOf v h

theorem bytesLe64_append_memRead64 (v : Nat) (h : v < 2 ^ 64) (t : Bytes) :
    memRead64 (bytesLe64 v ++ t) 0 = v := by
  have h1 : v / 2 ^ 32 < 2 ^ 32 := by omega
  have h2 := le32_byteOf (v / 2 ^ 32) h1
  have h3 : le32 (byteOf v 0) (byteOf v 1) (byteOf v 2) (byteOf v 3) = v % 2 ^ 32 := by
    simp only [le32, byteOf, BitVec.toNat_ofNat]; omega
  simp only [memRead64, memRead32, bytesLe64, bytesLe32, List.cons_append, List.nil_append, byteAt_cons_zero,
    byteAt_cons_succ, Nat.zero_add] at *
  rw [h2, h3]; omega

/-- A list of at least `n` bytes is its first `n` and the rest. -/
theorem slice_append_left (s t : Bytes) (i j : Nat) (h : j ≤ s.length) : slice (s ++ t) i j = slice s i j := by
  simp only [slice]
  by_cases hi : i ≤ s.length
  · rw [List.drop_append_of_le_length hi, List.take_append_of_le_length (by simp; omega)]
  · have : j - i = 0 := by omega
    simp [this]

@[simp] theorem slice_length (s : Bytes) (i j : Nat) (h : j ≤ s.length) : (slice s i j).length = j - i := by
  simp [slice]; omega

/-- R90: the length of a frame. -/
@[simp] theorem frameBytes_length (m : MsgId) (p : Bytes) (ck : Word32) :
    (frameBytes m p ck).length = 10 + p.length := by
  simp [frameBytes]; omega

/-- R61: a frame with its header written out. -/
theorem frameBytes_eq (m : MsgId) (p : Bytes) (ck : Word32) :
    frameBytes m p ck
      = 0xBA :: 0xCE :: byteOf p.length 0 :: byteOf p.length 1 :: m.cls :: m.id :: (p ++ bytesLe32 ck.toNat) := by
  simp [frameBytes, bytesLe16, Config.sync1, Config.sync2]

/-- R61, R91: the length field of a frame. -/
theorem frameBytes_memRead16 (m : MsgId) (p t : Bytes) (ck : Word32) (h : p.length ≤ 65535) :
    memRead16 (frameBytes m p ck ++ t) 2 = p.length := by
  rw [frameBytes_eq]
  simpa [memRead16] using le16_byteOf p.length (by omega)

/-- R61: the payload of a frame. -/
theorem frameBytes_payload (m : MsgId) (p t : Bytes) (ck : Word32) :
    slice (frameBytes m p ck ++ t) 6 (6 + p.length) = p := by
  rw [frameBytes_eq]
  simp [slice]

/-- R61, R94: the checksum field of a frame. -/
theorem frameBytes_memRead32 (m : MsgId) (p t : Bytes) (ck : Word32) :
    memRead32 (frameBytes m p ck ++ t) (6 + p.length) = ck.toNat := by
  have : frameBytes m p ck ++ t
      = (0xBA :: 0xCE :: byteOf p.length 0 :: byteOf p.length 1 :: m.cls :: m.id :: p) ++ (bytesLe32 ck.toNat ++ t) := by
    rw [frameBytes_eq]; simp
  rw [this]
  have := memRead32_append_right (0xBA :: 0xCE :: byteOf p.length 0 :: byteOf p.length 1 :: m.cls :: m.id :: p)
    (bytesLe32 ck.toNat ++ t) 0
  simp only [List.length_cons, Nat.add_zero] at this
  rw [show 6 + p.length = p.length + 1 + 1 + 1 + 1 + 1 + 1 by omega, this]
  exact memRead32_bytesLe32 _ ck.isLt t

/-- R61: a list that has a frame's header and length is that frame followed by the rest. -/
theorem eq_frameBytes (buf : Bytes) (h0 : byteAt buf 0 = 0xBA) (h1 : byteAt buf 1 = 0xCE)
    (hl : 10 + memRead16 buf 2 ≤ buf.length) :
    buf = frameBytes ⟨byteAt buf 4, byteAt buf 5⟩ (slice buf 6 (6 + memRead16 buf 2))
        (BitVec.ofNat 32 (memRead32 buf (6 + memRead16 buf 2))) ++ buf.drop (10 + memRead16 buf 2) := by
  obtain ⟨a0, a1, a2, a3, a4, a5, rest, rfl⟩ : ∃ a0 a1 a2 a3 a4 a5 rest,
      buf = a0 :: a1 :: a2 :: a3 :: a4 :: a5 :: rest := by
    match buf, hl with
    | a0 :: a1 :: a2 :: a3 :: a4 :: a5 :: rest, _ => exact ⟨_, _, _, _, _, _, _, rfl⟩
    | [], h => simp at h
    | [_], h | [_, _], h | [_, _, _], h | [_, _, _, _], h | [_, _, _, _, _], h => simp at h; omega
  obtain rfl : a0 = 0xBA := h0
  obtain rfl : a1 = 0xCE := h1
  have hL : ∀ r, memRead16 ((0xBA : Byte) :: 0xCE :: a2 :: a3 :: r) 2 = le16 a2 a3 := fun _ => rfl
  have hb := bytesLe16_le16 a2 a3
  rw [hL] at hl ⊢
  generalize hn : le16 a2 a3 = n at *
  simp only [List.length_cons] at hl
  obtain ⟨q, b0, b1, b2, b3, tl, rfl, hq⟩ : ∃ q b0 b1 b2 b3 tl, rest = q ++ b0 :: b1 :: b2 :: b3 :: tl ∧ q.length = n := by
    have h4 : 4 ≤ (rest.drop n).length := by simp; omega
    have hr : rest = rest.take n ++ rest.drop n := by simp
    match hd : rest.drop n, h4 with
    | b0 :: b1 :: b2 :: b3 :: tl, _ => exact ⟨rest.take n, b0, b1, b2, b3, tl, by rw [← hd]; exact hr, by simp; omega⟩
  subst hq
  have hs : slice ((0xBA : Byte) :: 0xCE :: a2 :: a3 :: a4 :: a5 :: (q ++ b0 :: b1 :: b2 :: b3 :: tl)) 6 (6 + q.length) = q := by
    simp [slice]
  have hm : memRead32 ((0xBA : Byte) :: 0xCE :: a2 :: a3 :: a4 :: a5 :: (q ++ b0 :: b1 :: b2 :: b3 :: tl)) (6 + q.length)
      = le32 b0 b1 b2 b3 := by
    have := memRead32_append_right ((0xBA : Byte) :: 0xCE :: a2 :: a3 :: a4 :: a5 :: q) (b0 :: b1 :: b2 :: b3 :: tl) 0
    simp only [List.length_cons, List.cons_append] at this
    rw [show 6 + q.length = q.length + 1 + 1 + 1 + 1 + 1 + 1 + 0 by omega]
    exact this
  have hd : ((0xBA : Byte) :: 0xCE :: a2 :: a3 :: a4 :: a5 :: (q ++ b0 :: b1 :: b2 :: b3 :: tl)).drop (10 + q.length) = tl := by
    rw [show 10 + q.length = q.length + 4 + 6 by omega]
    simp [List.drop_append]
  rw [hs, hm, hd, frameBytes_eq, BitVec.toNat_ofNat, Nat.mod_eq_of_lt (le32_lt _ _ _ _), bytesLe32_le32]
  simp only [bytesLe16, List.cons.injEq, and_true] at hb
  simp [hb.1, hb.2]

end Sys2Proof.Machine
end

