-- ==== Sys2Proof/Laws/Codec.lean ====
section
/-! SUPPORT. What `CHECKSUM`, `PACK` and `UNPACK` do, said once. -/

namespace Sys2Proof.Machine

/-- A sum of words does not depend on where it starts. -/
theorem foldl_add_start (ws : List Word32) (a : Word32) :
    ws.foldl (· + ·) a = a + ws.foldl (· + ·) 0 := by
  induction ws generalizing a with
  | nil => simp
  | cons w ws ih =>
    rw [List.foldl_cons, ih (a + w), List.foldl_cons, ih (0 + w)]
    simp [BitVec.add_assoc]

/-- R140: the checksum is the seed plus the sum of the payload's words. -/
theorem checksum_eq_seed_add (c i : Byte) (p : Bytes) :
    checksum c i p
      = checksumSeed c i p.length + (leWords (p ++ zeros (padLen p.length))).foldl (· + ·) 0 :=
  foldl_add_start _ _

@[simp] theorem pack_length (c i : Byte) (p : Bytes) : (pack c i p).length = 10 + p.length := by simp [pack]

/-- R147: `UNPACK` of a frame's bytes and anything after them: the checksum field decides. -/
theorem unpack_frameBytes (m : MsgId) (p t : Bytes) (ck : Word32) (h : p.length ≤ 65535) :
    unpack (frameBytes m p ck ++ t) = if ck = checksum m.cls m.id p then .ok m p else .err .cksum := by
  have h0 : byteAt (frameBytes m p ck ++ t) 0 = Config.sync1 := by rw [frameBytes_eq]; rfl
  have h1 : byteAt (frameBytes m p ck ++ t) 1 = Config.sync2 := by rw [frameBytes_eq]; rfl
  have h4 : byteAt (frameBytes m p ck ++ t) 4 = m.cls := by rw [frameBytes_eq]; rfl
  have h5 : byteAt (frameBytes m p ck ++ t) 5 = m.id := by rw [frameBytes_eq]; rfl
  have hl := frameBytes_memRead16 m p t ck h
  have hlen : (frameBytes m p ck ++ t).length = 10 + p.length + t.length := by simp
  unfold unpack
  rw [h0, h1, h4, h5, hl, frameBytes_payload, frameBytes_memRead32, hlen, BitVec.ofNat_toNat, BitVec.setWidth_eq]
  have n1 : ¬ (10 + p.length + t.length < Config.minFrame) := by simp only [Config.minFrame]; omega
  have n2 : ¬ (10 + p.length + t.length < Config.minFrame + p.length) := by simp only [Config.minFrame]; omega
  simp only [n1, n2, if_false, ne_eq, not_true_eq_false, or_self]
  by_cases hc : ck = checksum m.cls m.id p <;> simp [hc]

/-- R150: the round trip. -/
theorem unpack_pack_append (c i : Byte) (p t : Bytes) (h : p.length ≤ 65535) :
    unpack (pack c i p ++ t) = .ok ⟨c, i⟩ p := by
  have := unpack_frameBytes ⟨c, i⟩ p t (checksum c i p) h
  simpa [pack] using this

/-- R147: whatever `UNPACK` accepts begins with the packed frame of what it gives back. -/
theorem eq_pack_of_unpack (buf : Bytes) (m : MsgId) (p : Bytes) (h : unpack buf = .ok m p) :
    p.length ≤ 65535 ∧ p.length = memRead16 buf 2 ∧ buf = pack m.cls m.id p ++ buf.drop (10 + p.length) := by
  unfold unpack at h
  split at h; · cases h
  rename_i hlen
  split at h; · cases h
  rename_i hs
  split at h; · cases h
  rename_i hl
  split at h; · cases h
  rename_i hck
  simp only [ne_eq, Classical.not_not, not_or, Config.minFrame, Nat.not_lt] at *
  obtain ⟨rfl, rfl⟩ : m = ⟨byteAt buf 4, byteAt buf 5⟩ ∧ p = slice buf 6 (6 + memRead16 buf 2) := by
    simp only [Unpacked.ok.injEq] at h
    exact ⟨h.1.symm, h.2.symm⟩
  have hpl : (slice buf 6 (6 + memRead16 buf 2)).length = memRead16 buf 2 := by
    rw [slice_length _ _ _ (by omega)]; omega
  have := memRead16_lt buf 2
  refine ⟨by omega, hpl, ?_⟩
  rw [hpl]
  have he := eq_frameBytes buf hs.1 hs.2 hl
  rw [hck] at he
  exact he

end Sys2Proof.Machine
end

