-- ==== Sys2Proof/Laws/Demux.lean ====
section
/-! SUPPORT. What the parser's operations do, said once: the invariant of R30 and the conservation of bytes of R31,
operation by operation. -/

namespace Sys2Proof.Machine

theorem eventBytes_append (a b : List Event) : eventBytes (a ++ b) = eventBytes a ++ eventBytes b := by
  simp [eventBytes]
theorem eventBytes_one (e : Event) : eventBytes [e] = e.bytes := by simp [eventBytes]

/-- R187: a whole frame's bytes, exactly, are a packed frame or fail on the checksum. -/
theorem unpack_exact (acc : Bytes) (h0 : byteAt acc 0 = Config.sync1) (h1 : byteAt acc 1 = Config.sync2)
   (hl : acc.length = 10 + memRead16 acc 2) : 
   (∃ m p, unpack acc = .ok m p ∧ acc = pack m.cls m.id p ∧ p.length = memRead16 acc 2) ∨ unpack acc = .err .cksum := by
  have he := eq_frameBytes acc h0 h1 (by omega)
  have : acc.drop (10 + memRead16 acc 2) = [] := by simp; omega
  cases hu : unpack acc with
  | ok m p =>
    left
    obtain ⟨a, b, c⟩ := eq_pack_of_unpack acc m p hu
    refine ⟨m, p, rfl, ?_, b⟩
    rw [b, this] at c; simpa using c
  | err e =>
    right
    have hlt := memRead16_lt acc 2
    rw [he, unpack_frameBytes _ _ _ _ (by rw [slice_length _ _ _ (by omega)]; omega)] at hu
    split at hu
    · cases hu
    · cases hu; rfl


/-- An idle parser whose queued events are sound meets the invariant. -/
theorem Demux.inv_of_idle (d : Demux) (hp : d.pstate = .idle) (ha : d.acc = []) (he : ∀ e ∈ d.evq, e.sound = true) :
    d.Inv := by
  simpa [Demux.Inv, hp, ha] using he

theorem Demux.inv_evq {d : Demux} (h : d.Inv) : ∀ e ∈ d.evq, e.sound = true := h.2.2.2.2.2.2.2
theorem Demux.inv_acc_idle {d : Demux} (h : d.Inv) (hp : d.pstate = .idle) : d.acc = [] := h.1.2 hp
theorem Demux.inv_unk {d : Demux} (h : d.Inv) (hp : d.pstate ≠ .idle) : d.unk = [] := by
  by_contra hu; exact hp (h.2.1 hu)
theorem Demux.inv_acc_ne {d : Demux} (h : d.Inv) (hp : d.pstate ≠ .idle) : d.acc ≠ [] := fun ha => hp (h.1.1 ha)
theorem Demux.inv_sync1 {d : Demux} (h : d.Inv) (hp : d.pstate = .sync1) : d.acc = [Config.sync1] := h.2.2.1 hp
theorem Demux.inv_sync2 {d : Demux} (h : d.Inv) (hp : d.pstate = .sync2) : d.acc = [Config.sync1, Config.sync2] :=
  h.2.2.2.1 hp
theorem Demux.inv_lenLo {d : Demux} (h : d.Inv) (hp : d.pstate = .lenLo) :
    d.acc = [Config.sync1, Config.sync2, d.lenLo] := h.2.2.2.2.1 hp
theorem Demux.inv_body {d : Demux} (h : d.Inv) (hp : d.pstate = .body) : d.BodyShape := h.2.2.2.2.2.1 hp
theorem Demux.inv_nmea {d : Demux} (h : d.Inv) (hp : d.pstate = .nmea) : d.NmeaShape := h.2.2.2.2.2.2.1 hp

theorem sound_append {es : List Event} {e : Event} (h : ∀ x ∈ es, x.sound = true) (he : e.sound = true) :
    ∀ x ∈ es ++ [e], x.sound = true := by
  intro x hx
  rcases List.mem_append.1 hx with hx | hx
  · exact h x hx
  · rw [List.mem_singleton.1 hx]; exact he

theorem sound_unknown (bs : Bytes) (ts : Time) : (Event.unknownBytes bs ts).sound = true ↔ bs ≠ [] := by
  cases bs <;> simp [Event.sound]

/-- R178: what a flush does. -/
theorem Demux.flushUnknown_eq (d : Demux) : d.flushUnknown = { d with evq := d.evq ++ d.pendingRun, unk := [] } := by
  unfold Demux.flushUnknown Demux.pendingRun
  split
  · rename_i h; obtain ⟨_, _, _, _, _, _, _, _⟩ := d; simp_all
  · rfl

theorem sound_pendingRun (d : Demux) : ∀ e ∈ d.pendingRun, e.sound = true := by
  unfold Demux.pendingRun; split
  · simp
  · rename_i h; simpa [sound_unknown] using h

/-- R178 keeps R30. -/
theorem Demux.flushUnknown_inv {d : Demux} (h : d.Inv) : d.flushUnknown.Inv := by
  rw [flushUnknown_eq]
  have hev := inv_evq h
  have := sound_pendingRun d
  obtain ⟨h1, h2, h3⟩ := h
  refine ⟨h1, by simp, h3.1, h3.2.1, h3.2.2.1, h3.2.2.2.1, h3.2.2.2.2.1, ?_⟩
  intro e he; rcases List.mem_append.1 he with he | he
  · exact hev e he
  · exact this e he

/-- R178 keeps R31. -/
theorem Demux.flushUnknown_held (d : Demux) : d.flushUnknown.held = d.held := by
  rw [flushUnknown_eq]
  by_cases hu : d.unk = [] <;> simp [Demux.held, Demux.pendingRun, hu, Event.bytes, eventBytes]

/-- R172 keeps R30. -/
theorem Demux.idleByte_inv {d : Demux} (h : d.Inv) (hp : d.pstate = .idle) (b : Byte) (ts : Time) : (d.idleByte b ts).Inv := by
  have hf := inv_evq (flushUnknown_inv h)
  unfold Demux.idleByte
  split
  · rename_i hb; subst hb; simp [Demux.Inv, Demux.start]; refine ⟨?_, hf⟩; rw [flushUnknown_eq]
  split
  · rename_i hb; subst hb; simp [Demux.Inv, Demux.start]; refine ⟨?_, ?_, hf⟩
    · rw [flushUnknown_eq]
    · exact ⟨rfl, by simp [Config.nmeaMax], (by decide : Config.nmeaEnd ∉ [Config.nmeaStart])⟩
  · have hev := inv_evq h; have hac := inv_acc_idle h hp; exact inv_of_idle _ hp hac hev

/-- R172 keeps R31. -/
theorem Demux.idleByte_held {d : Demux} (h : d.Inv) (hp : d.pstate = .idle) (b : Byte) (ts : Time) :
    (d.idleByte b ts).held = d.held ++ [b] := by
  have ha := inv_acc_idle h hp
  have hf := flushUnknown_held d
  have hs : ∀ p, (d.start p b ts).held = d.held ++ [b] := by
    intro p; rw [← hf]; rw [flushUnknown_eq]; simp [Demux.held, Demux.start, ha, flushUnknown_eq]
  unfold Demux.idleByte
  split; · exact hs _
  split; · exact hs _
  simp [Demux.held, ha]

/-- R330 keeps R30. -/
theorem Demux.abandon_inv {d : Demux} (h : ∀ e ∈ d.evq, e.sound = true) (ha : d.acc ≠ []) : d.abandon.Inv :=
  inv_of_idle _ rfl rfl (sound_append h ((sound_unknown _ _).2 ha))

/-- R176: what completion does to a whole frame. -/
theorem Demux.complete_spec (d : Demux) (h0 : byteAt d.acc 0 = Config.sync1) (h1 : byteAt d.acc 1 = Config.sync2)
   (hl : d.acc.length = 10 + memRead16 d.acc 2) : 
   (∃ m p, unpack d.acc = .ok m p ∧ d.acc = pack m.cls m.id p ∧ p.length = memRead16 d.acc 2 ∧ 
      d.complete = { d with evq := d.evq ++ [.casicPacket m p d.accTs d.acc], acc := [], pstate := .idle }) ∨
   (unpack d.acc = .err .cksum ∧ d.complete = { d with evq := d.evq ++ [.unknownBytes d.acc d.accTs], acc := [], pstate := .idle }) := by
  rcases unpack_exact d.acc h0 h1 hl with ⟨m, p, hu, hp, hpl⟩ | hu
  · left; refine ⟨m, p, hu, hp, hpl, ?_⟩; simp only [Demux.complete, hu]; rfl
  · right; refine ⟨hu, ?_⟩; simp only [Demux.complete, hu]; rfl

/-- R30 item 4: the last byte of a body completes the frame. -/
theorem BodyShape_full {d : Demux} (h : d.BodyShape) (hr : d.remaining = 1) (b : Byte) :
    byteAt (d.acc ++ [b]) 0 = Config.sync1 ∧ byteAt (d.acc ++ [b]) 1 = Config.sync2 ∧
    memRead16 (d.acc ++ [b]) 2 = memRead16 d.acc 2 ∧ (d.acc ++ [b]).length = 10 + memRead16 (d.acc ++ [b]) 2 := by
  obtain ⟨h4, h0, h1, hm, hl, hr1⟩ := h
  have := memRead16_append_left d.acc [b] 2 (by omega)
  rw [byteAt_append_left _ _ _ (by omega), byteAt_append_left _ _ _ (by omega), this]
  refine ⟨h0, h1, rfl, ?_⟩; simp; omega

/-- R176: everything a byte in `BODY` can do. -/
theorem Demux.bodyByte_spec {d : Demux} (h : d.BodyShape) (b : Byte) : 
    (2 ≤ d.remaining ∧ d.bodyByte b = { d with acc := d.acc ++ [b], remaining := d.remaining - 1 }) ∨
    (d.remaining = 1 ∧ ∃ m p, d.acc ++ [b] = pack m.cls m.id p ∧ unpack (d.acc ++ [b]) = .ok m p ∧ p.length = memRead16 d.acc 2 ∧
       d.bodyByte b = { d with evq := d.evq ++ [.casicPacket m p d.accTs (d.acc ++ [b])], remaining := 0, acc := [], pstate := .idle }) ∨ 
    (d.remaining = 1 ∧ unpack (d.acc ++ [b]) = .err .cksum ∧ 
       d.bodyByte b = { d with evq := d.evq ++ [.unknownBytes (d.acc ++ [b]) d.accTs], remaining := 0, acc := [], pstate := .idle }) := by
  have hr := h.2.2.2.2.2
  by_cases h2 : 2 ≤ d.remaining
  · left; refine ⟨h2, ?_⟩; unfold Demux.bodyByte; rw [if_neg (by omega)]; rfl
  · right
    have h1 : d.remaining = 1 := by omega
    obtain ⟨a0, a1, a2, a3⟩ := BodyShape_full h h1 b
    have := Demux.complete_spec { d.append b with remaining := 0 } a0 a1 a3
    have he : d.bodyByte b = Demux.complete { d.append b with remaining := 0 } := by unfold Demux.bodyByte; simp [h1]
    rcases this with ⟨m, p, hu, hp, hpl, hc⟩ | ⟨hu, hc⟩
    · left; refine ⟨h1, m, p, hp, hu, by rw [hpl]; exact a2, ?_⟩; rw [he, hc]; rfl
    · right; refine ⟨h1, hu, ?_⟩; rw [he, hc]; rfl

/-- R30: every byte keeps the parser's invariant. -/
theorem Demux.feedByte_inv (d : Demux) (b : Byte) (ts : Time) (h : d.Inv) : (d.feedByte b ts).Inv := by
  have hev := inv_evq h
  cases hp : d.pstate <;> simp only [Demux.feedByte, hp]
  case idle => exact idleByte_inv h hp b ts
  case sync1 =>
    have ha := inv_sync1 h hp
    have hu : d.unk = [] := inv_unk h (by simp [hp])
    unfold Demux.sync1Byte
    split
    · rename_i hb; subst hb; simpa [Demux.Inv, ha, hu] using hev
    · exact idleByte_inv (inv_of_idle d.demote rfl rfl hev) rfl b ts
  case sync2 =>
    have ha := inv_sync2 h hp
    have hu : d.unk = [] := inv_unk h (by simp [hp])
    simpa [Demux.Inv, Demux.sync2Byte, ha, hu] using hev
  case lenLo =>
    have ha := inv_lenLo h hp
    have hu : d.unk = [] := inv_unk h (by simp [hp])
    unfold Demux.lenLoByte
    split
    · exact abandon_inv hev (by simp)
    · rename_i hle
      have hm : memRead16 [Config.sync1, Config.sync2, d.lenLo, b] 2 = le16 d.lenLo b := rfl
      refine ⟨by simp [ha], by simp [hu], by simp, by simp, by simp, fun _ => ?_, by simp, hev⟩
      simp only [Demux.BodyShape, Demux.append_acc, ha, List.cons_append, List.nil_append, hm]
      refine ⟨by simp, rfl, rfl, by omega, by simp; omega, by omega⟩
  case body =>
    have hu : d.unk = [] := inv_unk h (by simp [hp])
    have hb := inv_body h hp
    rcases Demux.bodyByte_spec hb b with ⟨h2, he⟩ | ⟨h1, m, p, hpk, hun, hl, he⟩ | ⟨h1, hun, he⟩ <;> rw [he]
    · obtain ⟨h4, h0, h1, hm, hl, hr1⟩ := hb
      refine ⟨by simp [hp], by simp [hu], by simp [hp], by simp [hp], by simp [hp], fun _ => ?_, by simp [hp], hev⟩
      simp only [Demux.BodyShape]
      rw [memRead16_append_left d.acc [b] 2 (by omega), byteAt_append_left _ _ _ (by omega), byteAt_append_left _ _ _ (by omega)]
      refine ⟨by simp; omega, h0, h1, hm, by simp; omega, by omega⟩
    · refine inv_of_idle _ rfl rfl (sound_append hev ?_)
      have := hb.2.2.2.1
      have hl2 : (d.acc ++ [b]).length = 10 + p.length := by rw [hpk]; simp
      simp only [Event.sound, hun, hl2]
      have : p.length ≤ Config.maxPayload := by omega
      simp [this]
    · exact inv_of_idle _ rfl rfl (sound_append hev ((sound_unknown _ _).2 (by simp)))
  case nmea =>
    have hu : d.unk = [] := inv_unk h (by simp [hp])
    obtain ⟨n1, n2, n3⟩ := inv_nmea h hp
    obtain ⟨a, ha⟩ : ∃ a, d.acc = Config.nmeaStart :: a := by
      cases hh : d.acc with
      | nil => simp [hh] at n1
      | cons x xs => rw [hh] at n1; simp at n1; exact ⟨xs, by rw [n1]⟩
    unfold Demux.nmeaByte
    split
    · rename_i hb; subst hb
      refine inv_of_idle _ rfl rfl (sound_append hev ?_)
      rw [ha] at n2 n3 ⊢
      simp only [List.length_cons] at n2
      have hdl : (Config.nmeaStart :: a ++ [Config.nmeaEnd]).dropLast = Config.nmeaStart :: a := by
        rw [List.dropLast_concat]
      have hgl : (Config.nmeaStart :: a ++ [Config.nmeaEnd]).getLast? = some Config.nmeaEnd := by
        rw [List.getLast?_concat]
      simp only [Event.sound, hdl, hgl]
      have : a.length + 1 + 1 ≤ Config.nmeaMax := by omega
      simp [this]; simpa using n3
    split
    · exact abandon_inv hev (by simp)
    · rename_i hb hlen
      refine ⟨by simp [hp], by simp [hu], by simp [hp], by simp [hp], by simp [hp], by simp [hp], fun _ => ?_, hev⟩
      refine ⟨by simp [ha], by simpa using hlen, ?_⟩
      simp only [Demux.append_acc, List.mem_append, List.mem_singleton, not_or]
      exact ⟨n3, fun h => hb h.symm⟩

/-- R31: every byte is held exactly once. -/
theorem Demux.feedByte_held (d : Demux) (b : Byte) (ts : Time) (h : d.Inv) : (d.feedByte b ts).held = d.held ++ [b] := by
  have hev := inv_evq h
  cases hp : d.pstate <;> simp only [Demux.feedByte, hp]
  case idle => exact idleByte_held h hp b ts
  all_goals have hu : d.unk = [] := inv_unk h (by simp [hp])
  case sync1 =>
    unfold Demux.sync1Byte
    split
    · simp [Demux.held, hu]
    · rw [idleByte_held (inv_of_idle d.demote rfl rfl hev) rfl b ts]; simp [Demux.held, hu]
  case sync2 => simp [Demux.held, Demux.sync2Byte, hu]
  case lenLo =>
    unfold Demux.lenLoByte
    split <;> simp [Demux.held, hu, eventBytes_append, eventBytes_one, Event.bytes]
  case body =>
    rcases Demux.bodyByte_spec (inv_body h hp) b with ⟨h2, he⟩ | ⟨h1, m, p, hpk, hun, hl, he⟩ | ⟨h1, hun, he⟩ <;> rw [he] <;>
     simp [Demux.held, hu, eventBytes_append, eventBytes_one, Event.bytes]
  case nmea =>
    unfold Demux.nmeaByte
    split
    · simp [Demux.held, hu, eventBytes_append, eventBytes_one, Event.bytes]
    · split <;> simp [Demux.held, hu, eventBytes_append, eventBytes_one, Event.bytes]

/-- R30 over a chunk's bytes. -/
theorem Demux.feedBytes_inv (d : Demux) (c : Bytes) (ts : Time) (h : d.Inv) : (d.feedBytes c ts).Inv := by
  induction c generalizing d with
  | nil => exact h
  | cons b c ih => exact ih _ (Demux.feedByte_inv d b ts h)

/-- R31 over a chunk's bytes. -/
theorem Demux.feedBytes_held (d : Demux) (c : Bytes) (ts : Time) (h : d.Inv) : (d.feedBytes c ts).held = d.held ++ c := by
  induction c generalizing d with
  | nil => simp [Demux.feedBytes]
  | cons b c ih => 
    have : (d.feedBytes (b :: c) ts) = (d.feedByte b ts).feedBytes c ts := rfl
    rw [this, ih _ (Demux.feedByte_inv d b ts h), feedByte_held _ _ _ h]; simp

/-- R30 over a chunk and its end. -/
theorem Demux.feed_inv (d : Demux) (c : Bytes) (ts : Time) (h : d.Inv) : (d.feed c ts).Inv :=
  flushUnknown_inv (feedBytes_inv d c ts h)
end Sys2Proof.Machine
end

