-- ==== Sys2Proof/Laws/Ops.lean ====
section
/-! SUPPORT. What the primitive actions do, said once: the clock, the port writes and the port read, and the order in
which every one of them appends to the outputs and consumes the environment. -/

namespace Sys2Proof.Machine

/-- R146: the length check of a payload. -/
theorem lengthFits_iff (p : Bytes) : lengthFits p = true ↔ p.length ≤ 65535 := decide_eq_true_iff

section
variable (s : State) (n : Nat)

@[simp] theorem State.readNow_params : s.readNow.2.params = s.params := by unfold State.readNow; split <;> rfl
@[simp] theorem State.readNow_demux : s.readNow.2.demux = s.demux := by unfold State.readNow; split <;> rfl
@[simp] theorem State.readNow_arb : s.readNow.2.arb = s.arb := by unfold State.readNow; split <;> rfl
@[simp] theorem State.readNow_out : s.readNow.2.out = s.out := by unfold State.readNow; split <;> rfl
@[simp] theorem State.readNow_ports : s.readNow.2.ports = s.ports := by unfold State.readNow; split <;> rfl
@[simp] theorem State.readNow_rx : s.readNow.2.env.rx = s.env.rx := by unfold State.readNow; split <;> rfl
@[simp] theorem State.readNow_reads : s.readNow.2.env.reads = s.env.reads := by unfold State.readNow; split <;> rfl
@[simp] theorem State.readNow_writes : s.readNow.2.env.writes = s.env.writes := by unfold State.readNow; split <;> rfl

@[simp] theorem State.readNow_stamps : s.readNow.2.env.stamps = s.env.stamps := by unfold State.readNow; split <;> rfl

@[simp] theorem State.takeStamp_params : s.takeStamp.2.params = s.params := by unfold State.takeStamp; split <;> rfl
@[simp] theorem State.takeStamp_demux : s.takeStamp.2.demux = s.demux := by unfold State.takeStamp; split <;> rfl
@[simp] theorem State.takeStamp_arb : s.takeStamp.2.arb = s.arb := by unfold State.takeStamp; split <;> rfl
@[simp] theorem State.takeStamp_out : s.takeStamp.2.out = s.out := by unfold State.takeStamp; split <;> rfl
@[simp] theorem State.takeStamp_ports : s.takeStamp.2.ports = s.ports := by unfold State.takeStamp; split <;> rfl
@[simp] theorem State.takeStamp_now : s.takeStamp.2.env.now = s.env.now := by unfold State.takeStamp; split <;> rfl
@[simp] theorem State.takeStamp_clock : s.takeStamp.2.env.clock = s.env.clock := by unfold State.takeStamp; split <;> rfl
@[simp] theorem State.takeStamp_rx : s.takeStamp.2.env.rx = s.env.rx := by unfold State.takeStamp; split <;> rfl
@[simp] theorem State.takeStamp_reads : s.takeStamp.2.env.reads = s.env.reads := by unfold State.takeStamp; split <;> rfl
@[simp] theorem State.takeStamp_writes : s.takeStamp.2.env.writes = s.env.writes := by unfold State.takeStamp; split <;> rfl

/-- R182: the supplied timestamps are taken in order. -/
theorem State.takeStamp_stamps : s.takeStamp.2.env.stamps <:+ s.env.stamps := by
  unfold State.takeStamp
  split
  · exact List.suffix_refl _
  · rename_i h; rw [h]; exact List.suffix_cons _ _

/-- R46: what `Now()` returns is the clock's value from then on. -/
theorem State.readNow_now : s.readNow.2.env.now = s.readNow.1 := by unfold State.readNow; split <;> rfl

/-- R46: the values of the clock never go back. -/
theorem State.readNow_mono : s.env.now ≤ s.readNow.1 := by
  unfold State.readNow
  split
  · exact BitVec.le_refl _
  · dsimp only
    split
    · exact BitVec.le_refl _
    · rename_i h; exact BitVec.not_lt.1 h

/-- R46: the values the environment shows are taken in order. -/
theorem State.readNow_clock : s.readNow.2.env.clock <:+ s.env.clock := by
  unfold State.readNow
  split
  · exact List.suffix_refl _
  · rename_i h; rw [h]; exact List.suffix_cons _ _

@[simp] theorem State.readAndFeed_params : (s.readAndFeed n).params = s.params := by simp [State.readAndFeed]
@[simp] theorem State.readAndFeed_arb : (s.readAndFeed n).arb = s.arb := by simp [State.readAndFeed]
@[simp] theorem State.readAndFeed_out : (s.readAndFeed n).out = s.out := by simp [State.readAndFeed]
@[simp] theorem State.readAndFeed_ports : (s.readAndFeed n).ports = s.ports := by simp [State.readAndFeed]
@[simp] theorem State.readAndFeed_reads : (s.readAndFeed n).env.reads = s.env.reads := by simp [State.readAndFeed]
@[simp] theorem State.readAndFeed_writes : (s.readAndFeed n).env.writes = s.env.writes := by simp [State.readAndFeed]
@[simp] theorem State.readAndFeed_rx : (s.readAndFeed n).env.rx = s.env.rx.drop (s.readCount n) := by
  simp [State.readAndFeed]

end

/-- R66, R244: the read timeout is within the slice, and within what is left before the deadline. -/
theorem State.readTimeout_le (s : State) :
    s.readTimeout ≤ s.params.pollSlice ∧ s.readTimeout ≤ s.arb.deadline - s.env.now.toNat :=
  ⟨Nat.min_le_left _ _, Nat.min_le_right _ _⟩

/-- R31: the bytes a read returns stay held, behind those already held. -/
theorem State.readAndFeed_held (s : State) (n : Nat) (h : s.demux.Inv) :
    (s.readAndFeed n).demux.held = s.demux.held ++ s.env.rx.take (s.readCount n) := by
  simp only [State.readAndFeed, readNow_demux, Demux.feed, Demux.feedEnd, Demux.flushUnknown_held]
  exact Demux.feedBytes_held _ _ _ h

/-- How the transmit actions take the environment's next answer: a prefix of the bytes goes out. -/
inductive State.WriteEffect (s : State) : TxOutcome → Prop where
  | nothingLeft : s.unsent = [] → WriteEffect s (.done s)
  | whole (ws : List WriteDraw) : s.unsent ≠ [] → (s.env.writes = [] ∧ ws = [] ∨ s.env.writes = .done :: ws) →
      WriteEffect s (.done ({ s with env := { s.env with writes := ws } }.handOver s.unsent))
  | failed (k : Nat) (ws : List WriteDraw) : s.unsent ≠ [] → s.env.writes = .fail k :: ws →
      WriteEffect s (.failed ({ s with env := { s.env with writes := ws } }.handOver (s.unsent.take k)))
  | blocked (k : Nat) (ws : List WriteDraw) : s.unsent ≠ [] → s.env.writes = .pause k :: ws →
      WriteEffect s (.blocked ({ s with env := { s.env with writes := ws } }.handOver (s.unsent.take k)))

/-- R13, R64: everything `PortWrite` can do. -/
theorem State.portWrite_effect (s : State) : s.WriteEffect s.portWrite := by
  unfold State.portWrite
  split
  · rename_i h; exact .nothingLeft h
  rename_i h
  split
  · rename_i hw
    have := State.WriteEffect.whole (s := s) [] h (.inl ⟨hw, rfl⟩)
    rw [← hw] at this; exact this
  · rename_i ws hw; exact .whole ws h (.inr hw)
  · rename_i k ws hw; exact .failed k ws h hw
  · rename_i k ws hw; exact .blocked k ws h hw

/-- R79: everything `PortFlush` can do. -/
theorem State.portFlush_cases (s : State) :
    (∃ ws, (s.env.writes = [] ∧ ws = [] ∨ s.env.writes = .done :: ws) ∧
      s.portFlush = .done { s with env := { s.env with writes := ws }, out := { s.out with tx := s.out.tx ++ [.flush] } }) ∨
    (∃ k ws, s.env.writes = .fail k :: ws ∧ s.portFlush = .failed { s with env := { s.env with writes := ws } }) ∨
    (∃ k ws, s.env.writes = .pause k :: ws ∧ s.portFlush = .blocked { s with env := { s.env with writes := ws } }) := by
  unfold State.portFlush
  split
  · rename_i hw; left; refine ⟨[], .inl ⟨hw, rfl⟩, ?_⟩; rw [← hw]
  · rename_i ws hw; left; exact ⟨ws, .inr hw, rfl⟩
  · rename_i k ws hw; right; left; exact ⟨k, ws, hw, rfl⟩
  · rename_i k ws hw; right; right; exact ⟨k, ws, hw, rfl⟩

/-- R46, R63, R66, R76, R347: what no action ever does otherwise: the parameters and the ports stay, the clock goes on,
the environment is consumed in order, and the outputs are appended to, the packet log by the records of the log. -/
def State.Extends (s t : State) : Prop :=
  t.params = s.params ∧ t.ports = s.ports ∧ t.env.stamps = s.env.stamps ∧ s.env.now ≤ t.env.now ∧
  t.env.rx <:+ s.env.rx ∧ t.env.reads <:+ s.env.reads ∧ t.env.writes <:+ s.env.writes ∧ t.env.clock <:+ s.env.clock ∧
  s.out.rsp <+: t.out.rsp ∧ s.out.tx <+: t.out.tx ∧ t.out.test = s.out.test ∧
  ∃ recs : List LogRecord,
    t.out.log = s.out.log ++ (if s.params.logSink then recs.map LogRecord.entry else []) ∧
    t.out.pktLog = s.out.pktLog ++ (if s.params.pktLogSink then recs.filterMap packetRecord else [])

theorem State.Extends.refl (s : State) : s.Extends s :=
  ⟨rfl, rfl, rfl, BitVec.le_refl _, List.suffix_refl _, List.suffix_refl _, List.suffix_refl _, List.suffix_refl _,
    List.prefix_refl _, List.prefix_refl _, rfl, [], by simp, by simp⟩

theorem State.Extends.trans {s t u : State} (h : s.Extends t) (k : t.Extends u) : s.Extends u := by
  obtain ⟨h1, h2, hs, h3, h4, h5, h6, h7, h8, h9, h10, r, h11, h12⟩ := h
  obtain ⟨k1, k2, ks, k3, k4, k5, k6, k7, k8, k9, k10, q, k11, k12⟩ := k
  refine ⟨k1.trans h1, k2.trans h2, ks.trans hs, BitVec.le_trans h3 k3, k4.trans h4, k5.trans h5, k6.trans h6, k7.trans h7,
    h8.trans k8, h9.trans k9, k10.trans h10, r ++ q, ?_, ?_⟩
  · rw [k11, h11, h1]; split <;> simp
  · rw [k12, h12, h1]; split <;> simp

/-- An action that touches nothing but the parser and the arbiter. -/
theorem State.Extends.inner {s t : State} (h1 : t.params = s.params) (h2 : t.ports = s.ports) (h3 : t.env = s.env)
    (h4 : t.out = s.out) : s.Extends t := by
  have := State.Extends.refl s
  obtain ⟨_, _, _, _, _, _⟩ := s
  obtain ⟨_, _, _, _, _, _⟩ := t
  simp only at h1 h2 h3 h4
  subst h1 h2 h3 h4
  exact this

theorem State.readNow_extends (s : State) : s.Extends s.readNow.2 := by
  refine ⟨by simp, by simp, by simp, ?_, by simp, by simp, by simp, s.readNow_clock, by simp, by simp, by simp, [], by simp, by simp⟩
  rw [readNow_now]; exact s.readNow_mono

theorem State.respond_extends (s : State) (r : Result) : s.Extends (s.respond r) :=
  ⟨rfl, rfl, rfl, BitVec.le_refl _, List.suffix_refl _, List.suffix_refl _, List.suffix_refl _, List.suffix_refl _,
    List.prefix_append _ _, List.prefix_refl _, rfl, [], by simp, by simp⟩

theorem State.finish_extends (s : State) (r : Result) : s.Extends (s.finish r) :=
  (State.Extends.inner rfl rfl rfl rfl).trans (State.respond_extends _ r)

theorem State.transportError_extends (s : State) : s.Extends s.transportError :=
  (State.Extends.inner rfl rfl rfl rfl).trans (State.respond_extends _ _)

theorem State.logRec_extends (s : State) (r : LogRecord) : s.Extends (s.logRec r) := by
  refine ⟨rfl, rfl, rfl, BitVec.le_refl _, List.suffix_refl _, List.suffix_refl _, List.suffix_refl _, List.suffix_refl _,
    List.prefix_refl _, List.prefix_refl _, rfl, [r], ?_, ?_⟩
  · simp only [logRec_out]; split <;> simp
  · simp only [logRec_out]; split
    · cases h : packetRecord r <;> simp [h]
    · simp

/-- Answers of the environment are taken in order. -/
theorem State.takeWrites_extends (s : State) (ws : List WriteDraw) (h : ws <:+ s.env.writes) :
    s.Extends { s with env := { s.env with writes := ws } } :=
  ⟨rfl, rfl, rfl, BitVec.le_refl _, List.suffix_refl _, List.suffix_refl _, h, List.suffix_refl _,
    List.prefix_refl _, List.prefix_refl _, rfl, [], by simp, by simp⟩

theorem State.takeReads_extends (s : State) (ds : List ReadDraw) (h : ds <:+ s.env.reads) :
    s.Extends { s with env := { s.env with reads := ds } } :=
  ⟨rfl, rfl, rfl, BitVec.le_refl _, List.suffix_refl _, h, List.suffix_refl _, List.suffix_refl _,
    List.prefix_refl _, List.prefix_refl _, rfl, [], by simp, by simp⟩

theorem State.handOver_extends (s : State) (bs : Bytes) : s.Extends (s.handOver bs) :=
  ⟨rfl, rfl, rfl, BitVec.le_refl _, List.suffix_refl _, List.suffix_refl _, List.suffix_refl _, List.suffix_refl _,
    List.prefix_refl _, List.prefix_append _ _, rfl, [], by simp, by simp⟩

theorem State.readAndFeed_extends (s : State) (n : Nat) : s.Extends (s.readAndFeed n) := by
  have h := State.readNow_extends { s with env := { s.env with rx := s.env.rx.drop (s.readCount n) } }
  refine State.Extends.trans ?_ (h.trans (State.Extends.inner rfl rfl rfl rfl))
  exact ⟨rfl, rfl, rfl, BitVec.le_refl _, List.drop_suffix _ _, List.suffix_refl _, List.suffix_refl _, List.suffix_refl _,
    List.prefix_refl _, List.prefix_refl _, rfl, [], by simp, by simp⟩

/-- The state an outcome of a transmit action leaves. -/
def TxOutcome.state : TxOutcome → State
  | .done s => s
  | .blocked s => s
  | .failed s => s

theorem State.portWrite_extends (s : State) : s.Extends s.portWrite.state := by
  have h := s.portWrite_effect
  generalize s.portWrite = o at h
  cases h with
  | nothingLeft h => exact .refl s
  | whole ws hu h =>
    refine (s.takeWrites_extends ws ?_).trans (State.handOver_extends _ _)
    rcases h with ⟨h, rfl⟩ | h
    · exact List.nil_suffix
    · rw [h]; exact List.suffix_cons _ _
  | failed k ws hu h =>
    refine (s.takeWrites_extends ws ?_).trans (State.handOver_extends _ _); rw [h]; exact List.suffix_cons _ _
  | blocked k ws hu h =>
    refine (s.takeWrites_extends ws ?_).trans (State.handOver_extends _ _); rw [h]; exact List.suffix_cons _ _

theorem State.portFlush_extends (s : State) : s.Extends s.portFlush.state := by
  rcases s.portFlush_cases with ⟨ws, h, he⟩ | ⟨k, ws, h, he⟩ | ⟨k, ws, h, he⟩ <;> rw [he]
  · refine (s.takeWrites_extends ws ?_).trans ?_
    · rcases h with ⟨h, rfl⟩ | h
      · exact List.nil_suffix
      · rw [h]; exact List.suffix_cons _ _
    · exact ⟨rfl, rfl, rfl, BitVec.le_refl _, List.suffix_refl _, List.suffix_refl _, List.suffix_refl _, List.suffix_refl _,
        List.prefix_refl _, List.prefix_append _ _, rfl, [], by simp [TxOutcome.state], by simp [TxOutcome.state]⟩
  · refine s.takeWrites_extends ws ?_; rw [h]; exact List.suffix_cons _ _
  · refine s.takeWrites_extends ws ?_; rw [h]; exact List.suffix_cons _ _

end Sys2Proof.Machine
end

