-- ==== Sys2Proof/Laws/Arbiter.lean ====
section
/-! SUPPORT. What the arbiter's operations do, said once: popping and logging, the drain of the queue, the wait loop
and the transmit path. -/

namespace Sys2Proof.Machine

theorem State.withRecords_append (s : State) (a b : List LogRecord) :
    (s.withRecords a).withRecords b = s.withRecords (a ++ b) := by
  obtain ⟨p, d, r, e, out, q⟩ := s
  simp only [State.withRecords]
  cases p.logSink <;> cases p.pktLogSink <;> simp

theorem State.withRecords_nil (s : State) : s.withRecords [] = s := by
  obtain ⟨p, d, a, e, ⟨r, t, l, k, x⟩, q⟩ := s
  simp only [State.withRecords]
  cases p.logSink <;> cases p.pktLogSink <;> simp

/-- R113: one record, as a list of one. -/
theorem State.logRec_eq (s : State) (r : LogRecord) : s.logRec r = s.withRecords [r] := by
  simp only [State.logRec, State.withRecords]
  cases h : packetRecord r <;> simp [h]

theorem popRecords_append (seen : Bool) (a b : List Event) :
    popRecords seen (a ++ b) = popRecords seen a ++ popRecords (seen || a.any Event.isPacket) b := by
  induction a generalizing seen with
  | nil => simp [popRecords]
  | cons e a ih => cases e <;> cases seen <;> simp [popRecords, ih, Event.isPacket]

/-- R225: what popping one event does. -/
theorem State.popAndLog_eq (s : State) (e : Event) (d : Demux) :
    s.popAndLog e d
      = State.withRecords { s with demux := d, arb := { s.arb with seenValid := s.arb.seenValid || e.isPacket } }
          (popRecords s.arb.seenValid [e]) := by
  obtain ⟨p, d0, ⟨as, op, pc, pi, dl, tb, sv, tm, tx, ir⟩, en, out, po⟩ := s
  cases e <;> cases sv <;>
    simp [State.popAndLog, State.logPopped, State.logRec_eq, Event.isPacket, popRecords, State.withRecords]
  all_goals cases p.logSink <;> cases p.pktLogSink <;> simp [← List.filterMap_append]

theorem State.popAll_nil (s : State) : s.popAll [] s.demux.evq = s := by
  simp only [State.popAll, popRecords, State.withRecords_nil]
  simp

theorem State.popAll_cons (s : State) (e : Event) (l rest : List Event) :
    (s.popAndLog e { s.demux with evq := l ++ rest }).popAll l rest = s.popAll (e :: l) rest := by
  rw [State.popAndLog_eq]
  simp only [State.popAll, State.withRecords_demux, State.withRecords_arb]
  rw [show e :: l = [e] ++ l from rfl, popRecords_append]
  rw [← State.withRecords_append]
  simp only [List.any_append, List.any_cons, List.any_nil, Bool.or_false, Bool.or_assoc]
  rfl

/-- `Classify` does not look at the flag that popping sets. -/
theorem classify_seenValid (a : Arbiter) (b : Bool) : classify { a with seenValid := b } = classify a := rfl

/-- R224 W1: events that are no answer are popped, logged and discarded in turn. -/
theorem State.drain_discard (pre rest : List Event) (n : Nat) (s : State) (hq : s.demux.evq = pre ++ rest)
    (hc : ∀ e ∈ pre, classify s.arb e = none) : s.drain (pre.length + n) = (s.popAll pre rest).drain n := by
  induction pre generalizing s with
  | nil =>
    simp only [List.nil_append] at hq
    rw [← hq, State.popAll_nil]; simp
  | cons e pre ih =>
    rw [← State.popAll_cons, ← ih]
    · rw [List.length_cons, show pre.length + 1 + n = pre.length + n + 1 by omega, State.drain]
      simp only [Demux.pop, hq, List.cons_append]
      rw [hc e (by simp)]
    · rw [State.popAndLog_eq]; rfl
    · intro x hx
      rw [State.popAndLog_eq]
      simp only [State.withRecords_arb]
      rw [classify_seenValid]; exact hc x (by simp [hx])

/-- R224 W1: a queue without an answer is emptied. -/
theorem State.drain_none (s : State) (hc : ∀ e ∈ s.demux.evq, classify s.arb e = none) :
    s.drain s.demux.evq.length = (false, s.popAll s.demux.evq []) := by
  have := State.drain_discard s.demux.evq [] 0 s (by simp) hc
  rw [Nat.add_zero] at this
  rw [this]; rfl

/-- R224 W1: the first event that is an answer ends the command. -/
theorem State.drain_answer (s : State) (pre es : List Event) (e : Event) (r : Result)
    (hq : s.demux.evq = pre ++ e :: es) (hc : ∀ x ∈ pre, classify s.arb x = none) (he : classify s.arb e = some r) :
    s.drain s.demux.evq.length = (true, (s.popAll (pre ++ [e]) es).finish r) := by
  have hl : s.demux.evq.length = pre.length + (es.length + 1) := by rw [hq]; simp
  rw [hl, State.drain_discard pre (e :: es) _ s hq hc, State.drain]
  have h1 : classify (s.popAll pre (e :: es)).arb e = some r := by
    rw [← he]; simp only [State.popAll, State.withRecords_arb]; rw [classify_seenValid]
  simp only [Demux.pop, State.popAll, State.withRecords_demux, State.withRecords_arb] at h1 ⊢
  rw [h1]
  simp only [State.popAndLog_eq, State.withRecords_arb]
  rw [popRecords_append, ← State.withRecords_append]
  simp only [List.any_append, List.any_cons, List.any_nil, Bool.or_false, Bool.or_assoc]
  rfl

/-- W1 and W2 of R224 with no read outstanding and no answer queued. -/
theorem State.beforeRead_quiet (s : State) (hr : s.arb.inRead = false)
    (hc : ∀ e ∈ s.demux.evq, classify s.arb e = none) :
    s.beforeRead
      = if s.arb.deadline ≤ (s.popAll s.demux.evq []).readNow.1.toNat
        then (true, (s.popAll s.demux.evq []).readNow.2.finish timeoutResult)
        else (false, (s.popAll s.demux.evq []).readNow.2) := by
  simp only [State.beforeRead, hr, State.drain_none s hc, State.readNow_arb]
  rfl

/-- W1 of R224 with an answer queued. -/
theorem State.beforeRead_answer (s : State) (pre es : List Event) (e : Event) (r : Result) (hr : s.arb.inRead = false)
    (hq : s.demux.evq = pre ++ e :: es) (hc : ∀ x ∈ pre, classify s.arb x = none) (he : classify s.arb e = some r) :
    s.beforeRead = (true, (s.popAll (pre ++ [e]) es).finish r) := by
  simp only [State.beforeRead, hr, State.drain_answer s pre es e r hq hc he]
  rfl

/-- R224: a wait that ends before its next read does not look at how that read would end. -/
theorem State.waitLoop_done (ds : List ReadDraw) (s t : State) (h : s.beforeRead = (true, t)) :
    State.waitLoop ds s = t := by
  cases ds with
  | nil => simp only [State.waitLoop, h]
  | cons d ds => cases d <;> simp only [State.waitLoop, h]

/-- What a wait can come to, with the states it passes: an end before a read, a failed read, an outstanding read, a
read that ends the step, or a read after which the wait goes on. -/
inductive State.WaitRun : List ReadDraw → State → State → Prop where
  | ended {ds s t} : s.beforeRead = (true, t) → WaitRun ds s t
  | lastRead {s t} : s.beforeRead = (false, t) → WaitRun [] s (t.readReturns [] t.params.readMax)
  | failed {ds s t} : s.beforeRead = (false, t) →
      WaitRun (.fail :: ds) s { t with env := { t.env with reads := ds } }.transportError
  | paused {ds s t} : s.beforeRead = (false, t) →
      WaitRun (.pause :: ds) s { t with env := { t.env with reads := ds }, arb := { t.arb with inRead := true } }
  | again {n ds s t u} : s.beforeRead = (false, t) → WaitRun ds (t.readReturns ds n) u → WaitRun (.got n :: ds) s u

/-- R224: everything the wait loop can do. -/
theorem State.waitLoop_run (ds : List ReadDraw) (s : State) : State.WaitRun ds s (State.waitLoop ds s) := by
  induction ds generalizing s with
  | nil =>
    rcases hb : s.beforeRead with ⟨b, t⟩
    cases b <;> simp only [State.waitLoop, hb]
    · exact .lastRead hb
    · exact .ended hb
  | cons d ds ih =>
    rcases hb : s.beforeRead with ⟨b, t⟩
    cases d <;> cases b <;> simp only [State.waitLoop, hb]
    · exact .again hb (ih _)
    · exact .ended hb
    · exact .failed hb
    · exact .ended hb
    · exact .paused hb
    · exact .ended hb

/-- Everything W1 and W2 of R224 can do: nothing with a read outstanding, an answer, or the queue emptied and the clock
read, before the deadline or not. -/
theorem State.beforeRead_cases (s : State) :
    (s.arb.inRead = true ∧ s.beforeRead = (false, s)) ∨
    (s.arb.inRead = false ∧ ∃ pre e es r, s.demux.evq = pre ++ e :: es ∧ (∀ x ∈ pre, classify s.arb x = none) ∧
      classify s.arb e = some r ∧ s.beforeRead = (true, (s.popAll (pre ++ [e]) es).finish r)) ∨
    (s.arb.inRead = false ∧ (∀ x ∈ s.demux.evq, classify s.arb x = none) ∧
      s.arb.deadline ≤ (s.popAll s.demux.evq []).readNow.1.toNat ∧
      s.beforeRead = (true, (s.popAll s.demux.evq []).readNow.2.finish timeoutResult)) ∨
    (s.arb.inRead = false ∧ (∀ x ∈ s.demux.evq, classify s.arb x = none) ∧
      (s.popAll s.demux.evq []).readNow.1.toNat < s.arb.deadline ∧
      s.beforeRead = (false, (s.popAll s.demux.evq []).readNow.2)) := by
  cases hr : s.arb.inRead
  · right
    by_cases hc : ∀ x ∈ s.demux.evq, classify s.arb x = none
    · right
      rw [State.beforeRead_quiet s hr hc]
      split
      · left; exact ⟨rfl, hc, by assumption, rfl⟩
      · right; exact ⟨rfl, hc, by omega, rfl⟩
    · left
      obtain ⟨pre, e, es, hq, hp, he⟩ : ∃ pre e es, s.demux.evq = pre ++ e :: es ∧
          (∀ x ∈ pre, classify s.arb x = none) ∧ classify s.arb e ≠ none := by
        generalize s.demux.evq = q at hc
        induction q with
        | nil => simp at hc
        | cons x q ih =>
          by_cases hx : classify s.arb x = none
          · obtain ⟨pre, e, es, rfl, h1, h2⟩ := ih (by simpa [hx] using hc)
            exact ⟨x :: pre, e, es, rfl, by simpa [hx] using h1, h2⟩
          · exact ⟨[], x, q, rfl, by simp, hx⟩
      obtain ⟨r, hr'⟩ := Option.ne_none_iff_exists'.1 he
      exact ⟨rfl, pre, e, es, r, hq, hp, hr', State.beforeRead_answer s pre es e r hr hq hp hr'⟩
  · left
    exact ⟨rfl, by simp [State.beforeRead, hr]⟩

/-- R223: the transmit path when the transport takes the frame. -/
theorem State.transmit_taken (s : State) (ws : List WriteDraw) (hw : takesFrame s.env.writes = some ws)
    (hu : s.unsent ≠ []) :
    s.transmit = State.afterSend (State.logSent
      { s with
        env := { s.env with writes := ws }
        arb := { s.arb with txSent := s.arb.txSent + s.unsent.length }
        out := { s.out with tx := s.out.tx ++ s.unsent.map .byte ++ [.flush] } }) := by
  simp only [State.transmit, State.portWrite, hu, if_false]
  match h : s.env.writes, hw with
  | [], hw => cases hw; simp only [State.portFlush, State.handOver, h]; simp [← h]
  | [.done], hw => cases hw; simp [State.portFlush, State.handOver]
  | .done :: .done :: ws', hw =>
    simp only [takesFrame, Option.some.injEq] at hw; subst hw; simp [State.portFlush, State.handOver]
  | .done :: .fail _ :: _, hw => simp [takesFrame] at hw
  | .done :: .pause _ :: _, hw => simp [takesFrame] at hw
  | .fail _ :: _, hw => simp [takesFrame] at hw
  | .pause _ :: _, hw => simp [takesFrame] at hw

theorem State.popAll_extends (s : State) (popped rest : List Event) : s.Extends (s.popAll popped rest) :=
  ⟨rfl, rfl, rfl, BitVec.le_refl _, List.suffix_refl _, List.suffix_refl _, List.suffix_refl _, List.suffix_refl _,
    List.prefix_refl _, List.prefix_refl _, rfl, popRecords s.arb.seenValid popped,
    by simp only [State.popAll, State.withRecords_out]; split <;> simp,
    by simp only [State.popAll, State.withRecords_out]; split <;> simp⟩

theorem State.beforeRead_extends (s : State) : s.Extends s.beforeRead.2 := by
  rcases s.beforeRead_cases with ⟨_, h⟩ | ⟨_, pre, e, es, r, _, _, _, h⟩ | ⟨_, _, _, h⟩ | ⟨_, _, _, h⟩ <;> rw [h]
  · exact .refl s
  · exact (s.popAll_extends _ _).trans (State.finish_extends _ _)
  · exact ((s.popAll_extends _ _).trans (State.readNow_extends _)).trans (State.finish_extends _ _)
  · exact (s.popAll_extends _ _).trans (State.readNow_extends _)

/-- Popping, logging and reading the clock take no read from the environment. -/
theorem State.beforeRead_reads (s : State) : s.beforeRead.2.env.reads = s.env.reads := by
  rcases s.beforeRead_cases with ⟨_, h⟩ | ⟨_, pre, e, es, r, _, _, _, h⟩ | ⟨_, _, _, h⟩ | ⟨_, _, _, h⟩ <;> rw [h] <;>
    simp [State.popAll]

theorem State.readReturns_extends (s : State) (ds : List ReadDraw) (n : Nat) (h : ds <:+ s.env.reads) :
    s.Extends (s.readReturns ds n) := by
  refine ((s.takeReads_extends ds h).trans ?_).trans (State.readAndFeed_extends _ n)
  exact State.Extends.inner rfl rfl rfl rfl

/-- A wait whose reads' list is the environment's, or begins further on in it, extends its state. -/
theorem State.waitLoop_extends (ds : List ReadDraw) (s : State) (h : ds <:+ s.env.reads) :
    s.Extends (State.waitLoop ds s) := by
  have hw := State.waitLoop_run ds s
  generalize State.waitLoop ds s = u at hw
  induction hw with
  | @ended ds s t hb => have := s.beforeRead_extends; rw [hb] at this; exact this
  | @lastRead s t hb =>
    have := s.beforeRead_extends; rw [hb] at this
    exact this.trans (State.readReturns_extends _ _ _ List.nil_suffix)
  | @failed ds s t hb =>
    have := s.beforeRead_extends; have hr := s.beforeRead_reads; rw [hb] at this hr
    refine (this.trans (State.takeReads_extends _ ds ?_)).trans (State.transportError_extends _)
    simp only at hr; rw [hr]; exact (List.suffix_cons _ _).trans h
  | @paused ds s t hb =>
    have := s.beforeRead_extends; have hr := s.beforeRead_reads; rw [hb] at this hr
    refine (this.trans (State.takeReads_extends _ ds ?_)).trans (State.Extends.inner rfl rfl rfl rfl)
    simp only at hr; rw [hr]; exact (List.suffix_cons _ _).trans h
  | @again n ds s t u hb _ ih =>
    have := s.beforeRead_extends; have hr := s.beforeRead_reads; rw [hb] at this hr
    have hd : ds <:+ t.env.reads := by simp only at hr; rw [hr]; exact (List.suffix_cons _ _).trans h
    refine (this.trans (State.readReturns_extends _ _ n hd)).trans (ih ?_)
    simp [State.readReturns]

theorem State.armDeadline_extends (s : State) : s.Extends s.armDeadline :=
  (State.readNow_extends s).trans (State.Extends.inner rfl rfl rfl rfl)

theorem State.startWait_extends (s : State) : s.Extends s.startWait :=
  (s.armDeadline_extends.trans (State.Extends.inner rfl rfl rfl rfl)).trans
    (State.waitLoop_extends _ _ (List.suffix_refl _))

theorem State.logSent_extends (s : State) : s.Extends s.logSent :=
  ((State.readNow_extends s).trans (State.logRec_extends _ _)).trans (State.Extends.inner rfl rfl rfl rfl)

theorem State.afterSend_extends (s : State) : s.Extends s.afterSend := by
  unfold State.afterSend
  split
  · exact s.startWait_extends
  · exact s.finish_extends _

/-- R223, R237: the transmit path extends its state, whatever its port actions come to. -/
theorem State.transmit_extends (s : State) : s.Extends s.transmit := by
  have hw := s.portWrite_extends
  unfold State.transmit
  cases h : s.portWrite with
  | failed s1 => rw [h] at hw; exact hw.trans s1.transportError_extends
  | blocked s1 => rw [h] at hw; exact hw
  | done s1 =>
    rw [h] at hw
    have hf := s1.portFlush_extends
    dsimp only
    cases h2 : s1.portFlush with
    | failed s2 => rw [h2] at hf; exact (hw.trans hf).trans s2.transportError_extends
    | blocked s2 => rw [h2] at hf; exact hw.trans hf
    | done s2 => rw [h2] at hf; exact ((hw.trans hf).trans s2.logSent_extends).trans (State.afterSend_extends _)

/-- A step in which the command in progress goes on extends the state, and with none in progress changes nothing. -/
theorem State.goOn_extends (s : State) : s.Extends s.goOn := by
  unfold State.goOn
  split
  · exact .refl s
  · exact .refl s
  · exact s.transmit_extends
  · exact State.waitLoop_extends _ _ (List.suffix_refl _)

/-- R221, R328: everything a held command can do to the ports: with commands alone behind it it waits before them; else
the next transfer at another port passes it and the commands between. -/
theorem requeue_cases (x : PortInput) (ps : List PortInput) :
    ((∀ p ∈ ps, p.isCmd = true) ∧ requeue x ps = x :: ps) ∨
    ∃ cs p qs, ps = cs ++ p :: qs ∧ (∀ c ∈ cs, c.isCmd = true) ∧ p.isCmd = false ∧
      requeue x ps = p :: x :: (cs ++ qs) := by
  unfold requeue
  cases h : ps.find? (fun p => !p.isCmd) with
  | none => left; exact ⟨by simpa using h, rfl⟩
  | some p =>
    right
    obtain ⟨hp, cs, qs, rfl, hcs⟩ := List.find?_eq_some_iff_append.1 h
    refine ⟨cs, p, qs, rfl, by simpa using hcs, by simpa using hp, ?_⟩
    simp only [List.eraseP_append_right _ (show ∀ c ∈ cs, ¬ (!c.isCmd) = true by simpa using hcs), List.eraseP_cons, hp,
      cond_true]

/-- R66, R52 (a): a frame row is an arrival on the RX stream, and then what is in progress goes on. -/
theorem State.deliver_eq (s : State) (m : MsgId) (p : Bytes) (ck : Word32) (h : p.length ≤ 65535) :
    s.deliver m p ck = .next (s.arrive (frameBytes m p ck)).goOn := by
  simp [State.deliver, (lengthFits_iff p).2 h]

end Sys2Proof.Machine
end

