-- ==== Sys2Proof/Laws/PerInstr.lean ====
section
/-! SUPPORT. Per-instruction laws: how long an encoding is, one lemma per constructor of `Instr`. -/

namespace Sys2Proof.Laws.EncodeSize

open Sys2Proof Sys2Proof.Machine

/-- The length of an encoding is the one it declares itself: `9 + len` for a command (R114, log entry 1), `10 + L` for a
frame (R61), one byte of the stream (R97), and at least its selector for an operation (log entry 1). -/
def Statement (i : Instr) : Prop :=
  i.WellFormed →
    match formatOf i with
    | .cmd => (encode i).length = 9 + memRead16 (encode i) 3
    | .internal => 1 ≤ (encode i).length
    | .stream1 => (encode i).length = 1
    | .frame => (encode i).length = 10 + memRead16 (encode i) 2

theorem length_le_of_checkPayload {p : Bytes} (h : checkPayload p = none) : p.length ≤ 65535 := by
  unfold checkPayload at h
  split at h
  · rename_i h'; exact of_decide_eq_true h'
  · cases h

theorem encodeCmd_length (op : Byte) (d : Descriptor) (h : checkPayload d.payload = none) :
    (encodeCmd op d).length = 9 + memRead16 (encodeCmd op d) 3 := by
  have hp := length_le_of_checkPayload h
  have h1 : memRead16 (encodeCmd op d) 3 = d.payload.length := by
    simpa [encodeCmd, memRead16, bytesLe16] using le16_byteOf d.payload.length (by omega)
  rw [h1]
  simp [encodeCmd]; omega

theorem frame_length (m : MsgId) (p : Bytes) (ck : Word32) (h : checkPayload p = none) :
    (frameBytes m p ck).length = 10 + memRead16 (frameBytes m p ck) 2 := by
  have h1 := frameBytes_memRead16 m p [] ck (length_le_of_checkPayload h)
  rw [List.append_nil] at h1
  rw [h1, frameBytes_length]

theorem send (d : Descriptor) : Statement (.send d) := fun h => encodeCmd_length _ d h
theorem receivePacket (d : Descriptor) : Statement (.receivePacket d) := fun h => encodeCmd_length _ d h
theorem receive (d : Descriptor) : Statement (.receive d) := fun h => encodeCmd_length _ d h
theorem sendAndWaitAck (d : Descriptor) : Statement (.sendAndWaitAck d) := fun h => encodeCmd_length _ d h
theorem poll (d : Descriptor) : Statement (.poll d) := fun h => encodeCmd_length _ d h
theorem reservedOp0 (d : Descriptor) : Statement (.reservedOp0 d) := fun h => encodeCmd_length _ d h
theorem reservedOp6 (d : Descriptor) : Statement (.reservedOp6 d) := fun h => encodeCmd_length _ d h
theorem reservedOp7 (d : Descriptor) : Statement (.reservedOp7 d) := fun h => encodeCmd_length _ d h

theorem checksum (c i : Byte) (p : Bytes) : Statement (.checksum c i p) := fun _ => by simp [formatOf, encode]
theorem pack (c i : Byte) (p : Bytes) : Statement (.pack c i p) := fun _ => by simp [formatOf, encode]
theorem unpack (buf : Bytes) : Statement (.unpack buf) := fun _ => by simp [formatOf, encode]
theorem feedByte (b : Byte) (ts : Time) : Statement (.feedByte b ts) := fun _ => by simp [formatOf, encode]
theorem feedEnd : Statement .feedEnd := fun _ => by simp [formatOf, encode]
theorem feed (c : Bytes) (ts : Time) : Statement (.feed c ts) := fun _ => by simp [formatOf, encode]
theorem popEvent : Statement .popEvent := fun _ => by simp [formatOf, encode]

theorem idleSync1 : Statement .idleSync1 := fun _ => rfl
theorem idleNmeaStart : Statement .idleNmeaStart := fun _ => rfl
theorem idleUnknown (b : Byte) : Statement (.idleUnknown b) := fun _ => rfl

theorem casicFrame (m : MsgId) (p : Bytes) (ck : Word32) : Statement (.casicFrame m p ck) := fun h => by
  simp only [Instr.WellFormed, Instr.check] at h
  split at h
  · cases h
  · exact frame_length m p ck h
theorem ackNak (p : Bytes) (ck : Word32) : Statement (.ackNak p ck) := fun h => frame_length .ackNak p ck h
theorem ackAck (p : Bytes) (ck : Word32) : Statement (.ackAck p ck) := fun h => frame_length .ackAck p ck h
theorem monVer (p : Bytes) (ck : Word32) : Statement (.monVer p ck) := fun h => frame_length .monVer p ck h
theorem cfgPrt (p : Bytes) (ck : Word32) : Statement (.cfgPrt p ck) := fun h => frame_length .cfgPrt p ck h
theorem cfgMsg (p : Bytes) (ck : Word32) : Statement (.cfgMsg p ck) := fun h => frame_length .cfgMsg p ck h
theorem cfgRst (p : Bytes) (ck : Word32) : Statement (.cfgRst p ck) := fun h => frame_length .cfgRst p ck h
theorem cfgTp (p : Bytes) (ck : Word32) : Statement (.cfgTp p ck) := fun h => frame_length .cfgTp p ck h
theorem cfgRate (p : Bytes) (ck : Word32) : Statement (.cfgRate p ck) := fun h => frame_length .cfgRate p ck h
theorem cfgCfg (p : Bytes) (ck : Word32) : Statement (.cfgCfg p ck) := fun h => frame_length .cfgCfg p ck h
theorem cfgTmode (p : Bytes) (ck : Word32) : Statement (.cfgTmode p ck) := fun h => frame_length .cfgTmode p ck h
theorem cfgNavx (p : Bytes) (ck : Word32) : Statement (.cfgNavx p ck) := fun h => frame_length .cfgNavx p ck h

end Sys2Proof.Laws.EncodeSize
end

