-- ==== Sys2Proof/Tests/Slice0.lean ====
section
/-! SUPPORT. Tests: the smoke test of `WellFormed`, words written out from the encodings, one-step vectors of
`95_test_vectors.md`, and for every statement with hypotheses a state and operands that meet them. -/

namespace Sys2Proof.Tests

open Sys2Proof Sys2Proof.Machine

/-! ### WellFormed: an ill-formed term for each check -/

theorem checkPayload_zeros (n : Nat) :
    checkPayload (zeros n) = if n ≤ 65535 then none else some .payloadTooLong := by
  simp only [checkPayload, lengthFits, Config.maxLength, zeros, List.length_replicate, decide_eq_true_iff]

theorem test_wf_refuses_a_payload_of_65536_bytes :
    (Instr.pack 0 0 (zeros 65536)).check = some .payloadTooLong ∧
    (Instr.send ⟨0, 0, zeros 65536, 0⟩).check = some .payloadTooLong ∧
    (Instr.cfgPrt (zeros 65536) 0).check = some .payloadTooLong :=
  have h := (checkPayload_zeros 65536).trans (if_neg (by omega))
  ⟨h, h, h⟩

theorem test_wf_accepts_a_payload_of_65535_bytes :
    (Instr.pack 0 0 (zeros 65535)).WellFormed ∧ (Instr.send ⟨0, 0, zeros 65535, 0⟩).WellFormed :=
  have h := (checkPayload_zeros 65535).trans (if_pos (by omega))
  ⟨h, h⟩

theorem test_wf_refuses_a_trigger_as_unknown_byte :
    (Instr.idleUnknown 0xBA).check = some .triggerAsUnknown ∧
    (Instr.idleUnknown 0x24).check = some .triggerAsUnknown ∧
    (Instr.idleUnknown 0xCE).WellFormed := by decide

theorem test_wf_refuses_a_named_message_as_generic_frame :
    (Instr.casicFrame ⟨0x05, 0x01⟩ [] 0).check = some .namedAsGeneric ∧
    (Instr.casicFrame ⟨0x06, 0x07⟩ [] 0).check = some .namedAsGeneric ∧
    (Instr.casicFrame ⟨0x06, 0x08⟩ [] 0).WellFormed := by decide

/-! ### Decoding: words written out from R114 and log entry 1, R97 and R90 -/

/-- R114, R115: `op`, `class`, `id`, `len` low first, payload, `timeout` low first. -/
theorem test_decode_send :
    decode .cmd [0x01, 0x06, 0x04, 0x04, 0x00, 0xE8, 0x03, 0x00, 0x00, 0, 0, 0, 0]
      = .ok (.send ⟨0x06, 0x04, [0xE8, 0x03, 0x00, 0x00], 0⟩) := by decide
theorem test_decode_receivePacket :
    decode .cmd [0x02, 0, 0, 0, 0, 0x64, 0, 0, 0] = .ok (.receivePacket ⟨0, 0, [], 100⟩) := by decide
theorem test_decode_receive :
    decode .cmd [0x03, 0, 0, 0, 0, 0x00, 0x01, 0, 0] = .ok (.receive ⟨0, 0, [], 256⟩) := by decide
theorem test_decode_sendAndWaitAck :
    decode .cmd [0x04, 0x06, 0x04, 0x01, 0x00, 0xAA, 0x01, 0x02, 0x03, 0x04]
      = .ok (.sendAndWaitAck ⟨0x06, 0x04, [0xAA], 0x04030201⟩) := by decide
theorem test_decode_poll :
    decode .cmd [0x05, 0x0A, 0x04, 0, 0, 0xF4, 0x01, 0, 0] = .ok (.poll ⟨0x0A, 0x04, [], 500⟩) := by decide
theorem test_decode_reservedOps :
    decode .cmd [0x00, 0, 0, 0, 0, 0, 0, 0, 0] = .ok (.reservedOp0 ⟨0, 0, [], 0⟩) ∧
    decode .cmd [0x06, 0, 0, 0, 0, 0, 0, 0, 0] = .ok (.reservedOp6 ⟨0, 0, [], 0⟩) ∧
    decode .cmd [0x07, 0, 0, 0, 0, 0, 0, 0, 0] = .ok (.reservedOp7 ⟨0, 0, [], 0⟩) := by decide
theorem test_decode_rejects_by_name :
    decode .cmd [0x08, 0, 0, 0, 0, 0, 0, 0, 0] = .reject .badOp ∧
    decode .cmd [0x01, 0, 0, 1, 0, 0, 0, 0, 0] = .reject .badLength ∧
    decode .internal [0x07] = .reject .badSelector ∧
    decode .frame [0xBA, 0xCF, 0, 0, 0, 0, 0, 0, 0, 0] = .reject .badSync ∧
    decode .stream1 [] = .reject .badLength := by decide
theorem test_decode_checksum :
    decode .internal [0x00, 0x05, 0x01, 0x06, 0x04] = .ok (.checksum 0x05 0x01 [0x06, 0x04]) := by decide
theorem test_decode_pack :
    decode .internal [0x01, 0x06, 0x00] = .ok (.pack 0x06 0x00 []) := by decide
theorem test_decode_unpack :
    decode .internal [0x02, 0xBA, 0xCE] = .ok (.unpack [0xBA, 0xCE]) := by decide
theorem test_decode_feedByte :
    decode .internal [0x03, 0xBA, 0x07, 0, 0, 0, 0, 0, 0, 0x80] = .ok (.feedByte 0xBA 0x8000000000000007) := by decide
theorem test_decode_feedEnd : decode .internal [0x04] = .ok .feedEnd := by decide
theorem test_decode_feed :
    decode .internal [0x05, 0x07, 0, 0, 0, 0, 0, 0, 0, 0x11, 0x22] = .ok (.feed [0x11, 0x22] 7) := by decide
theorem test_decode_popEvent : decode .internal [0x06] = .ok .popEvent := by decide
/-- R97. -/
theorem test_decode_stream :
    decode .stream1 [0xBA] = .ok .idleSync1 ∧ decode .stream1 [0x24] = .ok .idleNmeaStart ∧
    decode .stream1 [0xCE] = .ok (.idleUnknown 0xCE) ∧ decode .stream1 [0x0A] = .ok (.idleUnknown 0x0A) := by decide
/-- R90, R98: a class with no row, V-PK-9. -/
theorem test_decode_casicFrame :
    decode .frame [0xBA, 0xCE, 0x05, 0, 0x01, 0x02, 0xFF, 0xFF, 0xFF, 0xFF, 0x01, 0x05, 0, 0x01, 0x02]
      = .ok (.casicFrame ⟨0x01, 0x02⟩ [0xFF, 0xFF, 0xFF, 0xFF, 0x01] 0x02010005) := by decide
/-- V-PK-3, V-PK-2. -/
theorem test_decode_acks :
    decode .frame [0xBA, 0xCE, 0x02, 0, 0x05, 0x00, 0x0A, 0x04, 0x0C, 0x04, 0x05, 0x00]
      = .ok (.ackNak [0x0A, 0x04] 0x0005040C) ∧
    decode .frame [0xBA, 0xCE, 0x02, 0, 0x05, 0x01, 0x06, 0x04, 0x08, 0x04, 0x05, 0x01]
      = .ok (.ackAck [0x06, 0x04] 0x01050408) := by decide
/-- R99: class and id at offsets 4 and 5. -/
theorem test_decode_monVer :
    decode .frame [0xBA, 0xCE, 0, 0, 0x0A, 0x04, 0, 0, 0x0A, 0x04] = .ok (.monVer [] 0x040A0000) := by decide
theorem test_decode_cfg_rows :
    decode .frame [0xBA, 0xCE, 0, 0, 0x06, 0x00, 0, 0, 0x06, 0x00] = .ok (.cfgPrt [] 0x00060000) ∧
    decode .frame [0xBA, 0xCE, 0, 0, 0x06, 0x01, 0, 0, 0x06, 0x01] = .ok (.cfgMsg [] 0x01060000) ∧
    decode .frame [0xBA, 0xCE, 0, 0, 0x06, 0x02, 0, 0, 0x06, 0x02] = .ok (.cfgRst [] 0x02060000) ∧
    decode .frame [0xBA, 0xCE, 0, 0, 0x06, 0x03, 0, 0, 0x06, 0x03] = .ok (.cfgTp [] 0x03060000) ∧
    decode .frame [0xBA, 0xCE, 0, 0, 0x06, 0x04, 0, 0, 0x06, 0x04] = .ok (.cfgRate [] 0x04060000) ∧
    decode .frame [0xBA, 0xCE, 0, 0, 0x06, 0x05, 0, 0, 0x06, 0x05] = .ok (.cfgCfg [] 0x05060000) ∧
    decode .frame [0xBA, 0xCE, 0, 0, 0x06, 0x06, 0, 0, 0x06, 0x06] = .ok (.cfgTmode [] 0x06060000) ∧
    decode .frame [0xBA, 0xCE, 0, 0, 0x06, 0x07, 0, 0, 0x06, 0x07] = .ok (.cfgNavx [] 0x07060000) := by decide
/-- R90: a length field of two bytes, low first. -/
theorem test_decode_frame_length_must_agree :
    decode .frame [0xBA, 0xCE, 0, 1, 0x06, 0x00, 0, 0, 0x06, 0x00] = .reject .badLength := by decide

/-! ### One step each -/

/-- The state a meaning answers, if it is a next state. -/
def next? (a : Answer) : Option State :=
  match a with
  | .next t => some t
  | .fault _ => none
  | .refused _ => none

/-- The test access's last answer. -/
def answer? (a : Answer) : Option TestAnswer := (next? a).bind fun t => t.out.test.getLast?

/-- The events queued after an instruction. -/
def queue? (a : Answer) : Option (List Event) := (next? a).map fun t => t.demux.evq

/-- A state after reset with a queue and an environment. -/
def withEnv (evq : List Event) (env : Env) : State :=
  { State.reset with demux := { Demux.fresh with evq := evq }, env := env }

/-- An environment with no scripted reads, writes or clock. -/
def quiet (now : Time) : Env := { now := now, clock := [], rx := [], reads := [], writes := [] }

/-- V-CK-7: three pad bytes. -/
theorem test_checksum_pads :
    answer? (exec (.checksum 0x06 0x01 [1, 2, 3, 4, 5]) State.reset) = some (.checksum 0x0509020B) := by decide
/-- V-CK-9: two carries out of bit 31. -/
theorem test_checksum_wraps :
    answer? (exec (.checksum 0xFF 0xFF [255, 255, 255, 255, 255, 255, 255, 255]) State.reset)
      = some (.checksum 0xFFFF0006) := by decide
/-- S1. -/
theorem test_pack_empty :
    answer? (exec (.pack 0x06 0x00 []) State.reset)
      = some (.packed [0xBA, 0xCE, 0, 0, 0x06, 0, 0, 0, 0x06, 0]) := by decide
/-- V-PK-6: no pad on the wire. -/
theorem test_pack_three_bytes :
    answer? (exec (.pack 0x06 0x01 [1, 2, 3]) State.reset)
      = some (.packed [0xBA, 0xCE, 3, 0, 0x06, 0x01, 1, 2, 3, 0x04, 0x02, 0x09, 0x01]) := by decide
/-- V-UP-1, V-UP-6: bytes after the frame are ignored. -/
theorem test_unpack_ignores_the_rest :
    answer? (exec (.unpack [0xBA, 0xCE, 4, 0, 0x06, 0x04, 0xE8, 3, 0, 0, 0xEC, 3, 6, 4, 0x99, 0x98]) State.reset)
      = some (.unpacked (.ok ⟨0x06, 0x04⟩ [0xE8, 3, 0, 0])) := by decide
/-- V-UP-8, V-UP-7, V-UP-3, V-UP-5. -/
theorem test_unpack_codes :
    unpackCode (unpack [0, 0, 0, 0, 0, 0, 0, 0, 0]) = 1 ∧
    unpackCode (unpack [0xBA, 0xCF, 0, 0, 6, 0, 0, 0, 6, 0]) = 2 ∧
    unpackCode (unpack [0xBA, 0xCE, 4, 0, 6, 4, 0xE8, 3, 0, 0, 0xEC, 3, 6]) = 3 ∧
    unpackCode (unpack [0xBA, 0xCE, 4, 0, 6, 4, 0xE8, 3, 0, 0, 0xEC, 3, 6, 5]) = 4 := by decide
/-- R172's example. -/
theorem test_feedByte_flushes_the_run :
    queue? (exec (.feedByte 0xBA 7) { State.reset with demux := { Demux.fresh with unk := [0x11], unkTs := 5 } })
      = some [.unknownBytes [0x11] 5] := by decide
/-- R175's example: a declared length of 4097. -/
theorem test_feedByte_abandons_the_header :
    queue? (exec (.feedByte 0x10 9) { State.reset with demux :=
        { Demux.fresh with pstate := .lenLo, acc := [0xBA, 0xCE, 1], lenLo := 1, accTs := 3 } })
      = some [.unknownBytes [0xBA, 0xCE, 1, 0x10] 3] := by decide
/-- R179's example. -/
theorem test_feedEnd :
    queue? (exec .feedEnd { State.reset with demux := { Demux.fresh with unk := [0x11, 0x22], unkTs := 100 } })
      = some [.unknownBytes [0x11, 0x22] 100] := by decide
/-- S6. -/
theorem test_feed_resync :
    queue? (exec (.feed [0xBA, 0xBA, 0xCE, 0, 0, 6, 0, 0, 0, 6, 0] 7) State.reset)
      = some [.unknownBytes [0xBA] 7, .casicPacket ⟨6, 0⟩ [] 7 [0xBA, 0xCE, 0, 0, 6, 0, 0, 0, 6, 0]] := by decide
/-- V-DMX-6. -/
theorem test_feed_sentence_after_a_lone_sync :
    queue? (exec (.feed [0xBA, 0x24, 0x41, 0x0A] 1) State.reset)
      = some [.unknownBytes [0xBA] 1, .nmeaSentence [0x24, 0x41, 0x0A] 1] := by decide
/-- R181's example. -/
theorem test_popEvent :
    answer? (exec .popEvent (withEnv [.unknownBytes [0xBA] 7, .nmeaSentence [0x24, 0x0A] 8] (quiet 0)))
      = some (.popped (some (.unknownBytes [0xBA] 7))) ∧
    answer? (exec .popEvent State.reset) = some (.popped none) := by decide
/-- The environment of a caller at the `feed` port that supplies two timestamps, beside a clock that would show 50. -/
def stamping : Env := { quiet 9 with clock := [50], stamps := [7, 3] }
/-- R172, R182: the byte is stamped by its caller; R170, R380: the clock is not read. -/
theorem test_idleSync1 :
    (next? (exec .idleSync1 (withEnv [] stamping))).map
        (fun t => (t.demux.pstate, t.demux.acc, t.demux.accTs, t.env.stamps, t.env.now))
      = some (.sync1, [0xBA], 7, [3], 9) := by decide
theorem test_idleNmeaStart :
    (next? (exec .idleNmeaStart (withEnv [] stamping))).map
        (fun t => (t.demux.pstate, t.demux.acc, t.demux.accTs, t.env.clock))
      = some (.nmea, [0x24], 7, [50]) := by decide
theorem test_idleUnknown :
    (next? (exec (.idleUnknown 0xCE) (withEnv [] stamping))).map (fun t => (t.demux.pstate, t.demux.unk, t.demux.unkTs))
      = some (.idle, [0xCE], 7) := by decide

/-- V-ARB-1. -/
theorem test_send :
    (next? (exec (.send ⟨6, 0, [], 0⟩) State.reset)).map (fun t => (t.out.tx, t.out.rsp, t.out.log.length))
      = some ([0xBA, 0xCE, 0, 0, 6, 0, 0, 0, 6, 0].map TxItem.byte ++ [.flush], [okResult], 1) := by decide
/-- V-ARB-3: a queued event before the deadline. -/
theorem test_receivePacket_queued :
    (next? (exec (.receivePacket ⟨0, 0, [], 0⟩) (withEnv [.nmeaSentence [0x24, 0x0A] 5] (quiet 50)))).map
        (fun t => (t.out.rsp, t.demux.evq))
      = some ([⟨.ok, false, true, some .sentence, none, [0x24, 0x0A], [], some 5⟩], []) := by decide
/-- V-ARB-2. -/
theorem test_receivePacket_times_out :
    (next? (exec (.receivePacket ⟨0, 0, [], 0⟩) (withEnv [] (quiet 50)))).map (fun t => (t.out.rsp, t.arb.deadline))
      = some ([timeoutResult], 50) := by decide
/-- V-ARB-4: the sentence is popped, logged and discarded. -/
theorem test_receive_discards_a_sentence :
    (next? (exec (.receive ⟨0, 0, [], 0⟩) (withEnv [.nmeaSentence [0x24, 0x0A] 5] (quiet 50)))).map
        (fun t => (t.out.rsp, t.demux.evq, t.out.log.map LogEntry.record))
      = some ([timeoutResult], [], [.received (.nmeaSentence [0x24, 0x0A] 5)]) := by decide
/-- R225: the one-time record is logged second, at `INFO`. -/
theorem test_first_valid_is_info :
    (next? (exec (.receive ⟨0, 0, [], 0⟩) (withEnv [.casicPacket ⟨5, 1⟩ [6, 4] 3 []] (quiet 0)))).map
        (fun t => t.out.log.drop 1)
      = some [⟨.info, .firstValid ⟨5, 1⟩⟩] := by decide
/-- V-ARB-5. -/
theorem test_receive_reads_the_port :
    (next? (exec (.receive ⟨0, 0, [], 100⟩) (withEnv []
        { now := 0, clock := [0, 0, 30], reads := [.got 14], writes := []
          rx := [0x11, 0x22, 0xBA, 0xCE, 2, 0, 5, 1, 6, 4, 8, 4, 5, 1] }))).map
        (fun t => (t.out.rsp, t.out.log.length, t.arb.seenValid))
      = some ([⟨.ok, false, true, some .packet, some ⟨5, 1⟩, [6, 4], [], some 30⟩], 3, true) := by decide
/-- P3's answer: an acknowledgement of four bytes. -/
theorem test_sendAndWaitAck :
    (next? (exec (.sendAndWaitAck ⟨6, 4, [0xE8, 3, 0, 0], 1000⟩) (withEnv []
        { now := 0, clock := [10, 15, 20, 30], reads := [.got 14], writes := []
          rx := [0xBA, 0xCE, 4, 0, 5, 1, 6, 4, 0, 0, 0x0A, 4, 5, 1] }))).map
        (fun t => (t.out.rsp, t.arb.deadline, t.out.tx.length))
      = some ([okResult], 1015, 15) := by decide
/-- V-ARB-8: a short acknowledgement never matches. -/
theorem test_sendAndWaitAck_short_ack :
    (next? (exec (.sendAndWaitAck ⟨6, 4, [], 100⟩) (withEnv []
        { now := 0, clock := [10, 10, 10, 40, 40, 80, 80, 120], reads := [.got 11, .got 0, .got 0], writes := []
          rx := [0xBA, 0xCE, 1, 0, 5, 1, 6, 7, 0, 5, 1] }))).map (fun t => (t.out.rsp, t.env.now))
      = some ([timeoutResult], 120) := by decide
/-- V-ARB-9: the NAK test is first. -/
theorem test_poll_of_ack_nak :
    (next? (exec (.poll ⟨5, 0, [], 100⟩) (withEnv []
        { now := 0, clock := [10, 10, 10, 40], reads := [.got 12], writes := []
          rx := [0xBA, 0xCE, 2, 0, 5, 0, 5, 0, 7, 0, 5, 0] }))).map (fun t => t.out.rsp)
      = some [nakResult] := by decide
/-- P7, step 3. -/
theorem test_poll_reply :
    (next? (exec (.poll ⟨6, 1, [], 100⟩) (withEnv []
        { now := 0, clock := [10, 10, 10, 40], reads := [.got 14], writes := []
          rx := [0xBA, 0xCE, 4, 0, 6, 1, 0x4E, 0, 1, 0, 0x52, 0, 7, 1] }))).map (fun t => t.out.rsp)
      = some [⟨.ok, false, true, none, some ⟨6, 1⟩, [0x4E, 0, 1, 0], [], some 40⟩] := by decide
/-- V-ARB-6, V-ARB-7. -/
theorem test_refusals :
    (next? (exec (.reservedOp0 ⟨0, 0, [], 0⟩) State.reset)).map (fun t => t.out.rsp) = some [refusedResult] ∧
    (next? (exec (.reservedOp6 ⟨0, 0, [], 0⟩) State.reset)).map (fun t => t.out.rsp) = some [refusedResult] ∧
    (next? (exec (.reservedOp7 ⟨0, 0, [], 0⟩) State.reset)).map (fun t => t.out.rsp) = some [refusedResult] ∧
    (next? (exec (.send ⟨6, 0, [], 0⟩) { State.reset with arb := { Arbiter.fresh with astate := .fault } })).map
      (fun t => (t.out.rsp, t.out.tx)) = some ([refusedResult], []) := by decide
/-- P6, steps 2 and 3: the read that fails. -/
theorem test_transport_error :
    (next? (exec (.receive ⟨0, 0, [], 1000⟩) (withEnv []
        { now := 0, clock := [0, 0, 100], rx := [0xBA, 0xCE, 4], reads := [.got 3, .fail], writes := [] }))).map
        (fun t => (t.arb.astate, t.out.rsp, t.demux.pstate, t.demux.acc))
      = some (.fault, [transportResult], .lenLo, [0xBA, 0xCE, 4]) := by decide
/-- A `RECEIVE_PACKET` in progress whose read is outstanding, and returns at 3 what has come. -/
def listening : State :=
  { State.reset with
    arb := { Arbiter.fresh with astate := .wait, op := 2, deadline := 100, inRead := true }
    env := { now := 3, clock := [], rx := [], reads := [.got 4106], writes := [] } }

/-- What the block answers when a frame row arrives there. -/
def heard (i : Instr) : Option (List Result) := (next? (exec i listening)).map fun t => t.out.rsp

/-- The record of a packet and of an unknown run, stamped 3. -/
def packetHeard (cls id : Byte) (p raw : Bytes) : Result :=
  ⟨.ok, false, true, some .packet, some ⟨cls, id⟩, p, raw, some 3⟩
def unknownHeard (bs : Bytes) : Result := ⟨.ok, false, true, some .unknown, none, bs, [], some 3⟩

/-- V-PK-9 on the wire, and V-UP-12's wrong checksum. -/
theorem test_casicFrame :
    heard (.casicFrame ⟨1, 2⟩ [255, 255, 255, 255, 1] 0x02010005)
      = some [packetHeard 1 2 [255, 255, 255, 255, 1] [0xBA, 0xCE, 5, 0, 1, 2, 255, 255, 255, 255, 1, 5, 0, 1, 2]] ∧
    heard (.cfgCfg [0xE8, 3, 0, 0] 0x040603EC)
      = some [unknownHeard [0xBA, 0xCE, 4, 0, 6, 5, 0xE8, 3, 0, 0, 0xEC, 3, 6, 4]] := by decide
/-- R52 (a), R66: outside a wait the transport holds what arrives, behind what it holds already. -/
theorem test_frame_is_held_outside_a_wait :
    (next? (exec (.ackAck [6, 4] 0x01050408) (withEnv []
        { now := 0, clock := [], rx := [0x24], reads := [.got 9], writes := [] }))).map
      (fun t => (t.env.rx, t.demux, t.env.reads))
      = some ([0x24, 0xBA, 0xCE, 2, 0, 5, 1, 6, 4, 8, 4, 5, 1], Demux.fresh, [.got 9]) := by decide
/-- R66: `READ_MAX` bytes at a time, in arrival order, and the next read stands outstanding. -/
theorem test_frame_is_read_in_pieces :
    (next? (exec (.ackAck [6, 4] 0x01050408) { listening with
        params := { State.reset.params with readMaxLess1 := 4 }
        env := { now := 3, clock := [], rx := [], reads := [.got 99, .got 2, .pause], writes := [] } })).map
      (fun t => (t.env.rx, t.demux.acc, t.demux.remaining, t.arb.inRead))
      = some ([4, 8, 4, 5, 1], [0xBA, 0xCE, 2, 0, 5, 1, 6], 5, true) := by decide
/-- V-PK-2, V-PK-3, V-PK-5, V-PK-1, V-PK-4, V-PK-16: the rows of R99. -/
theorem test_frame_rows :
    heard (.ackAck [6, 4] 0x01050408)
      = some [packetHeard 5 1 [6, 4] [0xBA, 0xCE, 2, 0, 5, 1, 6, 4, 8, 4, 5, 1]] ∧
    heard (.ackNak [0x0A, 4] 0x0005040C)
      = some [packetHeard 5 0 [0x0A, 4] [0xBA, 0xCE, 2, 0, 5, 0, 0x0A, 4, 0x0C, 4, 5, 0]] ∧
    heard (.cfgRate [0xE8, 3, 0, 0] 0x040603EC)
      = some [packetHeard 6 4 [0xE8, 3, 0, 0] [0xBA, 0xCE, 4, 0, 6, 4, 0xE8, 3, 0, 0, 0xEC, 3, 6, 4]] ∧
    heard (.cfgPrt [] 0x00060000)
      = some [packetHeard 6 0 [] [0xBA, 0xCE, 0, 0, 6, 0, 0, 0, 6, 0]] ∧
    heard (.monVer [] 0x040A0000)
      = some [packetHeard 0x0A 4 [] [0xBA, 0xCE, 0, 0, 0x0A, 4, 0, 0, 0x0A, 4]] ∧
    heard (.cfgMsg [] 0x01060000)
      = some [packetHeard 6 1 [] [0xBA, 0xCE, 0, 0, 6, 1, 0, 0, 6, 1]] := by decide
/-- R142: the checksum of an empty payload of the rows without a vector. -/
theorem test_frame_rows_without_a_vector :
    heard (.cfgRst [] 0x02060000)
      = some [packetHeard 6 2 [] [0xBA, 0xCE, 0, 0, 6, 2, 0, 0, 6, 2]] ∧
    heard (.cfgTp [] 0x03060000)
      = some [packetHeard 6 3 [] [0xBA, 0xCE, 0, 0, 6, 3, 0, 0, 6, 3]] ∧
    heard (.cfgTmode [] 0x06060000)
      = some [packetHeard 6 6 [] [0xBA, 0xCE, 0, 0, 6, 6, 0, 0, 6, 6]] ∧
    heard (.cfgNavx [] 0x07060000)
      = some [packetHeard 6 7 [] [0xBA, 0xCE, 0, 0, 6, 7, 0, 0, 6, 7]] := by decide
/-- R103 read from the payload of V-PK-17. -/
theorem test_payload_fields :
    decodePayload .cfgMsg [0x4E, 0, 1, 0] = some (.cfgMsg 0x4E 0 1) ∧ decodePayload .cfgMsg [0x4E, 0, 1] = none := by
  decide
/-- R285: a structure is written in its fixed size, its runs of bytes included. -/
theorem test_payload_fixed_size :
    (encodePayload (.cfgNavx (Vector.replicate 16 7) 1 2 3 4 5 6 0x0A0B0C0D)).length = 44 ∧
    (encodePayload (.cfgNavx (Vector.replicate 16 7) 1 2 3 4 5 6 0x0A0B0C0D)).drop 40 = [0x0D, 0x0C, 0x0B, 0x0A] ∧
    (encodePayload (.monVer (Vector.replicate 32 0x41) (Vector.replicate 32 0))).length = 64 := by decide
/-- P7: the two timeouts of a query, which a timeout ends; and the replies that are kept. -/
theorem test_query :
    queryFirst State.reset.params ⟨6, 1⟩ = .poll ⟨6, 1, [], 2000⟩ ∧
    queryNext State.reset.params (replyResult ⟨6, 1⟩ [0x4E, 0, 1, 0] 110) = some (.receive ⟨0, 0, [], 150⟩) ∧
    queryNext State.reset.params timeoutResult = none ∧
    queryKeeps ⟨6, 1⟩ (packetResult ⟨6, 1⟩ [1, 3, 0, 0] 110) = true ∧
    queryKeeps ⟨6, 1⟩ (packetResult ⟨6, 4⟩ [] 110) = false := by decide
/-- R66: the read timeout is the slice, and near the deadline what is left; R8: a slice of 100 ms. -/
theorem test_readTimeout :
    { listening with arb := { listening.arb with deadline := 1000 } }.readTimeout = 100 ∧ listening.readTimeout = 97 ∧
    State.reset.params.duration State.reset.params.pollSlice = 100000 := by decide
/-- R22, R40, R111, R117, R119: the numbers the spec gives. -/
theorem test_numbers_of_the_interface :
    [PState.idle, .sync1, .sync2, .lenLo, .body, .nmea].map PState.code = [0, 1, 2, 3, 4, 5] ∧
    [AState.idle, .tx, .wait, .fault].map AState.code = [0, 1, 2, 3] ∧
    [EvTag.packet, .sentence, .unknown].map evTagCode = [0, 1, 2] ∧
    [Status.ok, .nak, .timeout, .transport, .refused].map statusCode = [0, 1, 2, 3, 4] := by decide
/-- R44, R118: the three outcomes of a poll. -/
theorem test_poll_outcomes :
    pollSuccess (replyResult ⟨6, 1⟩ [] 0) = true ∧ pollTimeout timeoutResult = true ∧ pollTimeout nakResult = false ∧
    resultLen (replyResult ⟨6, 1⟩ [1, 2] 0) = 2 := by decide
/-- R361, R328: a step with nothing presented changes nothing; `rst` empties the parser. -/
theorem test_reset_input :
    (next? (step { State.reset with demux := { Demux.fresh with pstate := .sync1, acc := [0xBA] }, ports := [.rst] })).map
        (fun t => (t.demux, t.ports)) = some (Demux.fresh, []) := by decide

/-- R113: the name of a message R99 lists, and of a sentence, which the registry keys under `0x4E`. -/
theorem test_packet_log_names :
    packetRecord (.sent ⟨6, 0⟩ [] 3) = some ⟨3, .csip, some "CFG-PRT", [], .sent⟩ ∧
    packetRecord (.received (.nmeaSentence [0x24, 0x0A] 3))
      = some ⟨3, .nmea, messageName ⟨0x4E, Config.sentenceKey [0x24, 0x0A]⟩, [0x24, 0x0A], .received⟩ :=
  ⟨by decide, rfl⟩
/-- R221, R328: a held command waits, and `rst` passes it and the command after it. -/
theorem test_held_command_lets_reset_pass :
    (next? (step { State.reset with
        arb := { Arbiter.fresh with astate := .wait, op := 2, deadline := 1 }
        ports := [.xact .cmd [0x06, 0, 0, 0, 0, 0, 0, 0, 0], .xact .cmd [7], .rst] })).map
      (fun t => (t.ports, t.out.rsp))
      = some ([.rst, .xact .cmd [0x06, 0, 0, 0, 0, 0, 0, 0, 0], .xact .cmd [7]], []) := by decide

/-! ### Witnesses: for every statement with hypotheses, operands and a state that meet them -/

/-- A parser in a given state with its accumulator. -/
def parserIn (p : PState) (acc : Bytes) : Demux := { Demux.fresh with pstate := p, acc := acc }

/-- A block in a given arbiter state with a command code and a pending identifier. -/
def blockIn (a : AState) (op : BitVec 3) (cls id : Byte) : State :=
  { State.reset with arb := { Arbiter.fresh with astate := a, op := op, pendClass := cls, pendId := id } }

/-- A block after reset whose writes end as given. -/
def blockWriting (ws : List WriteDraw) : State :=
  { State.reset with env := { now := 0, clock := [], rx := [], reads := [], writes := ws } }

theorem witness_DecodeEncode : (Instr.poll ⟨0x0A, 4, [], 500⟩).WellFormed ∧ (Instr.idleUnknown 0).WellFormed := by decide
theorem witness_EncodeDecode : decode .stream1 [0xBA] = .ok .idleSync1 := by decide
theorem witness_StepRunsTheDecodedInstruction :
    (State.reset.withFetchWord 8 0xBA).ports = [.xact .stream1 [0xBA]] ∧ decode .stream1 [0xBA] = .ok .idleSync1 ∧
    State.reset.ports = [] := by decide
theorem witness_EveryWellFormedInstructionAnswersNext : (Instr.pack 0 0 (zeros 65535)).WellFormed :=
  test_wf_accepts_a_payload_of_65535_bytes.1
/-- The boundary of every premise on a payload's length, and the refused one beyond it. -/
theorem witness_lengths : (zeros 65535).length ≤ 65535 ∧ 65535 < (zeros 65536).length ∧
    (zeros 65532).length + 3 ≤ 65535 ∧ (zeros 4096).length ≤ 4096 ∧ (zeros 4094).length ≤ 4094 := by
  simp only [zeros, List.length_replicate]; omega
theorem witness_ChecksumAnswersTheWeightedSum : ([] : Bytes).length ≤ 65535 ∧ (zeros 65535).length ≤ 65535 :=
  ⟨by decide, witness_lengths.1⟩
theorem witness_ChecksumOfEmptyAndPaddedPayloads : (zeros 65532).length + 3 ≤ 65535 := witness_lengths.2.2.1
/-- A header with an empty payload is as short as the premise allows. -/
theorem witness_ChecksumIsTheStreamingSum :
    6 + memRead16 [0xBA, 0xCE, 0, 0, 6, 0] 2 ≤ ([0xBA, 0xCE, 0, 0, 6, 0] : Bytes).length := by decide
theorem witness_PackAnswersTheFrame : (zeros 65535).length ≤ 65535 ∧ 65535 < (zeros 65536).length :=
  ⟨witness_lengths.1, witness_lengths.2.1⟩
theorem witness_UnpackOfPack : (zeros 65535).length ≤ 65535 := witness_lengths.1
/-- The last bit of the first byte, and of the last byte, of the shortest frame. -/
theorem witness_SingleBitFlipDetected :
    ([] : Bytes).length ≤ 65535 ∧ 0 < (pack 6 0 []).length ∧ 9 < (pack 6 0 []).length ∧ 7 < 8 ∧ (9 ≠ 2 ∧ 9 ≠ 3) := by
  decide
theorem witness_TruncationDetected :
    ([0xE8, 3, 0, 0] : Bytes).length ≤ 65535 ∧ 9 < (pack 6 4 [0xE8, 3, 0, 0]).length ∧
    13 < (pack 6 4 [0xE8, 3, 0, 0]).length := by decide
theorem witness_PayloadLayoutsRoundTrip :
    payloadSize .cfgRate = some 4 ∧ ([1, 2, 3] : Bytes).length < 4 ∧ 4 ≤ ([1, 2, 3, 4] : Bytes).length ∧
    payloadSize .cfgNavx = some 44 ∧ (zeros 43).length < 44 ∧ 44 ≤ (zeros 44).length ∧ 2 ≤ (zeros 2).length ∧
    64 ≤ (zeros 64).length ∧ 8 ≤ (zeros 9).length ∧ 16 ≤ (zeros 16).length ∧ 40 ≤ (zeros 40).length := by
  simp only [zeros, List.length_replicate]; decide
theorem witness_FeedByteInIdle : State.reset.demux.pstate = .idle ∧ (0x0A : Byte) ≠ 0xBA ∧ (0x0A : Byte) ≠ 0x24 := by
  decide
theorem witness_FeedByteInSync1 :
    (parserIn .sync1 [0xBA]).Inv ∧ (parserIn .sync1 [0xBA]).pstate = .sync1 ∧
    (0 : Byte) ≠ 0xCE ∧ (0 : Byte) ≠ 0xBA ∧ (0 : Byte) ≠ 0x24 := by decide
/-- Declared lengths 4096 and 4097. -/
theorem witness_FeedByteInTheHeader :
    (parserIn .sync2 [0xBA, 0xCE]).pstate = .sync2 ∧ (parserIn .lenLo [0xBA, 0xCE, 0]).pstate = .lenLo ∧
    (0x00 : Byte).toNat + 256 * (0x10 : Byte).toNat ≤ 4096 ∧ 4096 < (0x01 : Byte).toNat + 256 * (0x10 : Byte).toNat := by
  decide
theorem witness_FeedByteInBody :
    2 ≤ { parserIn .body [0xBA, 0xCE, 0, 0, 6, 0, 0, 0] with remaining := 2 }.remaining ∧
    unpack ([0xBA, 0xCE, 0, 0, 6, 0, 0, 0, 6] ++ [0]) = .ok ⟨6, 0⟩ [] ∧
    unpack ([0xBA, 0xCE, 0, 0, 6, 0, 0, 0, 6] ++ [1]) = .err .cksum ∧
    { parserIn .body [0xBA, 0xCE, 0, 0, 6, 0, 0, 0, 6] with remaining := 1 }.remaining = 1 := by decide
/-- The guard's two sides: 1022 bytes held, and 1023. -/
theorem witness_FeedByteInNmea :
    (parserIn .nmea (zeros 1022)).pstate = .nmea ∧ (zeros 1022).length + 1 < 1024 ∧ 1024 ≤ (zeros 1023).length + 1 ∧
    (0x41 : Byte) ≠ 0x0A := by
  simp only [zeros, List.length_replicate, parserIn]; decide
theorem witness_FeedEndAndPopEvent :
    State.reset.demux.evq = [] ∧
    (withEnv [.unknownBytes [1] 2] (quiet 0)).demux.evq = .unknownBytes [1] 2 :: [] := by decide
/-- A caller that supplies a timestamp, and an environment that gives none. -/
theorem witness_StreamRowsInIdle :
    (withEnv [] stamping).demux.pstate = .idle ∧ (withEnv [] stamping).env.stamps = 7 :: [3] ∧
    State.reset.demux.pstate = .idle ∧ State.reset.env.stamps = [] ∧ State.reset.env.now = 0 ∧
    (0 : Byte) ≠ 0xBA ∧ (0 : Byte) ≠ 0x24 := by decide
/-- A right and a wrong checksum field, no wait in progress, and a wait whose reads cut the frame in three pieces. -/
theorem witness_FrameRowsBecomeEvents :
    frameParts (.ackAck [6, 4] 0x01050408) = some (.ackAck, [6, 4], 0x01050408) ∧ ([6, 4] : Bytes).length ≤ 4096 ∧
    (0x01050408 : Word32) = checksum 5 1 [6, 4] ∧ (0 : Word32) ≠ checksum 5 1 [6, 4] ∧
    State.reset.arb.astate = .idle ∧ State.reset.demux.pstate = .idle ∧
    listening.arb.astate = .wait ∧ listening.arb.op = 2 ∧ listening.demux.evq = [] ∧ listening.demux.pstate = .idle ∧
    listening.demux.unk = [] ∧ listening.env.rx = [] ∧ listening.env.now.toNat < listening.arb.deadline ∧
    (∀ v ∈ listening.env.clock, v.toNat < listening.arb.deadline) ∧ (∀ n ∈ [5, 0, 7], n ≤ listening.params.readMax) ∧
    [5, 0, 7].sum = 10 + ([6, 4] : Bytes).length ∧
    { listening.env with reads := [.got 5, .got 0, .got 7] }.reads = [5, 0, 7].map .got ++ [] :=
  ⟨rfl, by decide, by decide, by decide, rfl, rfl, rfl, rfl, rfl, rfl, rfl, rfl, by decide, by simp [listening],
    by simp [listening, State.reset, Config.Params.readMax], rfl, rfl⟩
theorem witness_FeedConservesBytes : State.reset.demux.Inv := by decide
theorem witness_EventsPerByteAreBounded : (parserIn .sync1 [0xBA]).Inv ∧ (parserIn .sync1 [0xBA]).unk = [] := by decide
theorem witness_CompletionFailsOnlyOnTheChecksum :
    { parserIn .body [0xBA, 0xCE, 0, 0, 6, 0, 0, 0, 6] with remaining := 1 }.Inv ∧
    unpack ([0xBA, 0xCE, 0, 0, 6, 0, 0, 0, 6] ++ [1]) = .err .cksum := by decide
/-- An idle parser after other traffic, with events still queued. -/
def idleParser : State :=
  withEnv [.unknownBytes [1] 2] (quiet 0)

theorem witness_ResyncOnDoubledSync :
    idleParser.demux.pstate = .idle ∧ idleParser.demux.unk = [] ∧ ([] : Bytes).length ≤ 4096 ∧
    (zeros 4096).length ≤ 4096 := ⟨rfl, rfl, by decide, witness_lengths.2.2.2.1⟩
/-- The longest sentence. -/
theorem witness_SentenceIsExtracted :
    idleParser.demux.pstate = .idle ∧ idleParser.demux.unk = [] ∧ (0x0A : Byte) ∉ zeros 1022 ∧
    (zeros 1022).length ≤ 1022 := by
  refine ⟨rfl, rfl, ?_, ?_⟩
  · intro h; exact absurd (List.eq_of_mem_replicate h) (by decide)
  · simp only [zeros, List.length_replicate]; omega
theorem witness_OversizeHeaderIsAbandoned :
    idleParser.demux.pstate = .idle ∧ idleParser.demux.unk = [] ∧
    4096 < (0x01 : Byte).toNat + 256 * (0x10 : Byte).toNat ∧
    (zeros 4096).length ≤ 4096 := ⟨rfl, rfl, by decide, witness_lengths.2.2.2.1⟩
theorem witness_BodySwallowsWhatFollows :
    { parserIn .body [0xBA, 0xCE, 0, 0] with remaining := 6 }.pstate = .body ∧ (parserIn .body []).unk = [] ∧
    ([0xBA, 0xCE, 0x24, 0x0A, 0] : Bytes).length < 6 := by decide
/-- V-DMX-20: two ways of cutting `11 22`. -/
theorem witness_ChunkingDoesNotMatter :
    fedBytes [.feed [0x11, 0x22] 1] = fedBytes [.feed [0x11] 1, .pop, .feed [0x22] 2] := by decide
/-- A sentence cut in two at one timestamp, and whole. -/
theorem witness_CleanChunkingIsExact :
    fedBytes [.feed [0x24, 0x41] 1, .feed [0x0A] 1] = fedBytes [.feed [0x24, 0x41, 0x0A] 1] ∧
    cleanCuts [.feed [0x24, 0x41] 1, .feed [0x0A] 1] ∧ cleanCuts [.feed [0x24, 0x41, 0x0A] 1] ∧
    oneTime 1 [.feed [0x24, 0x41] 1, .feed [0x0A] 1] ∧ oneTime 1 [.feed [0x24, 0x41, 0x0A] 1] := by
  refine ⟨by decide, ?_, ?_, ?_, ?_⟩
  · intro pre c ts post h
    match pre, h with
    | [], h => simp at h; obtain ⟨⟨rfl, rfl⟩, rfl⟩ := h; intro _; decide
    | [_], h => simp at h; obtain ⟨rfl, ⟨rfl, rfl⟩, rfl⟩ := h; intro h'; exact absurd rfl h'
    | _ :: _ :: _, h => simp at h
  · intro pre c ts post h
    match pre, h with
    | [], h => simp at h; obtain ⟨⟨rfl, rfl⟩, rfl⟩ := h; intro h'; exact absurd rfl h'
    | _ :: _, h => simp at h
  · intro c t h; simp at h; rcases h with h | h <;> exact h.2
  · intro c t h; simp at h; exact h.2
/-- A quiet transport, one whose list ends after the write, and one with answers left. -/
theorem witness_SendCompletes :
    State.reset.arb.astate = .idle ∧ ([] : Bytes).length ≤ 65535 ∧ takesFrame [] = some [] ∧
    takesFrame [.done] = some [] ∧ takesFrame [.done, .done, .fail 3] = some [.fail 3] := by decide
/-- A wait whose read is outstanding, and fails. -/
def readFailing (ds : List ReadDraw) : State :=
  { listening with env := { now := 200, clock := [], rx := [0xBA, 0xCE, 4], reads := ds, writes := [] } }

/-- A failed write, a failed flush; a receive's first read that fails; a wait past its deadline unseen; and a wait one
tick before it whose second read fails. -/
theorem witness_FailingPortActionsFault :
    (blockWriting [.fail 3]).env.writes = .fail 3 :: [] ∧ (blockWriting [.done, .fail 0]).env.writes = .done :: .fail 0 :: [] ∧
    (blockWriting [.fail 3]).arb.astate = .idle ∧ (blockWriting [.done, .fail 0]).arb.astate = .idle ∧
    (withEnv [] { now := 0, clock := [4, 4], rx := [], reads := [.fail], writes := [] }).readNow.2.readNow.1.toNat
      < (withEnv [] { now := 0, clock := [4, 4], rx := [], reads := [.fail], writes := [] }).readNow.1.toNat
        + (1 : Timeout).toNat ∧
    (readFailing [.fail]).ports = [] ∧ (readFailing [.fail]).arb.astate = .wait ∧
    (readFailing [.fail]).arb.inRead = true ∧ (readFailing [.fail]).env.reads = .fail :: [] ∧
    { readFailing [.got 3, .fail] with arb := { listening.arb with deadline := 201 } }.ReadsNext ∧
    ((readFailing []).demux.feed [0xBA, 0xCE, 4] 200).evq = [] ∧
    { readFailing [.got 3, .fail] with arb := { listening.arb with deadline := 201 } }.atRead.readNow.2.readNow.1.toNat
      < 201 := by decide
theorem witness_ReceivePacketReturnsTheOldestEvent :
    (withEnv [.unknownBytes [1] 2] (quiet 9)).arb.astate = .idle ∧
    (withEnv [.unknownBytes [1] 2] (quiet 9)).demux.evq = .unknownBytes [1] 2 :: [] ∧
    (zeros 65535).length ≤ 65535 := ⟨rfl, rfl, witness_lengths.1⟩
theorem witness_ReceiveReturnsTheFirstPacket :
    (withEnv [.unknownBytes [1] 2, .casicPacket ⟨5, 1⟩ [] 3 []] (quiet 9)).demux.evq
      = [.unknownBytes [1] 2] ++ .casicPacket ⟨5, 1⟩ [] 3 [] :: [] ∧
    ∀ e ∈ [Event.unknownBytes [1] 2], e.isPacket = false := by decide
/-- A foreign acknowledgement and then the echo, of each kind. -/
theorem witness_SendAndWaitAckIsAnswered :
    (∀ x ∈ [Event.casicPacket ⟨5, 1⟩ [6, 1] 0 []], ¬ IsEcho 1 6 4 x ∧ ¬ IsEcho 0 6 4 x) ∧
    IsEcho 1 6 4 (.casicPacket ⟨5, 1⟩ [6, 4] 0 []) ∧ IsEcho 0 6 4 (.casicPacket ⟨5, 0⟩ [6, 4, 0, 0] 0 []) ∧
    (withEnv [.casicPacket ⟨5, 1⟩ [6, 1] 0 [], .casicPacket ⟨5, 1⟩ [6, 4] 0 []] (quiet 0)).arb.astate = .idle ∧
    takesFrame (withEnv [.casicPacket ⟨5, 1⟩ [6, 1] 0 [], .casicPacket ⟨5, 1⟩ [6, 4] 0 []] (quiet 0)).env.writes = some [] ∧
    (withEnv [.casicPacket ⟨5, 1⟩ [6, 1] 0 [], .casicPacket ⟨5, 1⟩ [6, 4] 0 []] (quiet 0)).demux.evq
      = [.casicPacket ⟨5, 1⟩ [6, 1] 0 []] ++ .casicPacket ⟨5, 1⟩ [6, 4] 0 [] :: [] := by
  refine ⟨?_, ⟨[], 0, [], rfl⟩, ⟨[0, 0], 0, [], rfl⟩, rfl, rfl, rfl⟩
  simp [IsEcho]
/-- The NAK that echoes, and the reply; a poll of `ACK-NAK` itself whose payload echoes nothing is a reply. -/
theorem witness_PollIsAnswered :
    IsEcho 0 6 4 (.casicPacket ⟨5, 0⟩ [6, 4] 0 []) ∧ ¬ IsEcho 0 6 4 (.casicPacket ⟨6, 4⟩ [] 0 []) ∧
    ¬ IsEcho 0 5 0 (.casicPacket ⟨5, 0⟩ [5] 0 []) ∧
    (∀ x ∈ [Event.unknownBytes [1] 2],
      ¬ IsEcho 0 6 4 x ∧ ∀ p ts raw, x ≠ .casicPacket ⟨6, 4⟩ p ts raw) ∧
    (withEnv [.unknownBytes [1] 2, .casicPacket ⟨6, 4⟩ [] 0 []] (quiet 0)).demux.evq
      = [.unknownBytes [1] 2] ++ .casicPacket ⟨6, 4⟩ [] 0 [] :: [] := by
  refine ⟨⟨[], 0, [], rfl⟩, ?_, ?_, ?_, rfl⟩ <;> simp [IsEcho]
/-- An empty queue; and a queued sentence, which none of the last three commands takes. -/
theorem witness_WaitsEndAtTheDeadline_timeout_zero :
    State.reset.arb.astate = .idle ∧ State.reset.demux.evq = [] ∧ takesFrame State.reset.env.writes = some [] ∧
    (∀ e ∈ [Event.nmeaSentence [0x24, 0x0A] 5], e.isPacket = false) ∧
    (∀ e ∈ [Event.nmeaSentence [0x24, 0x0A] 5], ¬ IsEcho 1 6 4 e ∧ ¬ IsEcho 0 6 4 e) ∧
    (∀ e ∈ [Event.nmeaSentence [0x24, 0x0A] 5], ¬ IsEcho 0 6 4 e ∧ ∀ p ts raw, e ≠ .casicPacket ⟨6, 4⟩ p ts raw) := by
  refine ⟨rfl, rfl, rfl, by decide, ?_, ?_⟩ <;> simp [IsEcho]
/-- A block before two empty reads and one that fails, with a clock and a deadline. -/
def pollingState (a : AState) (clock : List Time) (deadline : Nat) : State :=
  { State.reset with
    arb := { Arbiter.fresh with astate := a, op := 3, deadline := deadline }
    env := { now := 4, clock := clock, rx := [1], writes := [], reads := [.got 0, .got 0, .fail] } }

/-- The clock stands one tick before the deadline, and then on it: at the first look, and after two empty reads, in a wait
and in a command of 3 ticks that starts at 4. -/
theorem witness_WaitsEndAtTheDeadline :
    (pollingState .wait [7] 7).ports = [] ∧ (pollingState .wait [7] 7).arb.astate = .wait ∧
    (pollingState .wait [7] 7).arb.inRead = false ∧ (pollingState .wait [7] 7).demux.evq = [] ∧
    (pollingState .wait [7] 7).demux.unk = [] ∧
    (pollingState .wait [7] 7).arb.deadline ≤ (pollingState .wait [7] 7).readNow.1.toNat ∧
    (pollingState .wait [6] 7).ReadsNext ∧ (pollingState .wait [6] 7).env.reads = .got 0 :: [.got 0, .fail] ∧
    (pollingState .wait [5, 6, 6, 6, 7, 9] 7).env.reads = List.replicate 2 (.got 0) ++ [.fail] ∧
    (pollingState .wait [5, 6, 6, 6, 7, 9] 7).env.clock = [5, 6, 6, 6] ++ 7 :: [9] ∧
    [(5 : Time), 6, 6, 6].length = 2 * 2 ∧ (∀ w ∈ [(5 : Time), 6, 6, 6], w.toNat < 7) ∧ 7 ≤ (7 : Time).toNat ∧
    (pollingState .idle [4, 5, 6, 6, 6, 7, 9] 0).arb.astate = .idle ∧
    (pollingState .idle [4, 5, 6, 6, 6, 7, 9] 0).env.clock = (4 : Time) :: [5, 6, 6, 6] ++ 7 :: [9] ∧
    (pollingState .idle [4, 5, 6, 6, 6, 7, 9] 0).env.now ≤ 4 ∧ 0 < (3 : Timeout).toNat ∧
    (4 : Time).toNat + (3 : Timeout).toNat = 7 := by
  simp [pollingState, State.ReadsNext, State.readNow, State.reset, Arbiter.fresh, Demux.fresh, List.replicate]
/-- The state of the next witness: the read returns the whole frame, `READ_MAX` is just large enough, and the clock
stands one tick before the deadline. -/
def readingState : State :=
  { State.reset with
    params := { State.reset.params with readMaxLess1 := 11 }
    env := { now := 3, clock := [3, 12, 40, 41], writes := [], reads := [.got 99, .fail]
             rx := [0xBA, 0xCE, 2, 0, 5, 1, 6, 4, 8, 4, 5, 1, 0x24] } }

theorem witness_ReceiveReadsThePort :
    readingState.arb.astate = .idle ∧ readingState.demux.evq = [] ∧ readingState.demux.pstate = .idle ∧
    readingState.demux.unk = [] ∧ ([6, 4] : Bytes).length ≤ 4096 ∧
    readingState.env.rx = pack 5 1 [6, 4] ++ [0x24] ∧ readingState.env.reads = .got 99 :: [.fail] ∧
    min 99 readingState.params.readMax = 10 + ([6, 4] : Bytes).length ∧
    readingState.env.clock = 3 :: 12 :: 40 :: [41] ∧ readingState.env.now ≤ 3 ∧ (3 : Time) ≤ 12 ∧ (12 : Time) ≤ 40 ∧
    (12 : Time).toNat < (3 : Time).toNat + (10 : Timeout).toNat := by decide
/-- A wait for an answer, one tick before its deadline, with an outstanding read or not; the next read returns 12 bytes
and the one after it stands outstanding. -/
def waitingState (op : BitVec 3) (cls id : Byte) (outstanding : Bool) : State :=
  { blockIn .wait op cls id with
    params := { State.reset.params with readMaxLess1 := 11 }
    arb := { (blockIn .wait op cls id).arb with deadline := 9, inRead := outstanding }
    env := { now := 0, clock := [8, 8, 8], rx := [], reads := [.got 99, .pause], writes := [] } }

/-- Payloads of two bytes and of 4096, and the two commands that look at an acknowledgement. -/
theorem witness_EchoingAckEndsTheWait :
    (waitingState 4 6 4 false).ReadsNext ∧ (waitingState 5 6 4 true).ReadsNext ∧
    (waitingState 4 6 4 false).arb.op = 4 ∧ (waitingState 5 6 4 true).arb.op = 5 ∧
    (waitingState 4 6 4 false).demux.pstate = .idle ∧ (waitingState 4 6 4 false).demux.unk = [] ∧
    (waitingState 4 6 4 false).env.rx = [] ∧ (waitingState 4 6 4 false).env.reads = .got 99 :: [.pause] ∧
    12 + ([] : Bytes).length ≤ min 99 (waitingState 4 6 4 false).params.readMax ∧
    ([] : Bytes).length ≤ 4094 ∧ (zeros 4094).length ≤ 4094 ∧
    (0x01050408 : Word32) = checksum 0x05 0x01 ((waitingState 4 6 4 false).arb.pendClass
      :: (waitingState 4 6 4 false).arb.pendId :: []) ∧
    (0x00050408 : Word32) = checksum 0x05 0x00 ((waitingState 5 6 4 true).arb.pendClass
      :: (waitingState 5 6 4 true).arb.pendId :: []) :=
  ⟨by decide, by decide, rfl, rfl, rfl, rfl, rfl, rfl, by decide, by decide, witness_lengths.2.2.2.2, by decide, by decide⟩
/-- Another request's echo, and a payload of one byte; an `ACK-ACK` and an `ACK-NAK`, in the two commands; and a clock one
tick below the deadline. -/
theorem witness_ForeignAckIsDiscarded :
    (waitingState 4 6 4 false).ReadsNext ∧ (waitingState 5 6 4 true).ReadsNext ∧
    (waitingState 4 6 4 false).demux.pstate = .idle ∧ (waitingState 4 6 4 false).demux.unk = [] ∧
    (waitingState 4 6 4 false).env.rx = [] ∧ (waitingState 4 6 4 false).env.reads = .got 99 :: [.pause] ∧
    10 + ([6, 1] : Bytes).length ≤ min 99 (waitingState 4 6 4 false).params.readMax ∧ ([6, 1] : Bytes).length ≤ 4096 ∧
    ([6, 1] : Bytes).take 2 ≠ [(waitingState 4 6 4 false).arb.pendClass, (waitingState 4 6 4 false).arb.pendId] ∧
    ([6] : Bytes).take 2 ≠ [(waitingState 5 6 4 true).arb.pendClass, (waitingState 5 6 4 true).arb.pendId] ∧
    (0x01050108 : Word32) = checksum 0x05 0x01 [6, 1] ∧ (0x00050007 : Word32) = checksum 0x05 0x00 [6] ∧
    (waitingState 4 6 4 false).arb.op = 4 ∧ (waitingState 5 6 4 true).arb.op = 5 ∧
    (⟨5, 0⟩ : MsgId) ≠ ⟨(waitingState 5 6 4 true).arb.pendClass, (waitingState 5 6 4 true).arb.pendId⟩ ∧
    (waitingState 4 6 4 false).atRead.readNow.2.readNow.1.toNat < (waitingState 4 6 4 false).arb.deadline := by decide
/-- A reply with no payload; and an `ACK-NAK` polled for that does not echo. -/
theorem witness_ReplyEndsThePoll :
    frameParts (.cfgMsg [] 0x01060000) = some (⟨6, 1⟩, [], 0x01060000) ∧ (0x01060000 : Word32) = checksum 6 1 [] ∧
    ¬ ((⟨6, 1⟩ : MsgId) = .ackNak ∧ ([] : Bytes).take 2 = [5, 0]) ∧
    ¬ ((⟨5, 0⟩ : MsgId) = .ackNak ∧ ([5] : Bytes).take 2 = [5, 0]) ∧
    (waitingState 5 6 1 true).ReadsNext ∧ (waitingState 5 6 1 true).arb.op = 5 ∧
    (⟨6, 1⟩ : MsgId) = ⟨(waitingState 5 6 1 true).arb.pendClass, (waitingState 5 6 1 true).arb.pendId⟩ ∧
    (waitingState 5 6 1 true).demux.pstate = .idle ∧ (waitingState 5 6 1 true).demux.unk = [] ∧
    (waitingState 5 6 1 true).env.rx = [] ∧ (waitingState 5 6 1 true).env.reads = .got 99 :: [.pause] ∧
    10 + ([] : Bytes).length ≤ min 99 (waitingState 5 6 1 true).params.readMax := by decide
theorem witness_RefusedCommandChangesNothing :
    formatOf (.poll ⟨6, 0, [], 0⟩) = .cmd ∧ (blockIn .fault 0 0 0).arb.astate = .fault ∧
    State.reset.arb.astate = .idle := by decide
theorem witness_CommandIsHeldWhileBusy :
    formatOf (.reservedOp0 ⟨6, 0, [], 0⟩) = .cmd ∧ (blockIn .tx 1 0 0).arb.astate = .tx ∧
    (blockIn .wait 3 0 0).arb.astate = .wait := by decide
/-- A next state of a state with the invariant. -/
theorem witness_StepKeepsTheInvariant : State.reset.Inv ∧ Steps State.reset State.reset :=
  ⟨⟨by decide, by decide, by simp [State.reset]⟩, rfl⟩
theorem witness_UnspecifiedElementsAreWrittenBeforeRead :
    State.reset.SameLive { State.reset with demux := { Demux.fresh with lenLo := 7, unkTs := 9 } } := by decide
/-- `rst` next in `A_FAULT`; and in a wait, behind two commands. -/
theorem witness_ResetOverridesEverything :
    { (blockIn .fault 0 0 0) with ports := [.rst, .rst] }.ports = .rst :: [.rst] ∧
    (blockIn .wait 3 0 0).arb.astate = .wait ∧
    decode .cmd (encode (.poll ⟨6, 0, [], 0⟩)) = .ok (.poll ⟨6, 0, [], 0⟩) ∧
    (∀ c ∈ [PortInput.xact .cmd []], c.isCmd = true) ∧
    { (blockIn .wait 3 0 0) with
        ports := [.xact .cmd (encode (.poll ⟨6, 0, [], 0⟩)), .xact .cmd [], .rst] }.ports
      = .xact .cmd (encode (.poll ⟨6, 0, [], 0⟩)) :: ([.xact .cmd []] ++ .rst :: []) := by decide
theorem witness_FaultIsSticky :
    (blockIn .fault 0 0 0).arb.astate = .fault ∧ (∀ ps, (blockIn .fault 0 0 0).ports ≠ .rst :: ps) ∧
    Steps (blockIn .fault 0 0 0) (blockIn .fault 0 0 0) :=
  ⟨rfl, fun _ h => by simp [blockIn, State.reset] at h, rfl⟩
/-- A step that faults, and one that does not. -/
theorem witness_OnlyTransportErrorsFault :
    (next? (step { blockIn .wait 3 0 0 with
        arb := { (blockIn .wait 3 0 0).arb with deadline := 1 }
        env := { now := 0, clock := [], rx := [], reads := [.fail], writes := [] } })).map
      (fun t => (t.arb.astate, t.out.rsp)) = some (.fault, [transportResult]) ∧
    State.reset.arb.astate ≠ .fault := by decide
/-- A wait that a step ends, and one that goes on; and commands taken in `A_IDLE` that end in the same step, in `A_IDLE`
and in `A_FAULT`. -/
theorem witness_OneResultAtMost :
    (next? (step (blockIn .wait 3 0 0))).map (fun t => (t.arb.astate, t.out.rsp)) = some (.idle, [timeoutResult]) ∧
    (next? (step { blockIn .wait 3 0 0 with arb := { (blockIn .wait 3 0 0).arb with deadline := 1 } })).map
      (fun t => (t.arb.astate, t.out.rsp)) = some (.wait, []) ∧
    State.reset.arb.astate = .idle ∧ formatOf (.send ⟨6, 0, [], 0⟩) = .cmd ∧
    (next? (exec (.send ⟨6, 0, [], 0⟩) State.reset)).map (fun t => (t.arb.astate, t.out.rsp)) = some (.idle, [okResult]) ∧
    (blockWriting [.fail 3]).arb.astate = .idle ∧
    (next? (exec (.send ⟨6, 0, [], 0⟩) (blockWriting [.fail 3]))).map (fun t => (t.arb.astate, t.out.rsp))
      = some (.fault, [transportResult]) := by decide
/-- A timeout at the deadline exactly. -/
theorem witness_NoTimeoutBeforeTheDeadline :
    (next? (step { blockIn .wait 3 0 0 with
        arb := { (blockIn .wait 3 0 0).arb with deadline := 5 }
        env := { now := 5, clock := [], rx := [], reads := [], writes := [] } })).map
      (fun t => (t.out.rsp, t.arb.deadline, t.env.now)) = some ([timeoutResult], 5, 5) := by decide
theorem witness_WaitKeepsItsDeadline :
    (blockIn .wait 3 0 0).arb.astate = .wait ∧ (∀ ps, (blockIn .wait 3 0 0).ports ≠ .rst :: ps) ∧
    (next? (step (blockIn .wait 3 0 0))).isSome = true :=
  ⟨rfl, fun _ h => by simp [blockIn, State.reset] at h, by decide⟩
/-- A block in `A_TX` with four bytes of its frame already sent, whose next write ends as given. -/
def sendingState (ws : List WriteDraw) : State :=
  { blockIn .tx 1 6 0 with
    arb := { (blockIn .tx 1 6 0).arb with txbuf := pack 6 0 [], txSent := 4 }
    env := { now := 0, clock := [], rx := [], reads := [], writes := ws } }

/-- A transmission resumed with bytes left, in the three sending commands, and one with its flush alone left. -/
def resumedState (op : BitVec 3) (sent : Nat) (ws : List WriteDraw) : State :=
  { sendingState ws with arb := { (sendingState ws).arb with op := op, txSent := sent } }

theorem witness_resumed_transmissions :
    (resumedState 1 4 []).ports = [] ∧ (resumedState 1 4 []).arb.astate = .tx ∧ (resumedState 1 4 []).arb.op = 1 ∧
    (resumedState 1 4 [.done]).takesRest = some [] ∧ (resumedState 1 10 [.done, .pause 0]).takesRest = some [.pause 0] ∧
    (resumedState 4 4 []).arb.op = 4 ∧ (resumedState 4 4 []).takesRest = some [] ∧
    (resumedState 5 4 []).arb.op = 5 ∧ (resumedState 5 4 []).takesRest = some [] := by decide
/-- A resumed write that fails, a resumed flush that fails after a write, and one that fails alone. -/
theorem witness_FailingPortActionsFault_resumed :
    (resumedState 4 4 [.fail 2]).ports = [] ∧ (resumedState 4 4 [.fail 2]).arb.astate = .tx ∧
    (resumedState 4 4 [.fail 2]).unsent ≠ [] ∧ (resumedState 4 4 [.fail 2]).env.writes = .fail 2 :: [] ∧
    (resumedState 5 4 [.done, .fail 0]).unsent ≠ [] ∧
    (resumedState 5 4 [.done, .fail 0]).env.writes = .done :: .fail 0 :: [] ∧
    (resumedState 1 10 [.fail 0]).unsent = [] := by decide
/-- A sending command whose wait's first read fails, one tick before the deadline. -/
theorem witness_FailingPortActionsFault_read :
    (withEnv [] { now := 0, clock := [3, 4, 4], rx := [], reads := [.fail], writes := [] }).arb.astate = .idle ∧
    (withEnv [] { now := 0, clock := [3, 4, 4], rx := [], reads := [.fail], writes := [] }).readNow.2.readNow.2.readNow.1.toNat
      < (withEnv [] { now := 0, clock := [3, 4, 4], rx := [], reads := [.fail], writes := [] }).readNow.2.readNow.1.toNat
        + (1 : Timeout).toNat := by decide
/-- A wait of each command with a given queue, its read not outstanding. -/
def waitingOn (op : BitVec 3) (evq : List Event) : State :=
  { blockIn .wait op 6 4 with demux := { Demux.fresh with evq := evq } }

/-- Waits of the four commands that go on: with the answer queued behind another event, and with no answer queued. -/
theorem witness_waits_that_go_on :
    (∀ op ∈ [(2 : BitVec 3), 3, 4, 5], (waitingOn op []).ports = [] ∧ (waitingOn op []).arb.astate = .wait ∧
      (waitingOn op []).arb.op = op ∧ (waitingOn op []).arb.inRead = false ∧ (waitingOn op []).arb.pendClass = 6 ∧
      (waitingOn op []).arb.pendId = 4) ∧
    (waitingOn 3 [.unknownBytes [1] 2, .casicPacket ⟨5, 1⟩ [] 3 []]).demux.evq
      = [.unknownBytes [1] 2] ++ .casicPacket ⟨5, 1⟩ [] 3 [] :: [] ∧
    (∀ e ∈ (waitingOn 3 [.unknownBytes [1] 2]).demux.evq, e.isPacket = false) ∧
    IsEcho 1 6 4 (.casicPacket ⟨5, 1⟩ [6, 4] 0 []) ∧ IsEcho 0 6 4 (.casicPacket ⟨5, 0⟩ [6, 4] 0 []) ∧
    (∀ e ∈ (waitingOn 4 [.unknownBytes [1] 2]).demux.evq, ¬ IsEcho 1 6 4 e ∧ ¬ IsEcho 0 6 4 e) ∧
    (∀ e ∈ (waitingOn 5 [.unknownBytes [1] 2]).demux.evq,
      ¬ IsEcho 0 6 4 e ∧ ∀ p ts raw, e ≠ .casicPacket ⟨6, 4⟩ p ts raw) := by
  refine ⟨by decide, rfl, by decide, ⟨[], 0, [], rfl⟩, ⟨[], 0, [], rfl⟩, ?_, ?_⟩ <;> simp [waitingOn, blockIn, IsEcho]
/-- Commands taken in `A_IDLE` with no answer queued. -/
theorem witness_unanswered_commands :
    State.reset.arb.astate = .idle ∧ takesFrame State.reset.env.writes = some [] ∧ State.reset.demux.evq = [] ∧
    ([] : Bytes).length ≤ 65535 := by decide
/-- A wait whose next read does not return, one tick before its deadline. -/
theorem witness_WaitsEndAtTheDeadline_paused :
    { pollingState .wait [6] 7 with env := { (pollingState .wait [6] 7).env with reads := [.pause] } }.ReadsNext ∧
    { pollingState .wait [6] 7 with env := { (pollingState .wait [6] 7).env with reads := [.pause] } }.env.reads
      = .pause :: [] := by decide
/-- From `A_IDLE` and from `A_TX`: to `A_TX`, to `A_FAULT` and to the end; and no sending command. -/
theorem witness_NothingIsSentTwice :
    State.reset.arb.astate = .idle ∧ (blockWriting [.pause 3]).arb.astate = .idle ∧
    (next? (exec (.send ⟨6, 0, [], 0⟩) (blockWriting [.pause 3]))).map (fun t => (t.arb.astate, t.out.tx, t.unsent))
      = some (.tx, [.byte 0xBA, .byte 0xCE, .byte 0], [0, 6, 0, 0, 0, 6, 0]) ∧
    (next? (exec (.send ⟨6, 0, [], 0⟩) (blockWriting [.fail 1]))).map (fun t => (t.arb.astate, t.out.tx))
      = some (.fault, [.byte 0xBA]) ∧
    (next? (exec (.send ⟨6, 0, [], 0⟩) State.reset)).map (fun t => (t.arb.astate, t.out.tx.length, t.out.log.length))
      = some (.idle, 11, 1) ∧
    (next? (exec (.receive ⟨0, 0, [], 0⟩) State.reset)).isSome = true ∧
    (sendingState []).demux.Inv ∧ (sendingState []).arb.Inv ∧ (sendingState []).out.rsp = [] ∧
    (sendingState []).arb.astate = .tx ∧ (sendingState []).ports = [] ∧
    (next? (step (sendingState [.pause 2]))).map (fun t => (t.arb.astate, t.out.tx, t.out.log.length))
      = some (.tx, [.byte 6, .byte 0], 0) ∧
    (next? (step (sendingState [.fail 1]))).map (fun t => (t.arb.astate, t.out.tx)) = some (.fault, [.byte 6]) ∧
    (next? (step (sendingState []))).map (fun t => (t.arb.astate, t.out.tx, t.out.log.length))
      = some (.idle, [.byte 6, .byte 0, .byte 0, .byte 0, .byte 6, .byte 0, .flush], 1) := by
  and_intros <;> first | rfl | decide
/-- From `A_IDLE`, to the end and to a paused write; and from `A_TX`, to the end and to a paused write. -/
theorem witness_SentIsLoggedFirst :
    State.reset.params.logSink = true ∧ takesFrame State.reset.env.writes = some [] ∧
    (next? (exec (.poll ⟨6, 0, [], 0⟩) State.reset)).isSome = true ∧ State.reset.arb.astate = .idle ∧
    (next? (exec (.poll ⟨6, 0, [], 0⟩) (blockWriting [.pause 3]))).map (·.arb.astate) = some .tx ∧
    (next? (step (sendingState [.pause 2]))).map (·.arb.astate) = some .tx ∧
    (sendingState []).arb.astate = .tx ∧ (sendingState []).params.logSink = true ∧ (sendingState []).ports = [] ∧
    (next? (step (sendingState []))).map (·.arb.astate) = some .idle := by decide
/-- The first packet popped, and one popped with `SEEN_VALID` set. -/
theorem witness_FirstValidIsRecordedOnce :
    (next? (step { withEnv [.casicPacket ⟨5, 1⟩ [] 3 []] (quiet 0) with
        arb := { Arbiter.fresh with astate := .wait, op := 2 } })).map (fun t => (t.arb.seenValid, t.out.log.length))
      = some (true, 2) ∧
    (next? (step { withEnv [.casicPacket ⟨5, 1⟩ [] 3 []] (quiet 0) with
        arb := { Arbiter.fresh with astate := .wait, op := 2, seenValid := true } })).map
      (fun t => (t.arb.seenValid, t.out.log.length)) = some (true, 1) := by decide
theorem witness_StepsAppendAndConsumeInOrder : Steps State.reset State.reset := rfl
/-- Every parameter but `READ_MAX` changed. -/
theorem witness_OnlyReadMaxEntersResults :
    (⟨4105, 1, 7, 0, 9, false, false⟩ : Config.Params).readMax = State.reset.params.readMax ∧
    Steps State.reset State.reset := ⟨rfl, rfl⟩

end Sys2Proof.Tests
end

section
/-! PROOFS. The statements about the state: what a step can do, said once; the invariant of R30, R40, R44 and R47; the
parser's conservation of bytes and the frame rows; results, deadlines and records; and the elements of unspecified reset
value. -/

namespace Sys2Proof.Machine

/-! ### What a step can do -/

/-- R18, R170: how the test access and the stream rows change the parser. -/
inductive Demux.TestMove (d : Demux) : Demux → Prop where
  | kept : TestMove d d
  | byte (b : Byte) (ts : Time) : TestMove d (d.feedByte b ts)
  | ended : TestMove d d.feedEnd
  | chunk (c : Bytes) (ts : Time) : TestMove d (d.feed c ts)
  | popped : TestMove d d.pop.2

/-- R18, R170: what the test access and the stream rows touch: the parser, the supplied timestamps and the test answers. -/
structure State.TestAccess (s t : State) : Prop where
  params : t.params = s.params
  ports : t.ports = s.ports
  arb : t.arb = s.arb
  demux : s.demux.TestMove t.demux
  env : t.env = { s.env with stamps := t.env.stamps }
  stamps : t.env.stamps <:+ s.env.stamps
  out : t.out = { s.out with test := t.out.test }
  test : s.out.test <+: t.out.test

/-- What an instruction can do in a state: the command transactions by `ASTATE` (R221), the frame rows, and the rest. -/
inductive State.ExecEffect (s : State) : Instr → State → Prop where
  | refused {i : Instr} : formatOf i = .cmd → s.arb.astate = .idle ∨ s.arb.astate = .fault →
      ExecEffect s i (s.respond refusedResult)
  | held {i : Instr} : formatOf i = .cmd → s.arb.astate = .tx ∨ s.arb.astate = .wait → ExecEffect s i (s.hold i)
  | sends {d : Descriptor} : s.arb.astate = .idle → d.payload.length ≤ 65535 →
      ExecEffect s (.send d) ((s.takeOp opSend d).sendFrame d)
  | asks {i : Instr} {op : BitVec 3} {d : Descriptor} : s.arb.astate = .idle → d.payload.length ≤ 65535 →
      i = .sendAndWaitAck d ∧ op = opSendAndWaitAck ∨ i = .poll d ∧ op = opPoll →
      ExecEffect s i (((s.takeOp op d).setPending d).sendFrame d)
  | receives {i : Instr} {op : BitVec 3} {d : Descriptor} : s.arb.astate = .idle →
      i = .receivePacket d ∧ op = opReceivePacket ∨ i = .receive d ∧ op = opReceive →
      ExecEffect s i (s.takeOp op d).startWait
  | arrives {i : Instr} {m : MsgId} {p : Bytes} {ck : Word32} : frameParts i = some (m, p, ck) → p.length ≤ 65535 →
      ExecEffect s i (s.arrive (frameBytes m p ck)).goOn
  | tested {i : Instr} {t : State} : formatOf i ≠ .cmd → frameParts i = none → s.TestAccess t → ExecEffect s i t

/-- R221: everything command acceptance can do. -/
theorem State.accept_cases {s t : State} {i : Instr} {run : Answer} (h : s.accept i run = .next t) :
    (s.arb.astate = .idle ∧ run = .next t) ∨ (s.arb.astate = .fault ∧ t = s.respond refusedResult) ∨
    ((s.arb.astate = .tx ∨ s.arb.astate = .wait) ∧ t = s.hold i) := by
  unfold State.accept at h
  cases ha : s.arb.astate <;> simp only [ha] at h
  case idle => exact .inl ⟨rfl, h⟩
  case fault => cases h; exact .inr (.inl ⟨rfl, rfl⟩)
  case tx => cases h; exact .inr (.inr ⟨.inl rfl, rfl⟩)
  case wait => cases h; exact .inr (.inr ⟨.inr rfl, rfl⟩)

/-- R221: a command that is accepted or held has the effect its run has when it is taken. -/
theorem State.accept_effect {s t : State} {i : Instr} {run : Answer} (hi : formatOf i = .cmd)
    (h : s.accept i run = .next t) (hrun : s.arb.astate = .idle → run = .next t → s.ExecEffect i t) :
    s.ExecEffect i t := by
  rcases s.accept_cases h with ⟨ha, hr⟩ | ⟨ha, rfl⟩ | ⟨ha, rfl⟩
  · exact hrun ha hr
  · exact .refused hi (.inr ha)
  · exact .held hi ha

/-- R146: an instruction guarded by the length check answers only where the payload's length fits. -/
theorem next_of_lengthFits {p : Bytes} {t u : State} {r : Refusal}
    (h : (if lengthFits p then (.next u : Answer) else .refused r) = .next t) : p.length ≤ 65535 ∧ t = u := by
  split at h
  · rename_i hp; cases h; exact ⟨(lengthFits_iff p).1 hp, rfl⟩
  · cases h

theorem State.refuseOp_effect {s t : State} {i : Instr} (hi : formatOf i = .cmd) (h : s.refuseOp i = .next t) :
    s.ExecEffect i t :=
  State.accept_effect hi h fun ha hr => by cases hr; exact .refused hi (.inl ha)

/-- R91, R99, R120: every frame row is the arrival of its frame. -/
theorem exec_frame {i : Instr} {m : MsgId} {p : Bytes} {ck : Word32} (h : frameParts i = some (m, p, ck)) (s : State) :
    exec i s = s.deliver m p ck := by
  cases i <;> simp only [frameParts, Option.some.injEq, Prod.mk.injEq, reduceCtorEq] at h <;>
    obtain ⟨rfl, rfl, rfl⟩ := h <;> rfl

theorem State.deliver_effect {s t : State} {i : Instr} {m : MsgId} {p : Bytes} {ck : Word32}
    (hi : frameParts i = some (m, p, ck)) (h : s.deliver m p ck = .next t) : s.ExecEffect i t := by
  obtain ⟨hp, rfl⟩ := next_of_lengthFits h
  exact .arrives hi hp

theorem State.answerTest_access (s : State) (a : TestAnswer) : s.TestAccess (s.answerTest a) :=
  ⟨rfl, rfl, rfl, .kept, rfl, List.suffix_refl _, rfl, List.prefix_append _ _⟩

theorem State.demux_access (s : State) {d : Demux} (h : s.demux.TestMove d) : s.TestAccess { s with demux := d } :=
  ⟨rfl, rfl, rfl, h, rfl, List.suffix_refl _, rfl, List.prefix_refl _⟩

theorem State.streamByte_access (s : State) (b : Byte) : s.TestAccess (s.streamByte b) where
  params := s.takeStamp_params
  ports := s.takeStamp_ports
  arb := s.takeStamp_arb
  demux := .byte b s.takeStamp.1
  env := by unfold State.streamByte State.takeStamp; split <;> rfl
  stamps := s.takeStamp_stamps
  out := by show s.takeStamp.2.out = _; simp [State.streamByte]
  test := by simp [State.streamByte]

/-- Everything an instruction can do that answers a next state. -/
theorem exec_effect {i : Instr} {s t : State} (h : exec i s = .next t) : s.ExecEffect i t := by
  cases hf : frameParts i with
  | some x => obtain ⟨m, p, ck⟩ := x; rw [exec_frame hf] at h; exact State.deliver_effect hf h
  | none =>
    cases i
    case send d =>
      exact State.accept_effect rfl h fun ha hr => by
        obtain ⟨hp, rfl⟩ := next_of_lengthFits hr; exact .sends ha hp
    case sendAndWaitAck d =>
      exact State.accept_effect rfl h fun ha hr => by
        obtain ⟨hp, rfl⟩ := next_of_lengthFits hr; exact .asks ha hp (.inl ⟨rfl, rfl⟩)
    case poll d =>
      exact State.accept_effect rfl h fun ha hr => by
        obtain ⟨hp, rfl⟩ := next_of_lengthFits hr; exact .asks ha hp (.inr ⟨rfl, rfl⟩)
    case receivePacket d =>
      exact State.accept_effect rfl h fun ha hr => by cases hr; exact .receives ha (.inl ⟨rfl, rfl⟩)
    case receive d =>
      exact State.accept_effect rfl h fun ha hr => by cases hr; exact .receives ha (.inr ⟨rfl, rfl⟩)
    case reservedOp0 d => exact State.refuseOp_effect rfl h
    case reservedOp6 d => exact State.refuseOp_effect rfl h
    case reservedOp7 d => exact State.refuseOp_effect rfl h
    case checksum c i p =>
      obtain ⟨-, rfl⟩ := next_of_lengthFits h; exact .tested nofun rfl (s.answerTest_access _)
    case pack c i p =>
      obtain ⟨-, rfl⟩ := next_of_lengthFits h; exact .tested nofun rfl (s.answerTest_access _)
    case unpack buf => cases h; exact .tested nofun rfl (s.answerTest_access _)
    case feedByte b ts => cases h; exact .tested nofun rfl (s.demux_access (.byte b ts))
    case feedEnd => cases h; exact .tested nofun rfl (s.demux_access .ended)
    case feed c ts => cases h; exact .tested nofun rfl (s.demux_access (.chunk c ts))
    case popEvent =>
      cases h
      exact .tested nofun rfl
        ⟨rfl, rfl, rfl, .popped, rfl, List.suffix_refl _, rfl, List.prefix_append _ _⟩
    case idleSync1 => cases h; exact .tested nofun rfl (s.streamByte_access _)
    case idleNmeaStart => cases h; exact .tested nofun rfl (s.streamByte_access _)
    case idleUnknown b => cases h; exact .tested nofun rfl (s.streamByte_access _)
    all_goals cases hf

/-- Everything a step can do: `rst`, going on with nothing presented, or the effect of the instruction fetched. -/
inductive State.StepEffect (s : State) : State → Prop where
  | reset {ps : List PortInput} : s.ports = .rst :: ps → StepEffect s { s with ports := ps }.returnByReset
  | goesOn : s.ports = [] → StepEffect s s.goOn
  | runs {f : Format} {bs : Bytes} {ps : List PortInput} {i : Instr} {t : State} : s.ports = .xact f bs :: ps →
      decode f bs = .ok i → exec i { s with ports := ps } = .next t →
      State.ExecEffect { s with ports := ps } i t → StepEffect s t

theorem Steps.effect {s t : State} (h : Steps s t) : s.StepEffect t := by
  unfold Steps step at h
  split at h
  · rename_i hp; cases h; exact .goesOn hp
  · rename_i ps hp; cases h; exact .reset hp
  · rename_i f bs ps hp
    split at h
    · rename_i i hd; exact .runs hp hd h (exec_effect h)
    · cases h

/-- R224: a transitive relation that W1 and W2, a read, a failed read and an outstanding read all meet, every wait meets:
the induction over the reads, once for all relations. -/
theorem State.waitLoop_rel {R : State → State → Prop} (htrans : ∀ {s t u}, R s t → R t u → R s u)
    (hbefore : ∀ s, R s s.beforeRead.2) (hread : ∀ s ds n, R s (s.readReturns ds n))
    (hfail : ∀ s ds, R s { s with env := { s.env with reads := ds } }.transportError)
    (hpause : ∀ s ds, R s { s with env := { s.env with reads := ds }, arb := { s.arb with inRead := true } })
    (ds : List ReadDraw) (s : State) : R s (State.waitLoop ds s) := by
  have hb' : ∀ {s t : State} {b}, s.beforeRead = (b, t) → R s t := fun {s t b} hb => by
    have := hbefore s; rwa [hb] at this
  have hw := State.waitLoop_run ds s
  generalize State.waitLoop ds s = u at hw
  induction hw with
  | ended hb => exact hb' hb
  | lastRead hb => exact htrans (hb' hb) (hread _ _ _)
  | failed hb => exact htrans (hb' hb) (hfail _ _)
  | paused hb => exact htrans (hb' hb) (hpause _ _)
  | again hb _ ih => exact htrans (htrans (hb' hb) (hread _ _ _)) ih

/-! ### What a wait and a transmission come to -/

/-- R116: a bare result carries `nak` exactly with `S_NAK`, and no payload. -/
theorem bareResult_sound (st : Status) : (bareResult st).Sound := by
  cases st <;> simp [bareResult, Result.Sound]

theorem eventResult_sound (e : Event) : (eventResult e).Sound := by
  cases e <;> simp [eventResult, Result.Sound]

/-- R44, R116, R227 to R230: every answer of `Classify` is a sound result. -/
theorem classify_sound {a : Arbiter} {e : Event} {r : Result} (h : classify a e = some r) : r.Sound := by
  have hack : ∀ r, classifyAck a e = some r → r.Sound := by
    intro r h
    cases e <;> simp only [classifyAck, reduceCtorEq] at h
    split at h
    · cases h; exact bareResult_sound _
    · split at h
      · cases h; exact bareResult_sound _
      · cases h
  have hpoll : ∀ r, classifyPoll a e = some r → r.Sound := by
    intro r h
    cases e <;> simp only [classifyPoll, reduceCtorEq] at h
    split at h
    · cases h; exact bareResult_sound _
    · split at h
      · cases h; simp [replyResult, Result.Sound]
      · cases h
  unfold classify at h
  split at h
  · cases h; exact eventResult_sound e
  split at h
  · cases e <;> simp only [classifyReceive, Option.some.injEq, reduceCtorEq] at h
    subst h; simp [packetResult, Result.Sound]
  split at h
  · exact hack r h
  split at h
  · exact hpoll r h
  · cases h

/-- R224: W1 and W2 leave the arbiter but its flag, and the results, when the wait goes on. -/
theorem State.beforeRead_goes {s t : State} (h : s.beforeRead = (false, t)) :
    ∃ sv, t.arb = { s.arb with seenValid := sv } ∧ t.out.rsp = s.out.rsp := by
  rcases s.beforeRead_cases with ⟨_, hb⟩ | ⟨_, _, _, _, _, _, _, _, hb⟩ | ⟨_, _, _, hb⟩ | ⟨_, _, _, hb⟩ <;>
    rw [hb] at h <;> cases h
  · exact ⟨s.arb.seenValid, rfl, rfl⟩
  · exact ⟨_, by rw [State.readNow_arb]; rfl, by rw [State.readNow_out]; rfl⟩

/-- R224: W1 and W2 deliver one sound result when they end the wait, and no read is outstanding then. -/
theorem State.beforeRead_ends {s t : State} (h : s.beforeRead = (true, t)) :
    ∃ sv r, r.Sound ∧ t.arb = { s.arb with astate := .idle, seenValid := sv, inRead := false } ∧
      t.out.rsp = s.out.rsp ++ [r] := by
  rcases s.beforeRead_cases with ⟨_, hb⟩ | ⟨hr, _, _, _, r, _, _, hc, hb⟩ | ⟨hr, _, _, hb⟩ | ⟨_, _, _, hb⟩ <;>
    rw [hb] at h <;> cases h
  · exact ⟨_, r, classify_sound hc, by rw [State.finish_arb, ← hr]; rfl, rfl⟩
  · exact ⟨_, timeoutResult, bareResult_sound _, by rw [State.finish_arb, State.readNow_arb, ← hr]; rfl,
      by rw [State.finish_out, State.readNow_out]; rfl⟩

/-- R224, R237: what a wait comes to: it goes on, it ends with a result, or a read fails. -/
inductive State.WaitOutcome (s t : State) : Prop where
  | waiting (sv ir : Bool) : t.arb = { s.arb with seenValid := sv, inRead := ir } → t.out.rsp = s.out.rsp →
      WaitOutcome s t
  | ended (sv : Bool) (r : Result) : r.Sound →
      t.arb = { s.arb with astate := .idle, seenValid := sv, inRead := false } → t.out.rsp = s.out.rsp ++ [r] →
      WaitOutcome s t
  | failed (sv : Bool) :
      t.arb = { s.arb with astate := .fault, txbuf := [], txSent := 0, seenValid := sv, inRead := false } →
      t.out.rsp = s.out.rsp ++ [transportResult] → WaitOutcome s t

/-- A wait that has gone on a while comes to what it comes to from there. -/
theorem State.WaitOutcome.after {s u t : State} {sv ir : Bool} (ha : u.arb = { s.arb with seenValid := sv, inRead := ir })
    (hr : u.out.rsp = s.out.rsp) (h : u.WaitOutcome t) : s.WaitOutcome t := by
  cases h with
  | waiting sv' ir' h1 h2 => exact .waiting sv' ir' (by rw [h1, ha]) (by rw [h2, hr])
  | ended sv' r hs h1 h2 => exact .ended sv' r hs (by rw [h1, ha]) (by rw [h2, hr])
  | failed sv' h1 h2 => exact .failed sv' (by rw [h1, ha]) (by rw [h2, hr])

theorem State.readReturns_arb (s : State) (ds : List ReadDraw) (n : Nat) :
    (s.readReturns ds n).arb = { s.arb with inRead := false } := by simp [State.readReturns]
theorem State.readReturns_out (s : State) (ds : List ReadDraw) (n : Nat) : (s.readReturns ds n).out = s.out := by
  simp [State.readReturns]

/-- R224: everything a wait comes to, for any reads. -/
theorem State.waitLoop_outcome (ds : List ReadDraw) (s : State) : s.WaitOutcome (State.waitLoop ds s) := by
  have hw := State.waitLoop_run ds s
  generalize State.waitLoop ds s = u at hw
  induction hw with
  | ended hb => obtain ⟨sv, r, hs, ha, hr⟩ := State.beforeRead_ends hb; exact .ended sv r hs ha hr
  | lastRead hb =>
    obtain ⟨sv, ha, hr⟩ := State.beforeRead_goes hb
    exact .waiting sv false (by rw [State.readReturns_arb, ha]) (by rw [State.readReturns_out, hr])
  | failed hb =>
    obtain ⟨sv, ha, hr⟩ := State.beforeRead_goes hb
    exact .failed sv (by rw [State.transportError_arb, ha]) (by rw [State.transportError_out, ← hr])
  | paused hb => obtain ⟨sv, ha, hr⟩ := State.beforeRead_goes hb; exact .waiting sv true (by rw [ha]) hr
  | again hb _ ih =>
    obtain ⟨sv, ha, hr⟩ := State.beforeRead_goes hb
    exact .after (sv := sv) (ir := false) (by rw [State.readReturns_arb, ha]) (by rw [State.readReturns_out, hr]) ih

/-- R224, R231: a wait starts from the state it is asked in, with the deadline armed and no read outstanding. -/
theorem State.startWait_eq (s : State) : ∃ (u : State) (dl : Nat), s.startWait = State.waitLoop u.env.reads u ∧
    u.arb = { s.arb with astate := .wait, inRead := false, deadline := dl } ∧ u.out = s.out ∧ u.demux = s.demux :=
  ⟨{ s.armDeadline with arb := { s.armDeadline.arb with astate := .wait, inRead := false } },
    s.readNow.1.toNat + s.arb.tmo.toNat, rfl, by simp [State.armDeadline], by simp [State.armDeadline],
    by simp [State.armDeadline]⟩

/-- R223, R237: what a transmission comes to: it stays under way, a port action fails, or the frame is out and logged and
what follows it runs. -/
inductive State.SendOutcome (s t : State) : Prop where
  | sending (n : Nat) : t.arb = { s.arb with txSent := n } → (s.arb.txSent ≤ s.arb.txbuf.length → n ≤ s.arb.txbuf.length) →
      t.out.rsp = s.out.rsp → t.demux = s.demux → SendOutcome s t
  | failed : t.arb = { s.arb with astate := .fault, txbuf := [], txSent := 0, inRead := false } →
      t.out.rsp = s.out.rsp ++ [transportResult] → t.demux = s.demux → SendOutcome s t
  | sent (u : State) : t = u.afterSend → u.arb = { s.arb with txbuf := [], txSent := 0 } → u.out.rsp = s.out.rsp →
      u.demux = s.demux → SendOutcome s t

/-- R47: what has been handed over of `TXBUF` is never more than it holds. -/
theorem State.handedOver_le (s : State) (k : Nat) (h : s.arb.txSent ≤ s.arb.txbuf.length) :
    s.arb.txSent + (s.unsent.take k).length ≤ s.arb.txbuf.length := by
  simp only [State.unsent, List.length_take, List.length_drop]; omega

/-- R13, R47: `PortWrite` moves the count of bytes handed over, within `TXBUF`, and the `tx` port, and nothing else of the
block. -/
theorem State.portWrite_keeps (s : State) : ∃ n, s.portWrite.state.arb = { s.arb with txSent := n } ∧
    (s.arb.txSent ≤ s.arb.txbuf.length → n ≤ s.arb.txbuf.length) ∧
    s.portWrite.state.out.rsp = s.out.rsp ∧ s.portWrite.state.demux = s.demux := by
  have h := s.portWrite_effect
  generalize s.portWrite = o at h
  cases h with
  | nothingLeft _ => exact ⟨s.arb.txSent, rfl, id, rfl, rfl⟩
  | whole ws _ _ =>
    exact ⟨_, rfl, fun hl => by simpa using s.handedOver_le s.unsent.length hl, rfl, rfl⟩
  | failed k ws _ _ => exact ⟨_, rfl, s.handedOver_le k, rfl, rfl⟩
  | blocked k ws _ _ => exact ⟨_, rfl, s.handedOver_le k, rfl, rfl⟩

/-- R79: `PortFlush` changes neither the arbiter, nor the parser, nor the results. -/
theorem State.portFlush_keeps (s : State) : s.portFlush.state.arb = s.arb ∧ s.portFlush.state.out.rsp = s.out.rsp ∧
    s.portFlush.state.demux = s.demux := by
  rcases s.portFlush_cases with ⟨ws, _, he⟩ | ⟨k, ws, _, he⟩ | ⟨k, ws, _, he⟩ <;> rw [he] <;> exact ⟨rfl, rfl, rfl⟩

/-- R223: everything a transmission comes to. -/
theorem State.transmit_outcome (s : State) : s.SendOutcome s.transmit := by
  obtain ⟨n, ha, hn, hr, hd⟩ := s.portWrite_keeps
  unfold State.transmit
  cases h1 : s.portWrite with
  | failed s1 =>
    rw [h1] at ha hr hd
    exact .failed (by rw [State.transportError_arb]; simp only [TxOutcome.state] at ha; rw [ha])
      (by rw [State.transportError_out, ← hr]; rfl) hd
  | blocked s1 => rw [h1] at ha hr hd; exact .sending n ha hn hr hd
  | done s1 =>
    rw [h1] at ha hr hd
    simp only [TxOutcome.state] at ha hr hd
    obtain ⟨ha2, hr2, hd2⟩ := s1.portFlush_keeps
    dsimp only
    cases h2 : s1.portFlush with
    | failed s2 =>
      rw [h2] at ha2 hr2 hd2
      simp only [TxOutcome.state] at ha2 hr2 hd2
      exact .failed (by rw [State.transportError_arb, ha2, ha]) (by rw [State.transportError_out, ← hr, ← hr2])
        (by rw [State.transportError_demux, hd2, hd])
    | blocked s2 =>
      rw [h2] at ha2 hr2 hd2
      exact .sending n (ha2.trans ha) hn (hr2.trans hr) (hd2.trans hd)
    | done s2 =>
      rw [h2] at ha2 hr2 hd2
      simp only [TxOutcome.state] at ha2 hr2 hd2
      exact .sent s2.logSent rfl (by simp [State.logSent, ha2, ha]) (by simp [State.logSent, hr2, hr])
        (by simp [State.logSent, hd2, hd])

/-! ### The invariant -/

/-- The invariant reads the parser, the arbiter and the results alone. -/
theorem State.inv_congr {s t : State} (hd : t.demux = s.demux) (ha : t.arb = s.arb) (hr : t.out.rsp = s.out.rsp)
    (h : s.Inv) : t.Inv := by
  unfold State.Inv
  rw [hd, ha, hr]
  exact h

section
variable {s : State}
theorem State.Inv.demux (h : s.Inv) : s.demux.Inv := h.1
theorem State.Inv.arb (h : s.Inv) : s.arb.Inv := h.2.1
theorem State.Inv.rsp (h : s.Inv) : ∀ r ∈ s.out.rsp, r.Sound := h.2.2
end

theorem rsp_sound_append {s : State} {r : Result} (h : s.Inv) (hr : r.Sound) : ∀ x ∈ s.out.rsp ++ [r], x.Sound := by
  intro x hx
  rcases List.mem_append.1 hx with hx | hx
  · exact h.rsp x hx
  · rw [List.mem_singleton.1 hx]; exact hr

/-- R40, R47: an arbiter at rest has nothing to send and no read outstanding. -/
theorem Arbiter.inv_of_rest {a : Arbiter} (hs : a.astate = .idle ∨ a.astate = .fault) (hb : a.txbuf = [])
    (hn : a.txSent = 0) (hr : a.inRead = false) : a.Inv := by
  rcases hs with hs | hs <;> simp [Arbiter.Inv, hs, hb, hn, hr]

/-- R41: the commands that wait. -/
def IsWaiting (op : BitVec 3) : Prop := op = opReceivePacket ∨ op = opReceive ∨ op = opSendAndWaitAck ∨ op = opPoll

/-- R40, R41, R47: an arbiter in a wait. -/
theorem Arbiter.inv_of_wait {a : Arbiter} (hs : a.astate = .wait) (hb : a.txbuf = []) (hn : a.txSent = 0)
    (ho : IsWaiting a.op) : a.Inv := by
  simpa [Arbiter.Inv, hs, hb, hn, IsWaiting] using ho

/-- R47: outside a transmission `TXBUF` is empty. -/
theorem Arbiter.inv_txbuf {a : Arbiter} (h : a.Inv) (hs : a.astate ≠ .tx) : a.txbuf = [] ∧ a.txSent = 0 := h.1 hs
theorem Arbiter.inv_tx {a : Arbiter} (h : a.Inv) (hs : a.astate = .tx) : isPacked a.txbuf = true ∧
    a.txSent ≤ a.txbuf.length ∧ (a.op = opSend ∨ a.op = opSendAndWaitAck ∨ a.op = opPoll) := h.2.1 hs
theorem Arbiter.inv_wait {a : Arbiter} (h : a.Inv) (hs : a.astate = .wait) : IsWaiting a.op := h.2.2.1 hs
theorem Arbiter.inv_inRead {a : Arbiter} (h : a.Inv) (hs : a.astate ≠ .wait) : a.inRead = false := by
  by_contra hr; exact hs (h.2.2.2 (by simpa using hr))

/-- R181 keeps R30. -/
theorem Demux.pop_inv {d : Demux} (h : d.Inv) : d.pop.2.Inv := by
  unfold Demux.pop
  split
  · exact h
  · rename_i e es hq
    obtain ⟨h1, h2, h3, h4, h5, h6, h7, hev⟩ := h
    exact ⟨h1, h2, h3, h4, h5, h6, h7, fun x hx => hev x (by rw [hq]; exact List.mem_cons_of_mem e hx)⟩

/-- R30: every use of the test access keeps the parser's invariant. -/
theorem Demux.TestMove.inv {d e : Demux} (h : d.TestMove e) (hd : d.Inv) : e.Inv := by
  cases h with
  | kept => exact hd
  | byte b ts => exact Demux.feedByte_inv d b ts hd
  | ended => exact Demux.flushUnknown_inv hd
  | chunk c ts => exact Demux.feed_inv d c ts hd
  | popped => exact Demux.pop_inv hd

/-- R30: dropping queued events keeps the parser's invariant. -/
theorem Demux.inv_of_evq {d : Demux} {rest : List Event} (h : d.Inv) (hr : ∀ e ∈ rest, e ∈ d.evq) :
    Demux.Inv { d with evq := rest } := by
  obtain ⟨h1, h2, h3, h4, h5, h6, h7, hev⟩ := h
  exact ⟨h1, h2, h3, h4, h5, h6, h7, fun e he => hev e (hr e he)⟩

/-- R30: W1 and W2 keep the parser's invariant. -/
theorem State.beforeRead_demux_inv (s : State) (h : s.demux.Inv) : s.beforeRead.2.demux.Inv := by
  rcases s.beforeRead_cases with ⟨_, hb⟩ | ⟨_, pre, e, es, r, hq, _, _, hb⟩ | ⟨_, _, _, hb⟩ | ⟨_, _, _, hb⟩ <;> rw [hb]
  · exact h
  · exact Demux.inv_of_evq h fun x hx => by rw [hq]; simp [hx]
  · rw [State.finish_demux, State.readNow_demux]; exact Demux.inv_of_evq h fun x hx => by simp at hx
  · rw [State.readNow_demux]; exact Demux.inv_of_evq h fun x hx => by simp at hx

/-- R30: a read keeps the parser's invariant. -/
theorem State.readReturns_demux_inv (s : State) (ds : List ReadDraw) (n : Nat) (h : s.demux.Inv) :
    (s.readReturns ds n).demux.Inv := by
  simp only [State.readReturns, State.readAndFeed, State.readNow_demux]
  exact Demux.feed_inv _ _ _ h

/-- R30: a wait keeps the parser's invariant. -/
theorem State.waitLoop_demux_inv (ds : List ReadDraw) (s : State) (h : s.demux.Inv) : (State.waitLoop ds s).demux.Inv :=
  State.waitLoop_rel (R := fun s t => s.demux.Inv → t.demux.Inv) (fun h k hs => k (h hs)) State.beforeRead_demux_inv
    State.readReturns_demux_inv (fun _ _ => id) (fun _ _ => id) ds s h

/-- A wait that comes to something keeps the invariant of the arbiter and the results. -/
theorem State.WaitOutcome.inv {s t : State} (h : s.WaitOutcome t) (hi : s.Inv) (hw : s.arb.astate = .wait)
    (hd : t.demux.Inv) : t.Inv := by
  obtain ⟨hb, hn⟩ := Arbiter.inv_txbuf hi.arb (by simp [hw])
  have ho := Arbiter.inv_wait hi.arb hw
  cases h with
  | waiting sv ir ha hr =>
    exact ⟨hd, Arbiter.inv_of_wait (by rw [ha]; exact hw) (by rw [ha]; exact hb) (by rw [ha]; exact hn)
      (by rw [ha]; exact ho), by rw [hr]; exact hi.rsp⟩
  | ended sv r hs ha hr =>
    exact ⟨hd, Arbiter.inv_of_rest (by simp [ha]) (by rw [ha]; exact hb) (by rw [ha]; exact hn) (by rw [ha]),
      by rw [hr]; exact rsp_sound_append hi hs⟩
  | failed sv ha hr =>
    exact ⟨hd, Arbiter.inv_of_rest (by simp [ha]) (by rw [ha]) (by rw [ha]) (by rw [ha]),
      by rw [hr]; exact rsp_sound_append hi (bareResult_sound _)⟩

/-- R224 keeps the invariant. -/
theorem State.waitLoop_inv {s : State} (ds : List ReadDraw) (h : s.Inv) (hw : s.arb.astate = .wait) :
    (State.waitLoop ds s).Inv :=
  (State.waitLoop_outcome ds s).inv h hw (State.waitLoop_demux_inv ds s h.demux)

/-- R231 keeps the invariant, with `TXBUF` empty and a command that waits. -/
theorem State.startWait_inv {s : State} (hd : s.demux.Inv) (hr : ∀ r ∈ s.out.rsp, r.Sound) (hb : s.arb.txbuf = [])
    (hn : s.arb.txSent = 0) (ho : IsWaiting s.arb.op) : s.startWait.Inv := by
  obtain ⟨u, dl, he, ha, hout, hdm⟩ := s.startWait_eq
  rw [he]
  refine State.waitLoop_inv _ ⟨by rw [hdm]; exact hd, ?_, by rw [hout]; exact hr⟩ (by rw [ha])
  exact Arbiter.inv_of_wait (by rw [ha]) (by rw [ha]; exact hb) (by rw [ha]; exact hn) (by rw [ha]; exact ho)

/-- R223 keeps the invariant. -/
theorem State.transmit_inv {s : State} (h : s.Inv) (hs : s.arb.astate = .tx) : s.transmit.Inv := by
  have hir := Arbiter.inv_inRead h.arb (by simp [hs])
  obtain ⟨hp, hle, ho⟩ := Arbiter.inv_tx h.arb hs
  have hout := s.transmit_outcome
  generalize s.transmit = t at hout
  cases hout with
  | sending n ha hn hr hd =>
    refine ⟨by rw [hd]; exact h.demux, ?_, by rw [hr]; exact h.rsp⟩
    rw [ha]
    simp only [Arbiter.Inv, hs, hir]
    exact ⟨by simp, fun _ => ⟨hp, hn hle, ho⟩, by simp, by simp⟩
  | failed ha hr hd =>
    exact ⟨by rw [hd]; exact h.demux, Arbiter.inv_of_rest (by simp [ha]) (by rw [ha]) (by rw [ha]) (by rw [ha]),
      by rw [hr]; exact rsp_sound_append h (bareResult_sound _)⟩
  | sent u ht ha hr hd =>
    subst ht
    have hui : u.demux.Inv := by rw [hd]; exact h.demux
    have hur : ∀ r ∈ u.out.rsp, r.Sound := by rw [hr]; exact h.rsp
    unfold State.afterSend
    split
    · rename_i hop
      exact State.startWait_inv hui hur (by rw [ha]) (by rw [ha]) (.inr (.inr hop))
    · refine ⟨hui, Arbiter.inv_of_rest (.inl rfl) ?_ ?_ ?_, ?_⟩
      · rw [State.finish_arb, ha]
      · rw [State.finish_arb, ha]
      · rw [State.finish_arb, ha]; exact hir
      · rw [State.finish_out, hr]; exact rsp_sound_append h (bareResult_sound _)

/-- R48: a command that goes on keeps the invariant. -/
theorem State.goOn_inv {s : State} (h : s.Inv) : s.goOn.Inv := by
  unfold State.goOn
  cases hs : s.arb.astate <;> dsimp only
  case idle => exact h
  case fault => exact h
  case tx => exact State.transmit_inv h hs
  case wait => exact State.waitLoop_inv _ h hs

/-- R47, R150: a packed frame is one `TXBUF` may hold. -/
theorem isPacked_pack (c i : Byte) (p : Bytes) (h : p.length ≤ 65535) : isPacked (pack c i p) = true := by
  have hu := unpack_pack_append c i p [] h
  rw [List.append_nil] at hu
  simp [isPacked, hu, (lengthFits_iff p).2 h]

/-- R223: a sending command taken in `A_IDLE` keeps the invariant. -/
theorem State.sendFrame_inv {s : State} {d : Descriptor} (h : s.Inv) (hs : s.arb.astate = .idle)
    (hp : d.payload.length ≤ 65535) {a : Arbiter} (hir : a.inRead = s.arb.inRead)
    (ho : a.op = opSend ∨ a.op = opSendAndWaitAck ∨ a.op = opPoll) : (State.sendFrame { s with arb := a } d).Inv := by
  refine State.transmit_inv ⟨h.demux, ?_, h.rsp⟩ rfl
  have := Arbiter.inv_inRead h.arb (by simp [hs])
  simp only [Arbiter.Inv, hir, this]
  exact ⟨by simp, fun _ => ⟨isPacked_pack _ _ _ hp, Nat.zero_le _, ho⟩, by simp, by simp⟩

/-- R30, R44, R47, R48: every instruction keeps the invariant. -/
theorem State.ExecEffect.inv {s t : State} {i : Instr} (h : s.ExecEffect i t) (hi : s.Inv) : t.Inv := by
  cases h with
  | refused _ _ => exact ⟨hi.demux, hi.arb, rsp_sound_append hi (bareResult_sound _)⟩
  | held _ _ => exact State.goOn_inv (State.inv_congr rfl rfl rfl hi)
  | sends hs hp => exact State.sendFrame_inv hi hs hp rfl (.inl rfl)
  | asks hs hp ho => exact State.sendFrame_inv hi hs hp rfl (.inr (ho.imp And.right And.right))
  | receives hs ho =>
    obtain ⟨hb, hn⟩ := Arbiter.inv_txbuf hi.arb (by simp [hs])
    exact State.startWait_inv hi.demux hi.rsp hb hn (ho.elim (fun h => .inl h.2) (fun h => .inr (.inl h.2)))
  | arrives _ _ => exact State.goOn_inv (State.inv_congr rfl rfl rfl hi)
  | tested _ _ ht =>
    exact ⟨ht.demux.inv hi.demux, by rw [ht.arb]; exact hi.arb, by rw [ht.out]; exact hi.rsp⟩

/-- R53: the fresh parser and arbiter meet their invariants. -/
theorem fresh_inv : Demux.fresh.Inv ∧ Arbiter.fresh.Inv :=
  ⟨Demux.inv_of_idle _ rfl rfl (by simp [Demux.fresh]), Arbiter.inv_of_rest (.inl rfl) rfl rfl rfl⟩

/-- Settles O46: the fresh parser and arbiter, and no result yet. -/
theorem resetMeetsTheInvariant : Obligations.ResetMeetsTheInvariant := by
  unfold Obligations.ResetMeetsTheInvariant
  exact ⟨fresh_inv.1, fresh_inv.2, by simp [State.reset]⟩

/-- Settles O47, by what a step can do: `rst`, going on, or the effect of an instruction. -/
theorem stepKeepsTheInvariant : Obligations.StepKeepsTheInvariant := by
  unfold Obligations.StepKeepsTheInvariant
  intro s t hi hst
  cases hst.effect with
  | reset _ => exact ⟨fresh_inv.1, fresh_inv.2, hi.rsp⟩
  | goesOn _ => exact State.goOn_inv hi
  | runs _ _ _ he => exact he.inv (State.inv_congr rfl rfl rfl hi)

/-- Settles O48: the values of `State.reset`, and an idle block that goes on with nothing. -/
theorem resetState : Obligations.ResetState := by
  unfold Obligations.ResetState
  exact ⟨rfl, rfl, rfl, rfl, rfl, rfl, rfl, rfl, rfl⟩

/-! ### Results and the wait's operands -/

/-- R48, R329: a command stays in progress and has delivered nothing, or has ended with one result. -/
def State.EndsWithOne (s t : State) : Prop :=
  ((t.arb.astate = .tx ∨ t.arb.astate = .wait) ∧ t.out.rsp = s.out.rsp) ∨
  ((t.arb.astate = .idle ∨ t.arb.astate = .fault) ∧ ∃ r, t.out.rsp = s.out.rsp ++ [r])

theorem State.waitLoop_endsWithOne {s : State} (ds : List ReadDraw) (hw : s.arb.astate = .wait) :
    s.EndsWithOne (State.waitLoop ds s) := by
  cases State.waitLoop_outcome ds s with
  | waiting sv ir ha hr => exact .inl ⟨.inr (by rw [ha]; exact hw), hr⟩
  | ended sv r _ ha hr => exact .inr ⟨.inl (by rw [ha]), r, hr⟩
  | failed sv ha hr => exact .inr ⟨.inr (by rw [ha]), _, hr⟩

theorem State.startWait_endsWithOne (s : State) : s.EndsWithOne s.startWait := by
  obtain ⟨u, dl, he, ha, hout, _⟩ := s.startWait_eq
  have h := State.waitLoop_endsWithOne u.env.reads (s := u) (by rw [ha])
  rw [he]
  simpa only [State.EndsWithOne, hout] using h

theorem State.transmit_endsWithOne {s : State} (hs : s.arb.astate = .tx) : s.EndsWithOne s.transmit := by
  have hout := s.transmit_outcome
  generalize s.transmit = t at hout
  cases hout with
  | sending n ha _ hr _ => exact .inl ⟨.inl (by rw [ha]; exact hs), hr⟩
  | failed ha hr _ => exact .inr ⟨.inr (by rw [ha]), _, hr⟩
  | sent u ht _ hr _ =>
    subst ht
    unfold State.afterSend
    split
    · have h := u.startWait_endsWithOne
      simpa only [State.EndsWithOne, hr] using h
    · exact .inr ⟨.inl rfl, okResult, by rw [State.finish_out, hr]⟩

/-- R329: a command in progress that goes on stays in progress or ends with one result. -/
theorem State.goOn_endsWithOne {s : State} (hs : s.arb.astate = .tx ∨ s.arb.astate = .wait) : s.EndsWithOne s.goOn := by
  unfold State.goOn
  rcases hs with hs | hs <;> simp only [hs]
  · exact State.transmit_endsWithOne hs
  · exact State.waitLoop_endsWithOne _ hs

/-- R22, R40: with no command in progress nothing goes on. -/
theorem State.goOn_rest {s : State} (hs : s.arb.astate = .idle ∨ s.arb.astate = .fault) : s.goOn = s := by
  unfold State.goOn
  rcases hs with hs | hs <;> simp only [hs]

/-- R224: a wait goes on with the reads the environment has left. -/
theorem State.goOn_wait {s : State} (hs : s.arb.astate = .wait) : s.goOn = State.waitLoop s.env.reads s := by
  unfold State.goOn; simp only [hs]

theorem AState.progress_or_rest (a : AState) : (a = .tx ∨ a = .wait) ∨ (a = .idle ∨ a = .fault) := by
  cases a <;> decide

/-- R48: what a step other than `rst` does to the results: what becomes of the command in progress or taken, a refusal,
or nothing. -/
inductive State.ResultEffect (s t : State) : Prop where
  | command : s.EndsWithOne t → ResultEffect s t
  | refused : s.arb.astate = .idle ∨ s.arb.astate = .fault → t.arb.astate = s.arb.astate →
      (∃ r, t.out.rsp = s.out.rsp ++ [r]) → ResultEffect s t
  | none : t.arb.astate = s.arb.astate → t.out.rsp = s.out.rsp → ResultEffect s t

/-- The effect on the results depends on `ASTATE` and the results before alone. -/
theorem State.ResultEffect.of_eq {u s t : State} (h : u.ResultEffect t) (ha : u.arb.astate = s.arb.astate)
    (hr : u.out.rsp = s.out.rsp) : s.ResultEffect t := by
  cases h with
  | command h => exact .command (by simpa only [State.EndsWithOne, hr] using h)
  | refused hs h1 h2 => exact .refused (ha ▸ hs) (h1.trans ha) (hr ▸ h2)
  | none h1 h2 => exact .none (h1.trans ha) (h2.trans hr)

theorem State.goOn_resultEffect (s : State) : s.ResultEffect s.goOn := by
  rcases s.arb.astate.progress_or_rest with hs | hs
  · exact .command (State.goOn_endsWithOne hs)
  · rw [State.goOn_rest hs]; exact .none rfl rfl

/-- R223, R48: a sending command taken in `A_IDLE` is under way or has ended with one result. -/
theorem State.sendFrame_endsWithOne (s : State) (d : Descriptor) : s.EndsWithOne (s.sendFrame d) :=
  State.transmit_endsWithOne (s := { s with arb := { s.arb with astate := .tx, txbuf := _, txSent := 0 } }) rfl

theorem State.ExecEffect.resultEffect {s t : State} {i : Instr} (h : s.ExecEffect i t) : s.ResultEffect t := by
  cases h with
  | refused _ hs => exact .refused hs rfl ⟨_, rfl⟩
  | held _ hs => exact .command (State.goOn_endsWithOne (s := { s with ports := _ }) hs)
  | sends _ _ => exact .command (State.sendFrame_endsWithOne (State.takeOp s _ _) _)
  | asks _ _ _ => exact .command (State.sendFrame_endsWithOne ((State.takeOp s _ _).setPending _) _)
  | receives _ _ => exact .command (State.startWait_endsWithOne (State.takeOp s _ _))
  | arrives _ _ => exact (State.goOn_resultEffect (s.arrive _)).of_eq rfl rfl
  | tested _ _ ht => exact .none (by rw [ht.arb]) (by rw [ht.out])

theorem frameParts_of_cmd {i : Instr} (h : formatOf i = .cmd) : frameParts i = none := by
  cases i <;> simp_all [formatOf, frameParts]

/-- R221, R329: a command transaction in `A_IDLE` is refused with a result, or taken. -/
theorem State.ExecEffect.command_endsWithOne {s t : State} {i : Instr} (h : s.ExecEffect i t)
    (hs : s.arb.astate = .idle) (hi : formatOf i = .cmd) : s.EndsWithOne t := by
  cases h with
  | refused _ _ => exact .inr ⟨.inl hs, _, rfl⟩
  | held _ hp => simp [hs] at hp
  | sends _ _ => exact State.sendFrame_endsWithOne (State.takeOp s _ _) _
  | asks _ _ _ => exact State.sendFrame_endsWithOne ((State.takeOp s _ _).setPending _) _
  | receives _ _ => exact State.startWait_endsWithOne (State.takeOp s _ _)
  | arrives hf _ => rw [frameParts_of_cmd hi] at hf; cases hf
  | tested hc _ _ => exact absurd hi hc

theorem Steps.resultEffect {s t : State} (h : Steps s t) (hr : ∀ ps, s.ports ≠ .rst :: ps) : s.ResultEffect t := by
  cases h.effect with
  | reset hp => exact absurd hp (hr _)
  | goesOn _ => exact s.goOn_resultEffect
  | runs _ _ _ he => exact he.resultEffect.of_eq rfl rfl

theorem State.EndsWithOne.ended {s t : State} (h : s.EndsWithOne t) (ht : t.arb.astate = .idle ∨ t.arb.astate = .fault) :
    ∃ r, t.out.rsp = s.out.rsp ++ [r] := by
  rcases h with ⟨hp, -⟩ | ⟨-, h⟩
  · rcases hp with hp | hp <;> simp [hp] at ht
  · exact h

theorem State.ResultEffect.one {s t : State} (h : s.ResultEffect t) :
    (t.out.rsp = s.out.rsp ∨ ∃ r, t.out.rsp = s.out.rsp ++ [r]) ∧
    (t.arb.astate = .tx ∨ t.arb.astate = .wait → t.out.rsp = s.out.rsp) ∧
    (s.arb.astate = .tx ∨ s.arb.astate = .wait → t.arb.astate = .idle ∨ t.arb.astate = .fault →
      ∃ r, t.out.rsp = s.out.rsp ++ [r]) := by
  have apart : ∀ a : AState, a = .tx ∨ a = .wait → ¬ (a = .idle ∨ a = .fault) := by
    intro a; cases a <;> decide
  cases h with
  | command h =>
    refine ⟨?_, fun hp => ?_, fun _ => h.ended⟩
    · rcases h with ⟨-, h⟩ | ⟨-, h⟩
      · exact .inl h
      · exact .inr h
    · rcases h with ⟨-, h⟩ | ⟨he, -⟩
      · exact h
      · exact absurd he (apart _ hp)
  | refused hs ha h => exact ⟨.inr h, fun hp => absurd (ha ▸ hs) (apart _ hp), fun hp => absurd hs (apart _ hp)⟩
  | none ha h => exact ⟨.inl h, fun _ => h, fun hp he => absurd (ha ▸ he) (apart _ hp)⟩

/-- Settles O52, by what each step does to the results; `rst` delivers none and ends in `A_IDLE`. -/
theorem oneResultAtMost : Obligations.OneResultAtMost := by
  unfold Obligations.OneResultAtMost
  refine ⟨fun s t h => ?_, fun i s t hs hi h ht => ((exec_effect h).command_endsWithOne hs hi).ended ht⟩
  by_cases hr : ∃ ps, s.ports = .rst :: ps
  · obtain ⟨ps, hp⟩ := hr
    cases h.effect with
    | reset _ => exact ⟨.inl rfl, fun _ => rfl, fun _ hn => absurd hp (hn ps)⟩
    | goesOn hq => rw [hp] at hq; cases hq
    | runs hq _ _ _ => rw [hp] at hq; cases hq
  · obtain ⟨h1, h2, h3⟩ := (h.resultEffect (fun ps hp => hr ⟨ps, hp⟩)).one
    exact ⟨h1, h2, fun hs _ => h3 hs⟩

/-- R48: the operands of a wait. -/
def Arbiter.SameOperands (a b : Arbiter) : Prop :=
  b.deadline = a.deadline ∧ b.op = a.op ∧ b.pendClass = a.pendClass ∧ b.pendId = a.pendId

/-- R43, R48, R234: a wait that goes on or ends keeps its operands. -/
theorem State.WaitOutcome.sameOperands {s t : State} (h : s.WaitOutcome t) : s.arb.SameOperands t.arb := by
  cases h with
  | waiting sv ir ha _ => rw [ha]; exact ⟨rfl, rfl, rfl, rfl⟩
  | ended sv r _ ha _ => rw [ha]; exact ⟨rfl, rfl, rfl, rfl⟩
  | failed sv ha _ => rw [ha]; exact ⟨rfl, rfl, rfl, rfl⟩

theorem State.goOn_sameOperands {s : State} (hs : s.arb.astate = .wait) : s.arb.SameOperands s.goOn.arb := by
  rw [State.goOn_wait hs]
  exact (State.waitLoop_outcome _ s).sameOperands

/-- Settles O54: in a wait a step goes on with it, also with a command held or a frame arriving, or leaves the arbiter as
it is. -/
theorem waitKeepsItsDeadline : Obligations.WaitKeepsItsDeadline := by
  unfold Obligations.WaitKeepsItsDeadline
  intro s t hs hr h
  show s.arb.SameOperands t.arb
  cases h.effect with
  | reset hp => exact absurd hp (hr _)
  | goesOn _ => exact State.goOn_sameOperands hs
  | @runs f bs ps i t _ _ _ he =>
    cases he with
    | refused _ hp => simp [hs] at hp
    | held _ _ => exact State.goOn_sameOperands (s := { s with ports := requeue _ ps }) hs
    | sends hp _ => simp [hs] at hp
    | asks hp _ _ => simp [hs] at hp
    | receives hp _ => simp [hs] at hp
    | arrives _ _ => exact State.goOn_sameOperands (s := State.arrive { s with ports := ps } _) hs
    | tested _ _ ht => rw [ht.arb]; exact ⟨rfl, rfl, rfl, rfl⟩

/-! ### The outputs and the environment -/

/-- R63, R52 (a): what an instruction brings to the RX stream: a frame row its frame, any other nothing. -/
def frameArrival (i : Instr) : Bytes :=
  match frameParts i with
  | some (m, p, ck) => frameBytes m p ck
  | none => []

theorem frameArrival_row {i : Instr} {m : MsgId} {p : Bytes} {ck : Word32} (h : frameParts i = some (m, p, ck)) :
    frameArrival i = frameBytes m p ck := by simp [frameArrival, h]
theorem frameArrival_none {i : Instr} (h : frameParts i = none) : frameArrival i = [] := by simp [frameArrival, h]

theorem arrivingBytes_decode {f : Format} {bs : Bytes} {i : Instr} (hd : decode f bs = .ok i) (ps : List PortInput) :
    arrivingBytes (.xact f bs :: ps) = frameArrival i := by
  cases h : frameParts i <;> simp [arrivingBytes, hd, h, frameArrival]

/-- R46, R63, R66, R76, R347: a step consumes the environment in order, the bytes `arr` that arrive in it behind what the
transport holds, and appends to the outputs. -/
structure State.Continues (s t : State) (arr : Bytes) : Prop where
  params : t.params = s.params
  now : s.env.now ≤ t.env.now
  rx : t.env.rx <:+ s.env.rx ++ arr
  reads : t.env.reads <:+ s.env.reads
  writes : t.env.writes <:+ s.env.writes
  clock : t.env.clock <:+ s.env.clock
  stamps : t.env.stamps <:+ s.env.stamps
  rsp : s.out.rsp <+: t.out.rsp
  tx : s.out.tx <+: t.out.tx
  test : s.out.test <+: t.out.test
  logs : ∃ recs : List LogRecord,
    t.out.log = s.out.log ++ (if s.params.logSink then recs.map LogRecord.entry else []) ∧
    t.out.pktLog = s.out.pktLog ++ (if s.params.pktLogSink then recs.filterMap packetRecord else [])

/-- The arbiter's actions continue the state they start from, whatever its parser, arbiter and ports were before. -/
theorem State.Extends.continues {s u t : State} (h : u.Extends t) (hp : u.params = s.params) (ho : u.out = s.out)
    {arr : Bytes} (he : u.env = { s.env with rx := s.env.rx ++ arr }) : s.Continues t arr := by
  obtain ⟨h1, -, h3, h4, h5, h6, h7, h8, h9, h10, h11, recs, h12, h13⟩ := h
  rw [hp] at h1 h12 h13
  rw [ho] at h9 h10 h11 h12 h13
  rw [he] at h3 h4 h5 h6 h7 h8
  exact ⟨h1, h4, h5, h6, h7, h8, by rw [h3], h9, h10, by rw [h11], recs, h12, h13⟩

/-- Only the parser, the arbiter and the ports are changed before the arbiter's actions, and nothing arrives. -/
theorem State.Extends.continues_quiet {s u t : State} (h : u.Extends t) (hp : u.params = s.params) (ho : u.out = s.out)
    (he : u.env = s.env) : s.Continues t [] :=
  h.continues hp ho (by rw [he, List.append_nil])

theorem State.sendFrame_extends (s : State) (d : Descriptor) :
    State.Extends { s with arb := { s.arb with astate := .tx, txbuf := pack d.cls d.id d.payload, txSent := 0 } }
      (s.sendFrame d) :=
  State.transmit_extends _

theorem State.TestAccess.continues {s t : State} (h : s.TestAccess t) : s.Continues t [] where
  params := h.params
  now := by rw [h.env]; exact BitVec.le_refl _
  rx := by rw [h.env, List.append_nil]
  reads := by rw [h.env]
  writes := by rw [h.env]
  clock := by rw [h.env]
  stamps := h.stamps
  rsp := by rw [h.out]
  tx := by rw [h.out]
  test := h.test
  logs := ⟨[], by rw [h.out]; simp, by rw [h.out]; simp⟩

theorem State.ExecEffect.continues {s t : State} {i : Instr} (h : s.ExecEffect i t) : s.Continues t (frameArrival i) := by
  cases h with
  | refused hc _ =>
    rw [frameArrival_none (frameParts_of_cmd hc)]
    exact (s.respond_extends _).continues_quiet rfl rfl rfl
  | held hc _ =>
    rw [frameArrival_none (frameParts_of_cmd hc)]
    exact (State.goOn_extends { s with ports := _ }).continues_quiet rfl rfl rfl
  | sends _ _ => exact (State.sendFrame_extends _ _).continues_quiet rfl rfl rfl
  | asks _ _ hi =>
    rw [frameArrival_none (by rcases hi with ⟨rfl, -⟩ | ⟨rfl, -⟩ <;> rfl)]
    exact (State.sendFrame_extends _ _).continues_quiet rfl rfl rfl
  | receives _ hi =>
    rw [frameArrival_none (by rcases hi with ⟨rfl, -⟩ | ⟨rfl, -⟩ <;> rfl)]
    exact (State.startWait_extends _).continues_quiet rfl rfl rfl
  | arrives hf _ =>
    rw [frameArrival_row hf]
    exact (State.goOn_extends (s.arrive (frameBytes _ _ _))).continues (s := s) rfl rfl rfl
  | tested _ hf ht => rw [frameArrival_none hf]; exact ht.continues

theorem Steps.continues {s t : State} (h : Steps s t) : s.Continues t (arrivingBytes s.ports) := by
  cases h.effect with
  | reset hp =>
    rw [hp]
    exact (State.Extends.refl { s with demux := .fresh, arb := .fresh, ports := _ }).continues_quiet rfl rfl rfl
  | goesOn hp => rw [hp]; exact s.goOn_extends.continues_quiet rfl rfl rfl
  | runs hp hd _ he =>
    rw [hp, arrivingBytes_decode hd]
    have hc := he.continues
    exact ⟨hc.params, hc.now, hc.rx, hc.reads, hc.writes, hc.clock, hc.stamps, hc.rsp, hc.tx, hc.test, hc.logs⟩

/-- Settles O58: the order by what each step continues, the records and names by the registry's own entries. -/
theorem stepsAppendAndConsumeInOrder : Obligations.StepsAppendAndConsumeInOrder := by
  unfold Obligations.StepsAppendAndConsumeInOrder
  refine ⟨fun s t h => ?_, fun m p bs ts => ⟨rfl, rfl, ⟨Config.sentenceKey bs, rfl⟩, rfl, rfl⟩,
    rfl, rfl, rfl, rfl, rfl, rfl, rfl, rfl, rfl, rfl, rfl⟩
  have hc := h.continues
  exact ⟨hc.params, hc.now, hc.rx, hc.reads, hc.writes, hc.clock, hc.stamps, hc.rsp, hc.tx, hc.test, hc.logs⟩

/-! ### The one-time record -/

/-- R45, R225, R240: the records a run of actions logs, with the one-time record exactly where it sets `SEEN_VALID` and the
sink is present. -/
def State.Notes (s t : State) : Prop :=
  t.params = s.params ∧ (s.arb.seenValid = true → t.arb.seenValid = true) ∧
  ∃ recs : List LogRecord, t.out.log = s.out.log ++ recs.map LogRecord.entry ∧
    recs.countP LogRecord.isFirstValid
      = if s.params.logSink = true ∧ s.arb.seenValid = false ∧ t.arb.seenValid = true then 1 else 0

/-- An action that logs nothing and leaves the flag. -/
theorem State.Notes.of_eq {s t : State} (hp : t.params = s.params) (hs : t.arb.seenValid = s.arb.seenValid)
    (hl : t.out.log = s.out.log) : s.Notes t := by
  refine ⟨hp, fun h => hs ▸ h, [], by simpa using hl, ?_⟩
  rw [hs]; cases s.arb.seenValid <;> simp

theorem State.Notes.trans {s t u : State} (h : s.Notes t) (k : t.Notes u) : s.Notes u := by
  obtain ⟨hp, hs, rs, hl, hc⟩ := h
  obtain ⟨kp, ks, qs, kl, kc⟩ := k
  refine ⟨kp.trans hp, ks ∘ hs, rs ++ qs, by rw [kl, hl, List.map_append, List.append_assoc], ?_⟩
  rw [List.countP_append, hc, kc, hp]
  cases h1 : s.arb.seenValid
  · cases h2 : t.arb.seenValid
    · simp
    · simp [ks h2]
  · simp [hs h1]

/-- R225: popping events records the first valid packet once, if it is among them and none was seen. -/
theorem countP_popRecords (seen : Bool) (es : List Event) :
    (popRecords seen es).countP LogRecord.isFirstValid
      = if seen = false ∧ es.any Event.isPacket = true then 1 else 0 := by
  induction es generalizing seen with
  | nil => simp [popRecords]
  | cons e es ih => cases e <;> cases seen <;> simp [popRecords, ih, Event.isPacket, LogRecord.isFirstValid, List.countP_cons]

theorem State.popAll_notes (s : State) (popped rest : List Event) : s.Notes (s.popAll popped rest) := by
  refine ⟨rfl, fun h => by simp [State.popAll, h], if s.params.logSink then popRecords s.arb.seenValid popped else [],
    ?_, ?_⟩
  · cases hl : s.params.logSink <;> simp [State.popAll, hl]
  · cases hl : s.params.logSink <;> cases hs : s.arb.seenValid <;>
      simp [State.popAll, hs, countP_popRecords]

theorem State.readNow_notes (s : State) : s.Notes s.readNow.2 := .of_eq (by simp) (by simp) (by simp)

theorem State.beforeRead_notes (s : State) : s.Notes s.beforeRead.2 := by
  rcases s.beforeRead_cases with ⟨_, h⟩ | ⟨_, pre, e, es, r, _, _, _, h⟩ | ⟨_, _, _, h⟩ | ⟨_, _, _, h⟩ <;> rw [h]
  · exact .of_eq rfl rfl rfl
  · exact (s.popAll_notes _ _).trans (.of_eq rfl rfl rfl)
  · exact ((s.popAll_notes _ _).trans (State.readNow_notes _)).trans (.of_eq rfl rfl rfl)
  · exact (s.popAll_notes _ _).trans (State.readNow_notes _)

theorem State.waitLoop_notes (ds : List ReadDraw) (s : State) : s.Notes (State.waitLoop ds s) :=
  State.waitLoop_rel (R := State.Notes) State.Notes.trans State.beforeRead_notes
    (fun s ds n => .of_eq (by simp [State.readReturns]) (by rw [State.readReturns_arb]) (by rw [State.readReturns_out]))
    (fun _ _ => .of_eq rfl rfl rfl) (fun _ _ => .of_eq rfl rfl rfl) ds s

theorem State.startWait_notes (s : State) : s.Notes s.startWait :=
  (s.readNow_notes.trans (.of_eq rfl rfl rfl)).trans (State.waitLoop_notes _ _)

/-- R223: the record of a sent frame is not the one-time record. -/
theorem State.logSent_notes (s : State) : s.Notes s.logSent := by
  refine ⟨by simp [State.logSent], fun h => by simpa [State.logSent] using h,
    if s.params.logSink then [.sent ⟨byteAt s.arb.txbuf 4, byteAt s.arb.txbuf 5⟩ s.arb.txbuf s.readNow.1] else [], ?_, ?_⟩
  · cases hl : s.params.logSink <;> simp [State.logSent, hl]
  · cases hl : s.params.logSink <;> cases hs : s.arb.seenValid <;>
      simp [State.logSent, hs, LogRecord.isFirstValid]

theorem State.afterSend_notes (s : State) : s.Notes s.afterSend := by
  unfold State.afterSend
  split
  · exact s.startWait_notes
  · exact .of_eq rfl rfl rfl

theorem State.portWrite_notes (s : State) : s.Notes s.portWrite.state := by
  have h := s.portWrite_effect
  generalize s.portWrite = o at h
  cases h <;> exact .of_eq rfl rfl rfl

theorem State.portFlush_notes (s : State) : s.Notes s.portFlush.state := by
  rcases s.portFlush_cases with ⟨ws, _, he⟩ | ⟨k, ws, _, he⟩ | ⟨k, ws, _, he⟩ <;> rw [he] <;> exact .of_eq rfl rfl rfl

theorem State.transmit_notes (s : State) : s.Notes s.transmit := by
  have hw := s.portWrite_notes
  unfold State.transmit
  cases h1 : s.portWrite with
  | failed s1 => rw [h1] at hw; exact hw.trans (.of_eq rfl rfl rfl)
  | blocked s1 => rw [h1] at hw; exact hw
  | done s1 =>
    rw [h1] at hw
    have hf := s1.portFlush_notes
    dsimp only
    cases h2 : s1.portFlush with
    | failed s2 => rw [h2] at hf; exact (hw.trans hf).trans (.of_eq rfl rfl rfl)
    | blocked s2 => rw [h2] at hf; exact hw.trans hf
    | done s2 => rw [h2] at hf; exact ((hw.trans hf).trans s2.logSent_notes).trans (State.afterSend_notes _)

theorem State.goOn_notes (s : State) : s.Notes s.goOn := by
  unfold State.goOn
  split
  · exact .of_eq rfl rfl rfl
  · exact .of_eq rfl rfl rfl
  · exact s.transmit_notes
  · exact State.waitLoop_notes _ _

/-- R223: taking a sending command leaves the flag and the records as its transmission finds them. -/
theorem State.sendFrame_notes (s : State) (d : Descriptor) : s.Notes (s.sendFrame d) :=
  (State.Notes.of_eq rfl rfl rfl).trans (State.transmit_notes _)

theorem State.ExecEffect.notes {s t : State} {i : Instr} (h : s.ExecEffect i t) : s.Notes t := by
  cases h with
  | refused _ _ => exact .of_eq rfl rfl rfl
  | held _ _ => exact (State.Notes.of_eq rfl rfl rfl).trans (State.goOn_notes _)
  | sends _ _ => exact (State.Notes.of_eq rfl rfl rfl).trans (State.sendFrame_notes _ _)
  | asks _ _ _ => exact (State.Notes.of_eq rfl rfl rfl).trans (State.sendFrame_notes _ _)
  | receives _ _ => exact (State.Notes.of_eq rfl rfl rfl).trans (State.startWait_notes _)
  | arrives _ _ => exact (State.Notes.of_eq rfl rfl rfl).trans (State.goOn_notes _)
  | tested _ _ ht => exact .of_eq ht.params (by rw [ht.arb]) (by rw [ht.out])

theorem Steps.notes {s t : State} (h : Steps s t) (hr : ∀ ps, s.ports ≠ .rst :: ps) : s.Notes t := by
  cases h.effect with
  | reset hp => exact absurd hp (hr _)
  | goesOn _ => exact s.goOn_notes
  | runs _ _ _ he => exact (State.Notes.of_eq rfl rfl rfl).trans he.notes

/-- R225: a list of records counts a one-time record exactly where one is in it. -/
theorem countP_firstValid_pos {recs : List LogRecord} :
    0 < recs.countP LogRecord.isFirstValid ↔ ∃ m, LogRecord.firstValid m ∈ recs := by
  rw [List.countP_pos_iff]
  constructor
  · rintro ⟨r, hr, h⟩
    cases r <;> simp only [LogRecord.isFirstValid, Bool.false_eq_true] at h
    exact ⟨_, hr⟩
  · rintro ⟨m, hm⟩; exact ⟨_, hm, rfl⟩

/-- Settles O57, by the records each step notes; the one-time record's severity is `LogRecord.severity`'s. -/
theorem firstValidIsRecordedOnce : Obligations.FirstValidIsRecordedOnce := by
  unfold Obligations.FirstValidIsRecordedOnce
  intro s t hr h
  obtain ⟨-, hs, recs, hl, hc⟩ := h.notes hr
  refine ⟨hs, recs, hl, by rw [hc]; split <;> omega, fun h1 m hm => ?_, fun hm => ?_, fun h1 h2 h3 => ?_, ?_⟩
  · have := countP_firstValid_pos.2 ⟨m, hm⟩
    simp [hc, h1] at this
  · have := countP_firstValid_pos.2 hm
    rw [hc] at this
    split at this
    · rename_i hb; obtain ⟨-, -, ht⟩ := hb; exact ht
    · omega
  · exact countP_firstValid_pos.1 (by rw [hc, if_pos ⟨h1, h2, h3⟩]; omega)
  · intro e he hf
    obtain ⟨r, -, rfl⟩ := List.mem_map.1 he
    rw [LogRecord.entry_record] at hf
    cases r <;> simp only [LogRecord.isFirstValid, Bool.false_eq_true] at hf
    rfl

/-! ### The parser over a stream: conservation, and a frame byte by byte -/

theorem Demux.flushUnknown_of_nil {d : Demux} (h : d.unk = []) : d.flushUnknown = d := if_pos h

theorem Demux.flushUnknown_evq (d : Demux) : d.evq <+: d.flushUnknown.evq := by
  rw [Demux.flushUnknown_eq]; exact List.prefix_append _ _

theorem Demux.idleByte_evq (d : Demux) (b : Byte) (ts : Time) : d.evq <+: (d.idleByte b ts).evq := by
  unfold Demux.idleByte
  split
  · exact d.flushUnknown_evq
  split
  · exact d.flushUnknown_evq
  · exact List.prefix_refl _

theorem Demux.complete_evq (d : Demux) : d.evq <+: d.complete.evq := by
  unfold Demux.complete
  split <;> exact List.prefix_append _ _

/-- R29: a byte only adds to the queue, at its tail. -/
theorem Demux.feedByte_evq (d : Demux) (b : Byte) (ts : Time) : d.evq <+: (d.feedByte b ts).evq := by
  unfold Demux.feedByte
  split
  case h_1 => exact d.idleByte_evq b ts
  case h_2 =>
    unfold Demux.sync1Byte
    split
    · exact List.prefix_refl _
    · exact d.demote.idleByte_evq b ts
  case h_3 => exact List.prefix_refl _
  case h_4 =>
    unfold Demux.lenLoByte
    split
    · exact List.prefix_append _ _
    · exact List.prefix_refl _
  case h_5 =>
    unfold Demux.bodyByte
    split
    · exact Demux.complete_evq { d.append b with remaining := d.remaining - 1 }
    · exact List.prefix_refl _
  case h_6 =>
    unfold Demux.nmeaByte
    split
    · exact List.prefix_append _ _
    split
    · exact List.prefix_append _ _
    · exact List.prefix_refl _

theorem Demux.feedBytes_cons (d : Demux) (b : Byte) (c : Bytes) (ts : Time) :
    d.feedBytes (b :: c) ts = (d.feedByte b ts).feedBytes c ts := rfl

theorem Demux.feedBytes_concat (d : Demux) (c : Bytes) (b : Byte) (ts : Time) :
    d.feedBytes (c ++ [b]) ts = (d.feedBytes c ts).feedByte b ts := by
  simp [Demux.feedBytes]

theorem Demux.feedBytes_evq (d : Demux) (c : Bytes) (ts : Time) : d.evq <+: (d.feedBytes c ts).evq := by
  induction c generalizing d with
  | nil => exact List.prefix_refl _
  | cons b c ih => rw [Demux.feedBytes_cons]; exact (d.feedByte_evq b ts).trans (ih _)

/-- Settles O24, from the conservation over a chunk's bytes and the flush that follows them. -/
theorem feedConservesBytes : Obligations.FeedConservesBytes := by
  unfold Obligations.FeedConservesBytes
  intro s c ts h
  refine ⟨s.demux.feed c ts, rfl, ?_, ?_, Demux.feed_inv _ _ _ h, ?_⟩
  · exact (Demux.flushUnknown_held _).trans (Demux.feedBytes_held _ _ _ h)
  · show (Demux.flushUnknown _).unk = []
    rw [Demux.flushUnknown_eq]
  · obtain ⟨es, he⟩ := (s.demux.feedBytes_evq c ts).trans (Demux.flushUnknown_evq _)
    exact ⟨es, he.symm⟩

/-- R112, R120, R176: the event a frame leaves: a packet where its checksum field is right, else unknown bytes. -/
def frameEvent (m : MsgId) (p : Bytes) (ck : Word32) (ts : Time) : Event :=
  if ck = checksum m.cls m.id p then .casicPacket m p ts (frameBytes m p ck) else .unknownBytes (frameBytes m p ck) ts

/-- R172 to R176: an idle parser that has taken the first `k` bytes of a frame, the first of them at `ts`. -/
def Demux.taking (d : Demux) (m : MsgId) (p : Bytes) (ck : Word32) (ts : Time) : Nat → Demux
  | 0 => d
  | 1 => { d with pstate := .sync1, acc := [0xBA], accTs := ts }
  | 2 => { d with pstate := .sync2, acc := [0xBA, 0xCE], accTs := ts }
  | 3 => { d with pstate := .lenLo, acc := [0xBA, 0xCE, byteOf p.length 0], accTs := ts, lenLo := byteOf p.length 0 }
  | k + 4 =>
    if k < 6 + p.length then
      { d with
        pstate := .body, acc := (frameBytes m p ck).take (k + 4), accTs := ts, lenLo := byteOf p.length 0
        remaining := 6 + p.length - k }
    else
      { d with
        pstate := .idle, acc := [], accTs := ts, lenLo := byteOf p.length 0, remaining := 0
        evq := d.evq ++ [frameEvent m p ck ts] }

section
variable {d : Demux} {m : MsgId} {p : Bytes} {ck : Word32} {ts : Time}

theorem Demux.taking_unk (hu : d.unk = []) (k : Nat) : (d.taking m p ck ts k).unk = [] := by
  unfold Demux.taking
  split
  case h_5 => split <;> exact hu
  all_goals exact hu

/-- Within a frame nothing is queued. -/
theorem Demux.taking_evq {k : Nat} (hk : k < 10 + p.length) : (d.taking m p ck ts k).evq = d.evq := by
  unfold Demux.taking
  split
  case h_5 => rw [if_pos (by omega)]
  all_goals rfl

/-- R176: the whole frame taken. -/
theorem Demux.taking_whole : d.taking m p ck ts (10 + p.length)
    = { d with
        pstate := .idle, acc := [], accTs := ts, lenLo := byteOf p.length 0, remaining := 0
        evq := d.evq ++ [frameEvent m p ck ts] } := by
  rw [show 10 + p.length = 6 + p.length + 4 by omega]
  exact if_neg (Nat.lt_irrefl _)

theorem take_succ_eq_byteAt {s : Bytes} {k : Nat} (h : k < s.length) : s.take (k + 1) = s.take k ++ [byteAt s k] := by
  rw [List.take_succ_eq_append_getElem h, byteAt, List.getD_eq_getElem s 0 h]

/-- R175: the length field of a frame within the bound is read back. -/
theorem le16_length (hp : p.length ≤ 4096) : le16 (byteOf p.length 0) (byteOf p.length 1) = p.length :=
  le16_byteOf _ (by omega)

/-- R176: a byte of a frame's body. -/
theorem Demux.taking_body (k : Nat) (hp : p.length ≤ 4096) (hk : k < 6 + p.length) (u : Time) :
    (d.taking m p ck ts (k + 4)).feedByte (byteAt (frameBytes m p ck) (k + 4)) u = d.taking m p ck ts (k + 5) := by
  have htake := take_succ_eq_byteAt (s := frameBytes m p ck) (k := k + 4) (by simp; omega)
  simp only [Demux.taking, if_pos hk, Demux.feedByte, Demux.bodyByte, Demux.append, ← htake]
  by_cases hl : k + 1 < 6 + p.length
  · rw [if_neg (by omega), if_pos hl, show 6 + p.length - k - 1 = 6 + p.length - (k + 1) by omega]
  · have hall : (frameBytes m p ck).take (k + 4 + 1) = frameBytes m p ck := List.take_of_length_le (by simp; omega)
    have hu := unpack_frameBytes m p [] ck (by omega)
    rw [List.append_nil] at hu
    rw [if_pos (by omega), if_neg hl, hall, Demux.complete, show 6 + p.length - k - 1 = 0 by omega]
    simp only [hu, frameEvent]
    split <;> rename_i heq <;> split at heq <;> cases heq
    · rename_i hc; rw [if_pos hc]; rfl
    · rename_i hc; rw [if_neg hc]; rfl

/-- R172 to R176: a parser within a frame takes its next byte; only the first byte's timestamp is kept. -/
theorem Demux.taking_feedByte (hd : d.pstate = .idle) (hu : d.unk = []) (hp : p.length ≤ 4096) {k : Nat}
    (hk : k < 10 + p.length) {u : Time} (ht : k = 0 → u = ts) :
    (d.taking m p ck ts k).feedByte (byteAt (frameBytes m p ck) k) u = d.taking m p ck ts (k + 1) := by
  match k with
  | 0 =>
    obtain rfl := ht rfl
    rw [frameBytes_eq]
    simp [Demux.taking, Demux.feedByte, hd, Demux.idleByte, Config.sync1, Demux.start, Demux.flushUnknown_of_nil hu]
  | 1 =>
    rw [frameBytes_eq]
    simp [Demux.taking, Demux.feedByte, Demux.sync1Byte, Config.sync2, Demux.append]
  | 2 =>
    rw [frameBytes_eq]
    simp [Demux.taking, Demux.feedByte, Demux.sync2Byte, Demux.append]
  | 3 =>
    have hb : byteAt (frameBytes m p ck) 3 = byteOf p.length 1 := by rw [frameBytes_eq]; rfl
    have hf : (frameBytes m p ck).take 4 = [0xBA, 0xCE, byteOf p.length 0, byteOf p.length 1] := by
      rw [frameBytes_eq]; rfl
    rw [hb]
    simp only [Demux.taking, Demux.feedByte, Demux.lenLoByte, le16_length hp, Demux.append]
    rw [if_neg (by simp only [Config.maxPayload]; omega), if_pos (by omega), hf]
    simp [Nat.add_comm]
  | k + 4 => exact Demux.taking_body k hp (by omega) u

/-- R180, R182: the next bytes of a frame, as one chunk; a chunk that begins the frame stamps it. -/
theorem Demux.taking_feedBytes (hd : d.pstate = .idle) (hu : d.unk = []) (hp : p.length ≤ 4096) {k n : Nat}
    (hk : k + n ≤ 10 + p.length) {u : Time} (ht : k = 0 → u = ts) :
    (d.taking m p ck ts k).feedBytes (((frameBytes m p ck).drop k).take n) u = d.taking m p ck ts (k + n) := by
  induction n with
  | zero => rfl
  | succ n ih =>
    have hb : byteAt ((frameBytes m p ck).drop k) n = byteAt (frameBytes m p ck) (k + n) := by
      simp [byteAt, List.getD_eq_getElem?_getD]
    rw [take_succ_eq_byteAt (by simp; omega), Demux.feedBytes_concat, ih (by omega), hb]
    by_cases h0 : k + n = 0
    · exact Demux.taking_feedByte hd hu hp (by omega) fun _ => ht (by omega)
    · exact Demux.taking_feedByte hd hu hp (by omega) fun h => absurd h h0

/-- The same with the `FEED_END` that follows: within a frame no run is pending. -/
theorem Demux.taking_feed (hd : d.pstate = .idle) (hu : d.unk = []) (hp : p.length ≤ 4096) {k n : Nat}
    (hk : k + n ≤ 10 + p.length) {u : Time} (ht : k = 0 → u = ts) :
    (d.taking m p ck ts k).feed (((frameBytes m p ck).drop k).take n) u = d.taking m p ck ts (k + n) := by
  rw [Demux.feed, Demux.taking_feedBytes hd hu hp hk ht]
  exact Demux.flushUnknown_of_nil (Demux.taking_unk hu _)

/-- R172: a sync trigger in `IDLE` flushes the pending run first. -/
theorem Demux.feedByte_sync1_flushed (hd : d.pstate = .idle) (u : Time) :
    d.flushUnknown.feedByte Config.sync1 u = d.feedByte Config.sync1 u := by
  have hf : d.flushUnknown.flushUnknown = d.flushUnknown :=
    Demux.flushUnknown_of_nil (by rw [Demux.flushUnknown_eq])
  have hp : d.flushUnknown.pstate = .idle := by rw [Demux.flushUnknown_eq]; exact hd
  simp [Demux.feedByte, hd, hp, Demux.idleByte, Demux.start, hf]

/-- R112, R176: a whole frame fed to an idle parser leaves its one event behind the pending run. -/
theorem Demux.feed_frame (hd : d.pstate = .idle) (hp : p.length ≤ 4096) (ts : Time) :
    d.feed (frameBytes m p ck) ts = d.flushUnknown.taking m p ck ts (10 + p.length) := by
  have hfd : d.flushUnknown.pstate = .idle := by rw [Demux.flushUnknown_eq]; exact hd
  have hfu : d.flushUnknown.unk = [] := by rw [Demux.flushUnknown_eq]
  have h := Demux.taking_feed hfd hfu hp (k := 0) (n := 10 + p.length) (m := m) (ck := ck) (ts := ts) (by omega)
    (fun _ => rfl)
  rw [List.drop_zero, List.take_of_length_le (by simp), Nat.zero_add] at h
  have hstart : d.feed (frameBytes m p ck) ts = d.flushUnknown.feed (frameBytes m p ck) ts := by
    rw [frameBytes_eq]
    show (Demux.feedBytes (d.feedByte Config.sync1 ts) _ ts).feedEnd
      = (Demux.feedBytes (d.flushUnknown.feedByte Config.sync1 ts) _ ts).feedEnd
    rw [Demux.feedByte_sync1_flushed hd]
  exact hstart.trans h

end

/-! ### A wait that reads a frame in pieces -/

/-- R46: the clock, as far as the environment shows it, is below a deadline. -/
def Env.Before (e : Env) (dl : Nat) : Prop := e.now.toNat < dl ∧ ∀ v ∈ e.clock, v.toNat < dl

theorem State.readNow_before {s : State} {dl : Nat} (h : s.env.Before dl) :
    s.readNow.1.toNat < dl ∧ s.readNow.2.env.Before dl := by
  obtain ⟨hn, hc⟩ := h
  have h1 : s.readNow.1.toNat < dl := by
    unfold State.readNow
    split
    · exact hn
    · rename_i v vs hv
      dsimp only
      split
      · exact hn
      · exact hc v (by rw [hv]; simp)
  exact ⟨h1, by rw [s.readNow_now]; exact h1, fun v hv => hc v (s.readNow_clock.subset hv)⟩

theorem State.readReturns_before {s : State} {dl : Nat} (h : s.env.Before dl) (ds : List ReadDraw) (n : Nat) :
    (s.readReturns ds n).env.Before dl :=
  (State.readNow_before (s := { s with env := { s.env with reads := ds, rx := _ }, arb := _ }) h).2

@[simp] theorem State.readReturns_params (s : State) (ds : List ReadDraw) (n : Nat) :
    (s.readReturns ds n).params = s.params := by simp [State.readReturns]

@[simp] theorem State.readReturns_rx (s : State) (ds : List ReadDraw) (n : Nat) :
    (s.readReturns ds n).env.rx = s.env.rx.drop (s.readCount n) := by
  simp [State.readReturns, State.readCount]

/-- W3 of R224: the parser is fed what the read returns, at one timestamp. -/
theorem State.readReturns_demux (s : State) (ds : List ReadDraw) (n : Nat) : ∃ u,
    (s.readReturns ds n).demux = s.demux.feed (s.env.rx.take (s.readCount n)) u := by
  refine ⟨(State.readNow { s with
    env := { s.env with reads := ds, rx := s.env.rx.drop (s.readCount n) }, arb := { s.arb with inRead := false } }).1, ?_⟩
  simp only [State.readReturns, State.readAndFeed, State.readNow_demux]
  rfl

/-- R224: a wait with nothing queued and its deadline ahead reads next, with the clock read but for an outstanding
read, and nothing else done. -/
theorem State.beforeRead_reads_next {s : State} {dl : Nat} (hq : s.demux.evq = []) (hb : s.env.Before dl)
    (hdl : s.arb.deadline = dl) : ∃ t, s.beforeRead = (false, t) ∧ t.params = s.params ∧ t.demux = s.demux ∧
      t.arb = s.arb ∧ t.out = s.out ∧ t.env.rx = s.env.rx ∧ t.env.Before dl := by
  cases hr : s.arb.inRead
  · have hq' : s.popAll s.demux.evq [] = s := by have := s.popAll_nil; rw [hq] at this ⊢; exact this
    have h := s.beforeRead_quiet hr (by simp [hq])
    rw [hq', if_neg (by rw [hdl]; exact Nat.not_le.2 (State.readNow_before hb).1)] at h
    exact ⟨_, h, by simp, by simp, by simp, by simp, by simp, (State.readNow_before hb).2⟩
  · exact ⟨s, by simp [State.beforeRead, hr], rfl, rfl, rfl, rfl, rfl, hb⟩

/-- R227: a `RECEIVE_PACKET` with one event queued returns it. -/
theorem State.waitLoop_receivePacket_one {s : State} {e : Event} (ds : List ReadDraw) (hr : s.arb.inRead = false)
    (ho : s.arb.op = 2) (hq : s.demux.evq = [e]) :
    State.waitLoop ds s = (s.popAll [e] []).finish (eventResult e) := by
  have hc : classify s.arb e = some (eventResult e) := by
    unfold classify; exact if_pos ho
  exact State.waitLoop_done ds s _ (s.beforeRead_answer [] [] e _ hr hq (by simp) hc)

/-- What a `RECEIVE_PACKET` that has read a whole frame leaves. -/
structure State.ReturnsEvent (s t : State) (e : Event) : Prop where
  astate : t.arb.astate = .idle
  evq : t.demux.evq = []
  pstate : t.demux.pstate = .idle
  rx : t.env.rx = []
  tx : t.out.tx = s.out.tx
  rsp : t.out.rsp = s.out.rsp ++ [eventResult e]

/-- A `RECEIVE_PACKET` whose parser has taken the first `k` bytes of a frame, the others being all the transport holds. -/
structure State.Taking (s : State) (d : Demux) (m : MsgId) (p : Bytes) (ck : Word32) (ts : Time) (k : Nat) : Prop where
  op : s.arb.op = 2
  demux : s.demux = d.taking m p ck ts k
  rx : s.env.rx = (frameBytes m p ck).drop k
  before : s.env.Before s.arb.deadline

section
variable {d : Demux} {m : MsgId} {p : Bytes} {ck : Word32}

/-- R66, R224: one read of a `RECEIVE_PACKET` within a frame takes the frame's next bytes. -/
theorem State.Taking.read {s : State} {ts : Time} {k n : Nat} (hd : d.pstate = .idle) (hu : d.unk = [])
    (hq : d.evq = []) (hp : p.length ≤ 4096) (h : s.Taking d m p ck ts k) (hk : k < 10 + p.length)
    (hn : n ≤ s.params.readMax) (hkn : k + n ≤ 10 + p.length) (ds : List ReadDraw) :
    ∃ t us, s.beforeRead = (false, t) ∧ (t.readReturns ds n).Taking d m p ck us (k + n) ∧
      (t.readReturns ds n).params = s.params ∧ (t.readReturns ds n).out = s.out ∧
      (t.readReturns ds n).arb.inRead = false := by
  have hsq : s.demux.evq = [] := by rw [h.demux, Demux.taking_evq hk, hq]
  obtain ⟨t, hbr, htp, htd, hta, hto, htr, htb⟩ := State.beforeRead_reads_next hsq h.before rfl
  have hcount : t.readCount n = n := by simp only [State.readCount, htp]; omega
  obtain ⟨u, hfeed⟩ := t.readReturns_demux ds n
  obtain ⟨us, hus, h0⟩ : ∃ us, d.taking m p ck ts k = d.taking m p ck us k ∧ (k = 0 → u = us) := by
    by_cases hk0 : k = 0
    · subst hk0; exact ⟨u, rfl, fun _ => rfl⟩
    · exact ⟨ts, rfl, fun h => absurd h hk0⟩
  refine ⟨t, us, hbr, ⟨?_, ?_, ?_, ?_⟩, by simp [htp], by rw [State.readReturns_out, hto], by rw [State.readReturns_arb]⟩
  · rw [State.readReturns_arb, hta]; exact h.op
  · rw [hfeed, hcount, htd, htr, h.rx, h.demux, hus]
    exact Demux.taking_feed hd hu hp hkn h0
  · rw [State.readReturns_rx, hcount, htr, h.rx, List.drop_drop]
  · rw [State.readReturns_arb, hta]
    exact State.readReturns_before htb ds n

/-- R227: a `RECEIVE_PACKET` reads a frame in any pieces and returns the frame's event. -/
theorem State.Taking.returns (hd : d.pstate = .idle) (hu : d.unk = []) (hq : d.evq = []) (hp : p.length ≤ 4096)
    (ds : List ReadDraw) (ns : List Nat) (s : State) (ts : Time) (k : Nat) (h : s.Taking d m p ck ts k)
    (hk : k < 10 + p.length) (hns : ∀ n ∈ ns, n ≤ s.params.readMax) (hsum : k + ns.sum = 10 + p.length) :
    ∃ us, s.ReturnsEvent (State.waitLoop (ns.map .got ++ ds) s) (frameEvent m p ck us) := by
  induction ns generalizing s ts k with
  | nil => simp at hsum; omega
  | cons n ns ih =>
    rw [List.sum_cons] at hsum
    obtain ⟨t, us, hbr, hread, hpar, hout, hir⟩ :=
      h.read hd hu hq hp hk (hns n (by simp)) (by omega) (ns.map .got ++ ds)
    have hstep : State.waitLoop ((n :: ns).map .got ++ ds) s
        = State.waitLoop (ns.map .got ++ ds) (t.readReturns (ns.map .got ++ ds) n) := by
      simp only [List.map_cons, List.cons_append, State.waitLoop, hbr]
    rw [hstep]
    generalize t.readReturns (ns.map .got ++ ds) n = u at hread hpar hout hir
    by_cases hlast : k + n < 10 + p.length
    · obtain ⟨vs, hv⟩ := ih u us (k + n) hread hlast (by rw [hpar]; exact fun x hx => hns x (by simp [hx])) (by omega)
      exact ⟨vs, hv.astate, hv.evq, hv.pstate, hv.rx, by rw [hv.tx, hout], by rw [hv.rsp, hout]⟩
    · have hall : k + n = 10 + p.length := by omega
      have hdem := hread.demux
      rw [hall, Demux.taking_whole, hq] at hdem
      have hrx := hread.rx
      rw [hall, List.drop_of_length_le (by simp)] at hrx
      refine ⟨us, ?_⟩
      rw [State.waitLoop_receivePacket_one _ hir hread.op (by rw [hdem]; rfl)]
      exact ⟨rfl, rfl, by simp [State.popAll, hdem], by simp [State.popAll, hrx], by simp [State.popAll, hout],
        by simp [State.popAll, hout]⟩

end

/-- R112, R227: the result of a frame's event. -/
theorem eventResult_frameEvent (m : MsgId) (p : Bytes) (ck : Word32) (ts : Time) :
    eventResult (frameEvent m p ck ts)
      = if ck = checksum m.cls m.id p then ⟨.ok, false, true, some .packet, some m, p, frameBytes m p ck, some ts⟩
        else ⟨.ok, false, true, some .unknown, none, frameBytes m p ck, [], some ts⟩ := by
  unfold frameEvent
  split <;> rfl

/-- Settles O23: the arrival by `deliver`, the event by the parser's progress through a frame, the wait by induction on
the pieces its reads return. -/
theorem frameRowsBecomeEvents : Obligations.FrameRowsBecomeEvents := by
  unfold Obligations.FrameRowsBecomeEvents
  intro i m p ck s hi
  have hexec : p.length ≤ 65535 → exec i s = .next (s.arrive (frameBytes m p ck)).goOn := fun hp => by
    rw [exec_frame hi, State.deliver_eq s m p ck hp]
  refine ⟨fun hp => ⟨hexec hp, fun hs => ?_⟩, fun hp d ts hd => ?_, ?_⟩
  · rw [hexec hp, State.goOn_rest (s := s.arrive _) hs]; rfl
  · have hlen : byteOf p.length 0 = BitVec.ofNat 8 p.length := by simp [byteOf]
    rw [Demux.feed_frame hd hp, Demux.taking_whole, Demux.flushUnknown_eq, hlen]
    rfl
  · intro ns ds hp hs ho hq hd hu hrx hreads hns hsum hnow hclock
    have htake : (s.arrive (frameBytes m p ck)).Taking s.demux m p ck 0 0 :=
      ⟨ho, rfl, by simp [hrx], hnow, hclock⟩
    obtain ⟨ts, ht⟩ := htake.returns hd hu hq hp ds ns _ _ _ (by omega) hns (by omega)
    have hgo : (s.arrive (frameBytes m p ck)).goOn = State.waitLoop (ns.map .got ++ ds) (s.arrive (frameBytes m p ck)) := by
      rw [← hreads]; exact State.goOn_wait hs
    rw [← hgo] at ht
    refine ⟨_, ts, hexec (by omega), ht.astate, ht.evq, ht.pstate, ht.rx, ht.tx, ?_⟩
    rw [← eventResult_frameEvent]
    exact ht.rsp

/-! ### Elements of unspecified reset value -/

section
variable {d e : Demux}

theorem Demux.SameLive.pstate (h : d.SameLive e) : d.pstate = e.pstate := h.1
theorem Demux.SameLive.acc (h : d.SameLive e) : d.acc = e.acc := h.2.1
theorem Demux.SameLive.evq (h : d.SameLive e) : d.evq = e.evq := h.2.2.2.1
theorem Demux.SameLive.accTs (h : d.SameLive e) (hp : d.pstate ≠ .idle) : d.accTs = e.accTs := h.2.2.2.2.2.2.1 hp

theorem Demux.SameLive.pendingRun (h : d.SameLive e) : d.pendingRun = e.pendingRun := by
  obtain ⟨-, -, hu, -, -, -, -, hut⟩ := h
  unfold Demux.pendingRun
  rw [← hu]
  split
  · rfl
  · rename_i hn; rw [hut hn]

/-- R27, R53: the flush reads `UNK_TS` only where a run is pending. -/
theorem Demux.SameLive.flushUnknown (h : d.SameLive e) : d.flushUnknown.SameLive e.flushUnknown := by
  have hr := h.pendingRun
  obtain ⟨hp, ha, -, hq, hl, hrem, hat, -⟩ := h
  rw [Demux.flushUnknown_eq, Demux.flushUnknown_eq]
  exact ⟨hp, ha, rfl, by rw [hq, hr], hl, hrem, hat, fun hn => absurd rfl hn⟩

theorem Demux.SameLive.idleByte (h : d.SameLive e) (b : Byte) (ts : Time) :
    (d.idleByte b ts).SameLive (e.idleByte b ts) := by
  obtain ⟨-, -, hfu, hfq, -, -, -, hfut⟩ := h.flushUnknown
  obtain ⟨hp, ha, hu, hq, hl, hr, hat, hut⟩ := h
  unfold Demux.idleByte
  split
  · exact ⟨rfl, rfl, hfu, hfq, nofun, nofun, fun _ => rfl, hfut⟩
  split
  · exact ⟨rfl, rfl, hfu, hfq, nofun, nofun, fun _ => rfl, hfut⟩
  · refine ⟨hp, ha, by simp [hu], hq, hl, hr, hat, fun _ => ?_⟩
    simp only [Demux.addUnknown_unkTs, ← hu]
    split
    · rfl
    · rename_i hn; exact hut hn

theorem Demux.SameLive.append (h : d.SameLive e) (b : Byte) : (d.append b).SameLive (e.append b) := by
  obtain ⟨hp, ha, hu, hq, hl, hr, hat, hut⟩ := h
  exact ⟨hp, by simp [ha], hu, hq, hl, hr, hat, hut⟩

/-- R173: a lone sync byte takes its timestamp to the run. -/
theorem Demux.SameLive.demote (h : d.SameLive e) (hp : d.pstate ≠ .idle) : d.demote.SameLive e.demote := by
  obtain ⟨-, ha, hu, hq, -, -, hat, hut⟩ := h
  refine ⟨rfl, rfl, by simp [ha, hu], hq, nofun, nofun, fun hn => absurd rfl hn, fun _ => ?_⟩
  simp only [Demux.demote_unkTs, ← hu]
  split
  · exact hat hp
  · rename_i hn; exact hut hn

/-- R13, R175 to R177: an event is emitted and the parser is idle again. -/
theorem Demux.SameLive.emit_close (h : d.SameLive e) (ev : Event) : (d.emit ev).close.SameLive (e.emit ev).close := by
  obtain ⟨-, -, hu, hq, -, -, -, hut⟩ := h
  exact ⟨rfl, rfl, hu, by simp [hq], nofun, nofun, fun hn => absurd rfl hn, hut⟩

theorem Demux.SameLive.abandon (h : d.SameLive e) (hp : d.pstate ≠ .idle) : d.abandon.SameLive e.abandon := by
  unfold Demux.abandon
  rw [← h.accTs hp, ← h.acc]
  exact h.emit_close _

theorem Demux.SameLive.complete (h : d.SameLive e) (hp : d.pstate ≠ .idle) : d.complete.SameLive e.complete := by
  unfold Demux.complete
  rw [← h.accTs hp, ← h.acc]
  split
  · exact h.emit_close _
  · exact h.abandon hp

theorem Demux.SameLive.sync2Byte (h : d.SameLive e) (b : Byte) (hp : d.pstate = .sync2) :
    (d.sync2Byte b).SameLive (e.sync2Byte b) := by
  obtain ⟨-, ha, hu, hq, -, -, hat, hut⟩ := h.append b
  exact ⟨rfl, ha, hu, hq, fun _ => rfl, nofun, fun _ => hat (by simp [hp]), hut⟩

theorem Demux.SameLive.lenLoByte (h : d.SameLive e) (b : Byte) (hp : d.pstate = .lenLo) :
    (d.lenLoByte b).SameLive (e.lenLoByte b) := by
  have happ := h.append b
  obtain ⟨-, ha, hu, hq, hl, -, hat, hut⟩ := happ
  have hlen : d.lenLo = e.lenLo := hl hp
  unfold Demux.lenLoByte
  rw [← hlen]
  split
  · exact (h.append b).abandon (by simp [hp])
  · exact ⟨rfl, ha, hu, hq, nofun, fun _ => rfl, fun _ => hat (by simp [hp]), hut⟩

theorem Demux.SameLive.bodyByte (h : d.SameLive e) (b : Byte) (hp : d.pstate = .body) :
    (d.bodyByte b).SameLive (e.bodyByte b) := by
  obtain ⟨hps, ha, hu, hq, hl, hr, hat, hut⟩ := h.append b
  have hrem : d.remaining = e.remaining := hr hp
  have hnext : Demux.SameLive { d.append b with remaining := d.remaining - 1 }
      { e.append b with remaining := d.remaining - 1 } := ⟨hps, ha, hu, hq, hl, fun _ => rfl, hat, hut⟩
  unfold Demux.bodyByte
  rw [← hrem]
  split
  · exact hnext.complete (by simp [hp])
  · exact hnext

theorem Demux.SameLive.nmeaByte (h : d.SameLive e) (b : Byte) (hp : d.pstate = .nmea) :
    (d.nmeaByte b).SameLive (e.nmeaByte b) := by
  unfold Demux.nmeaByte
  rw [← h.accTs (by simp [hp]), ← h.acc]
  split
  · exact (h.append b).emit_close _
  split
  · exact (h.append b).abandon (by simp [hp])
  · exact h.append b

/-- R23, R24, R53: a byte does the same whatever the parser's dead elements hold. -/
theorem Demux.SameLive.feedByte (h : d.SameLive e) (b : Byte) (ts : Time) :
    (d.feedByte b ts).SameLive (e.feedByte b ts) := by
  unfold Demux.feedByte
  rw [← h.pstate]
  split <;> rename_i hp
  · exact h.idleByte b ts
  · unfold Demux.sync1Byte
    split
    · obtain ⟨-, ha, hu, hq, -, -, hat, hut⟩ := h.append b
      exact ⟨rfl, ha, hu, hq, nofun, nofun, fun _ => hat (by simp [hp]), hut⟩
    · exact (h.demote (by simp [hp])).idleByte b ts
  · exact h.sync2Byte b hp
  · exact h.lenLoByte b hp
  · exact h.bodyByte b hp
  · exact h.nmeaByte b hp

theorem Demux.SameLive.feedBytes (h : d.SameLive e) (c : Bytes) (ts : Time) :
    (d.feedBytes c ts).SameLive (e.feedBytes c ts) := by
  induction c generalizing d e with
  | nil => exact h
  | cons b c ih => exact ih (h.feedByte b ts)

theorem Demux.SameLive.feed (h : d.SameLive e) (c : Bytes) (ts : Time) : (d.feed c ts).SameLive (e.feed c ts) :=
  (h.feedBytes c ts).flushUnknown

theorem Demux.SameLive.with_evq (h : d.SameLive e) (q : List Event) :
    Demux.SameLive { d with evq := q } { e with evq := q } := by
  obtain ⟨hp, ha, hu, -, hl, hr, hat, hut⟩ := h
  exact ⟨hp, ha, hu, rfl, hl, hr, hat, hut⟩

theorem Demux.SameLive.pop (h : d.SameLive e) : d.pop.1 = e.pop.1 ∧ d.pop.2.SameLive e.pop.2 := by
  unfold Demux.pop
  rw [← h.evq]
  split
  · exact ⟨rfl, h⟩
  · exact ⟨rfl, h.with_evq _⟩

end

section
variable {a b : Arbiter}

theorem Arbiter.SameLive.txbuf (h : a.SameLive b) : a.txbuf = b.txbuf := h.2.1
theorem Arbiter.SameLive.seenValid (h : a.SameLive b) : a.seenValid = b.seenValid := h.2.2.1
theorem Arbiter.SameLive.txSent (h : a.SameLive b) : a.txSent = b.txSent := h.2.2.2.1
theorem Arbiter.SameLive.inRead (h : a.SameLive b) : a.inRead = b.inRead := h.2.2.2.2.1

/-- R40, R53: with no command in progress the flag, `TXBUF` and the latches of a port action are all that is read. -/
theorem Arbiter.SameLive.of_rest (hs : a.astate = .idle ∨ a.astate = .fault) (h1 : a.astate = b.astate)
    (h2 : a.txbuf = b.txbuf) (h3 : a.seenValid = b.seenValid) (h4 : a.txSent = b.txSent) (h5 : a.inRead = b.inRead) :
    a.SameLive b := by
  rcases hs with hs | hs <;> exact ⟨h1, h2, h3, h4, h5, by simp [hs], by simp [hs], by simp [hs], by simp [hs]⟩

/-- R222, R224: the end of a command. -/
theorem Arbiter.SameLive.idled (h : a.SameLive b) :
    Arbiter.SameLive { a with astate := .idle } { b with astate := .idle } :=
  .of_rest (.inl rfl) rfl h.txbuf h.seenValid h.txSent h.inRead

/-- R237: the entry of the sticky fault. -/
theorem Arbiter.SameLive.faulted (h : a.SameLive b) :
    Arbiter.SameLive { a with astate := .fault, txbuf := [], txSent := 0, inRead := false }
      { b with astate := .fault, txbuf := [], txSent := 0, inRead := false } :=
  .of_rest (.inr rfl) rfl rfl h.seenValid rfl rfl

/-- R41, R42, R231: what a sending or waiting command reads of the arbiter until its wait is armed. -/
structure Arbiter.SameCommand (a b : Arbiter) : Prop where
  txbuf : a.txbuf = b.txbuf
  seenValid : a.seenValid = b.seenValid
  txSent : a.txSent = b.txSent
  op : a.op = b.op
  pending : a.op = opSendAndWaitAck ∨ a.op = opPoll → a.pendClass = b.pendClass ∧ a.pendId = b.pendId
  tmo : a.tmo = b.tmo

theorem Arbiter.SameLive.command (h : a.SameLive b) (hs : a.astate = .tx) : a.SameCommand b := by
  obtain ⟨-, h2, h3, h4, -, h6, h7, h8, -⟩ := h
  exact ⟨h2, h3, h4, h6 (.inl hs), fun ho => h7 ⟨.inl hs, ho⟩, h8 hs⟩

/-- R223: a frame begins to be sent. -/
theorem Arbiter.SameCommand.sending (h : a.SameCommand b) (hr : a.inRead = b.inRead) (bs : Bytes) :
    Arbiter.SameLive { a with astate := .tx, txbuf := bs, txSent := 0 } { b with astate := .tx, txbuf := bs, txSent := 0 } :=
  ⟨rfl, rfl, h.seenValid, rfl, hr, fun _ => h.op, fun ho => h.pending ho.2, fun _ => h.tmo, nofun⟩

/-- R231: a wait begins, its deadline armed. -/
theorem Arbiter.SameCommand.waiting (h : a.SameCommand b) (dl : Nat) :
    Arbiter.SameLive { a with astate := .wait, inRead := false, deadline := dl }
      { b with astate := .wait, inRead := false, deadline := dl } :=
  ⟨rfl, h.txbuf, h.seenValid, h.txSent, rfl, fun _ => h.op, fun ho => h.pending ho.2, nofun, fun _ => rfl⟩

theorem Arbiter.SameLive.with_seenValid (h : a.SameLive b) (sv : Bool) :
    Arbiter.SameLive { a with seenValid := sv } { b with seenValid := sv } := by
  obtain ⟨h1, h2, -, h4, h5, h6, h7, h8, h9⟩ := h
  exact ⟨h1, h2, rfl, h4, h5, h6, h7, h8, h9⟩

theorem Arbiter.SameLive.with_inRead (h : a.SameLive b) (ir : Bool) :
    Arbiter.SameLive { a with inRead := ir } { b with inRead := ir } := by
  obtain ⟨h1, h2, h3, h4, -, h6, h7, h8, h9⟩ := h
  exact ⟨h1, h2, h3, h4, rfl, h6, h7, h8, h9⟩

theorem Arbiter.SameLive.with_txSent (h : a.SameLive b) (n : Nat) :
    Arbiter.SameLive { a with txSent := n } { b with txSent := n } := by
  obtain ⟨h1, h2, h3, -, h5, h6, h7, h8, h9⟩ := h
  exact ⟨h1, h2, h3, rfl, h5, h6, h7, h8, h9⟩

/-- R41, R42, R224: `Classify` reads the pending identifier only for a command that has one. -/
theorem Arbiter.SameLive.classify (h : a.SameLive b) (hs : a.astate = .wait) : classify a = classify b := by
  obtain ⟨-, -, -, -, -, hop, hpend, -, -⟩ := h
  have ho := hop (.inr hs)
  funext e
  unfold Machine.classify
  rw [← ho]
  split; · rfl
  split; · rfl
  split
  · rename_i h4
    obtain ⟨hc, hi⟩ := hpend ⟨.inr hs, .inl h4⟩
    cases e <;> simp [classifyAck, echoMatch, hc, hi]
  split
  · rename_i h5
    obtain ⟨hc, hi⟩ := hpend ⟨.inr hs, .inr h5⟩
    cases e <;> simp [classifyPoll, echoMatch, hc, hi]
  · rfl

end

section
variable {s s' : State}

theorem State.SameLive.demux (h : s.SameLive s') : s.demux.SameLive s'.demux := h.2.2.2.2.1
theorem State.SameLive.arb (h : s.SameLive s') : s.arb.SameLive s'.arb := h.2.2.2.2.2
theorem State.SameLive.env (h : s.SameLive s') : s.env = s'.env := h.2.1
theorem State.SameLive.params (h : s.SameLive s') : s.params = s'.params := h.1
theorem State.SameLive.out (h : s.SameLive s') : s.out = s'.out := h.2.2.1
theorem State.SameLive.ports (h : s.SameLive s') : s.ports = s'.ports := h.2.2.2.1
theorem State.SameLive.astate (h : s.SameLive s') : s.arb.astate = s'.arb.astate := h.arb.1

/-- The parser and the arbiter are changed, and nothing else. -/
theorem State.SameLive.with_inner (h : s.SameLive s') {d d' : Demux} {a a' : Arbiter} (hd : d.SameLive d')
    (ha : a.SameLive a') : State.SameLive { s with demux := d, arb := a } { s' with demux := d', arb := a' } := by
  obtain ⟨hp, he, ho, hq, -, -⟩ := h
  exact ⟨hp, he, ho, hq, hd, ha⟩

theorem State.SameLive.with_env (h : s.SameLive s') (en : Env) :
    State.SameLive { s with env := en } { s' with env := en } := by
  obtain ⟨hp, -, ho, hq, hd, ha⟩ := h
  exact ⟨hp, rfl, ho, hq, hd, ha⟩

theorem State.SameLive.with_ports (h : s.SameLive s') (ps : List PortInput) :
    State.SameLive { s with ports := ps } { s' with ports := ps } := by
  obtain ⟨hp, he, ho, -, hd, ha⟩ := h
  exact ⟨hp, he, ho, rfl, hd, ha⟩

theorem State.SameLive.with_out (h : s.SameLive s') (o : Out) :
    State.SameLive { s with out := o } { s' with out := o } := by
  obtain ⟨hp, he, -, hq, hd, ha⟩ := h
  exact ⟨hp, he, rfl, hq, hd, ha⟩

theorem State.SameLive.with_arb (h : s.SameLive s') {a a' : Arbiter} (ha : a.SameLive a') :
    State.SameLive { s with arb := a } { s' with arb := a' } := h.with_inner h.demux ha

theorem State.SameLive.respond (h : s.SameLive s') (r : Result) : (s.respond r).SameLive (s'.respond r) := by
  unfold State.respond
  rw [← h.out]
  exact h.with_out _

theorem State.SameLive.answerTest (h : s.SameLive s') (x : TestAnswer) : (s.answerTest x).SameLive (s'.answerTest x) := by
  unfold State.answerTest
  rw [← h.out]
  exact h.with_out _

theorem State.SameLive.withRecords (h : s.SameLive s') (rs : List LogRecord) :
    (s.withRecords rs).SameLive (s'.withRecords rs) := by
  obtain ⟨hp, he, ho, hq, hd, ha⟩ := h
  exact ⟨hp, he, by simp [ho, hp], hq, hd, ha⟩

theorem State.SameLive.finish (h : s.SameLive s') (r : Result) : (s.finish r).SameLive (s'.finish r) :=
  (h.with_arb h.arb.idled).respond r

theorem State.SameLive.transportError (h : s.SameLive s') : s.transportError.SameLive s'.transportError :=
  (h.with_arb h.arb.faulted).respond transportResult

/-- R46: the clock is the environment's. -/
theorem State.SameLive.readNow (h : s.SameLive s') : s.readNow.1 = s'.readNow.1 ∧ s.readNow.2.SameLive s'.readNow.2 := by
  unfold State.readNow
  rw [← h.env]
  split
  · exact ⟨rfl, h⟩
  · exact ⟨rfl, h.with_env _⟩

theorem State.SameLive.takeStamp (h : s.SameLive s') :
    s.takeStamp.1 = s'.takeStamp.1 ∧ s.takeStamp.2.SameLive s'.takeStamp.2 := by
  unfold State.takeStamp
  rw [← h.env]
  split
  · exact ⟨rfl, h⟩
  · exact ⟨rfl, h.with_env _⟩

theorem State.SameLive.popAll (h : s.SameLive s') (popped rest : List Event) :
    (s.popAll popped rest).SameLive (s'.popAll popped rest) := by
  unfold State.popAll
  rw [← h.arb.seenValid]
  exact (h.with_inner (h.demux.with_evq rest) (h.arb.with_seenValid _)).withRecords _

/-- R43, R224: W1 and W2 do the same. -/
theorem State.SameLive.beforeRead (h : s.SameLive s') (hs : s.arb.astate = .wait) {g : Bool} {t : State}
    (hb : s.beforeRead = (g, t)) : ∃ t', s'.beforeRead = (g, t') ∧ t.SameLive t' := by
  have hq := h.demux.evq
  have hc := h.arb.classify hs
  obtain ⟨-, -, -, -, hir, -, -, -, hdl⟩ := h.arb
  obtain ⟨hts, hnow⟩ := (h.popAll s.demux.evq []).readNow
  have quiet := fun hr hnone => s'.beforeRead_quiet (hir ▸ hr) (hc ▸ hq ▸ hnone)
  rw [← hq, ← hdl hs, ← hts] at quiet
  rcases s.beforeRead_cases with ⟨hr, hb'⟩ | ⟨hr, pre, e, es, r, hqe, hpre, he, hb'⟩ | ⟨hr, hnone, ht, hb'⟩ |
    ⟨hr, hnone, ht, hb'⟩ <;> rw [hb'] at hb <;> cases hb
  · exact ⟨s', by simp [State.beforeRead, ← hir, hr], h⟩
  · exact ⟨_, s'.beforeRead_answer pre es e r (hir ▸ hr) (hq ▸ hqe) (hc ▸ hpre) (hc ▸ he), (h.popAll _ _).finish r⟩
  · exact ⟨_, (quiet hr hnone).trans (if_pos ht), hnow.finish _⟩
  · exact ⟨_, (quiet hr hnone).trans (if_neg (Nat.not_le.2 ht)), hnow⟩

theorem State.SameLive.readAndFeed (h : s.SameLive s') (n : Nat) : (s.readAndFeed n).SameLive (s'.readAndFeed n) := by
  have hcount : s.readCount n = s'.readCount n := by unfold State.readCount; rw [h.params]
  obtain ⟨hts, hnow⟩ := (h.with_env { s.env with rx := s.env.rx.drop (s.readCount n) }).readNow
  unfold State.readAndFeed
  simp only [← hcount, ← h.env, ← hts]
  exact hnow.with_inner (hnow.demux.feed _ _) hnow.arb

theorem State.SameLive.readReturns (h : s.SameLive s') (ds : List ReadDraw) (n : Nat) :
    (s.readReturns ds n).SameLive (s'.readReturns ds n) := by
  unfold State.readReturns
  rw [← h.env]
  exact ((h.with_env _).with_arb (h.arb.with_inRead false)).readAndFeed n

end

/-- R224: a wait does the same, for any reads. -/
theorem State.SameLive.waitLoop {s s' : State} (ds : List ReadDraw) (h : s.SameLive s') (hs : s.arb.astate = .wait) :
    (State.waitLoop ds s).SameLive (State.waitLoop ds s') := by
  have hw := State.waitLoop_run ds s
  generalize State.waitLoop ds s = u at hw
  induction hw generalizing s' with
  | ended hb =>
    obtain ⟨t', hb', ht⟩ := h.beforeRead hs hb
    rw [State.waitLoop_done _ s' t' hb']; exact ht
  | lastRead hb =>
    obtain ⟨t', hb', ht⟩ := h.beforeRead hs hb
    simp only [State.waitLoop, hb', ht.params]; exact ht.readReturns _ _
  | @failed ds s t hb =>
    obtain ⟨t', hb', ht⟩ := h.beforeRead hs hb
    simp only [State.waitLoop, hb', ← ht.env]
    exact (ht.with_env { t.env with reads := ds }).transportError
  | @paused ds s t hb =>
    obtain ⟨t', hb', ht⟩ := h.beforeRead hs hb
    simp only [State.waitLoop, hb', ← ht.env]
    exact (ht.with_env { t.env with reads := ds }).with_arb (ht.arb.with_inRead true)
  | again hb _ ih =>
    obtain ⟨t', hb', ht⟩ := h.beforeRead hs hb
    obtain ⟨sv, ha, -⟩ := State.beforeRead_goes hb
    simp only [State.waitLoop, hb']
    exact ih (ht.readReturns _ _) (by rw [State.readReturns_arb, ha]; exact hs)

/-- R53: two states that share all a command's start reads: everything but dead elements and what the start writes. -/
structure State.SameStart (s s' : State) : Prop where
  params : s.params = s'.params
  env : s.env = s'.env
  out : s.out = s'.out
  ports : s.ports = s'.ports
  demux : s.demux.SameLive s'.demux
  command : s.arb.SameCommand s'.arb

section
variable {s s' : State}

theorem State.SameLive.sameStart (h : s.SameLive s') (hc : s.arb.SameCommand s'.arb) : s.SameStart s' :=
  ⟨h.params, h.env, h.out, h.ports, h.demux, hc⟩

/-- R46: a read of the clock depends on the environment alone. -/
theorem State.readNow_congr (h : s.env = s'.env) :
    s.readNow.1 = s'.readNow.1 ∧ s.readNow.2.env = s'.readNow.2.env := by
  unfold State.readNow
  rw [← h]
  split
  · exact ⟨rfl, h⟩
  · exact ⟨rfl, rfl⟩

/-- R43, R231: a wait starts the same from states that share the command. -/
theorem State.SameStart.startWait (h : s.SameStart s') : s.startWait.SameLive s'.startWait := by
  obtain ⟨hts, henv⟩ := State.readNow_congr h.env
  have hreads : s.armDeadline.env.reads = s'.armDeadline.env.reads := by
    simp [State.armDeadline, h.env]
  unfold State.startWait
  rw [← hreads]
  refine State.SameLive.waitLoop _ ⟨?_, ?_, ?_, ?_, ?_, ?_⟩ rfl
  · simpa [State.armDeadline] using h.params
  · exact henv
  · simpa [State.armDeadline] using h.out
  · simpa [State.armDeadline] using h.ports
  · simpa only [State.armDeadline, State.readNow_demux] using h.demux
  · have hdl : s.readNow.1.toNat + s.arb.tmo.toNat = s'.readNow.1.toNat + s'.arb.tmo.toNat := by
      rw [hts, h.command.tmo]
    simp only [State.armDeadline, State.readNow_arb, ← hdl]
    exact h.command.waiting _

/-- R223: the record of the sent frame is the same, and the command still under way. -/
theorem State.SameLive.logSent (h : s.SameLive s') : s.logSent.SameLive s'.logSent := by
  obtain ⟨hts, hnow⟩ := h.readNow
  obtain ⟨h1, htx, h3, -, h5, h6, h7, h8, h9⟩ := hnow.arb
  have hbuf : s.arb.txbuf = s'.arb.txbuf := h.arb.txbuf
  simp only [State.logSent, State.logRec_eq, ← hts, ← hbuf]
  exact (hnow.withRecords _).with_arb ⟨h1, rfl, h3, rfl, h5, h6, h7, h8, h9⟩

theorem State.SameLive.afterSend (h : s.SameLive s') (hs : s.arb.astate = .tx) : s.afterSend.SameLive s'.afterSend := by
  have hc := h.arb.command hs
  unfold State.afterSend
  rw [← hc.op]
  split
  · exact (h.sameStart hc).startWait
  · exact h.finish _

theorem State.SameLive.handOver (h : s.SameLive s') (bs : Bytes) : (s.handOver bs).SameLive (s'.handOver bs) := by
  obtain ⟨hp, he, ho, hq, hd, ha⟩ := h
  refine ⟨hp, he, by simp [ho], hq, hd, ?_⟩
  simp only [State.handOver_arb, ← ha.txSent]
  exact ha.with_txSent _

end

/-- Two outcomes of a transmit action of one kind, whose states differ in dead elements alone. -/
inductive TxOutcome.SameLive : TxOutcome → TxOutcome → Prop where
  | done {u u' : State} : u.SameLive u' → SameLive (.done u) (.done u')
  | blocked {u u' : State} : u.SameLive u' → SameLive (.blocked u) (.blocked u')
  | failed {u u' : State} : u.SameLive u' → SameLive (.failed u) (.failed u')

section
variable {s s' : State}

theorem State.SameLive.portWrite (h : s.SameLive s') : s.portWrite.SameLive s'.portWrite := by
  have hu : s.unsent = s'.unsent := by unfold State.unsent; rw [h.arb.txbuf, h.arb.txSent]
  unfold State.portWrite
  rw [← hu, ← h.env]
  split
  · exact .done h
  split
  · exact .done (h.handOver _)
  · exact .done ((h.with_env _).handOver _)
  · exact .failed ((h.with_env _).handOver _)
  · exact .blocked ((h.with_env _).handOver _)

theorem State.SameLive.portFlush (h : s.SameLive s') : s.portFlush.SameLive s'.portFlush := by
  obtain ⟨hp, he, ho, hq, hd, ha⟩ := h
  unfold State.portFlush
  rw [← he, ← ho]
  split
  · exact .done ⟨hp, rfl, rfl, hq, hd, ha⟩
  · exact .done ⟨hp, rfl, rfl, hq, hd, ha⟩
  · exact .failed ⟨hp, rfl, rfl, hq, hd, ha⟩
  · exact .blocked ⟨hp, rfl, rfl, hq, hd, ha⟩

/-- R223: a transmission does the same. -/
theorem State.SameLive.transmit (h : s.SameLive s') (hs : s.arb.astate = .tx) : s.transmit.SameLive s'.transmit := by
  obtain ⟨n, ha, -⟩ := s.portWrite_keeps
  have hw := h.portWrite
  unfold State.transmit
  generalize s.portWrite = x at hw ha
  generalize s'.portWrite = x' at hw
  cases hw with
  | failed hu => exact hu.transportError
  | blocked hu => exact hu
  | @done u u' hu =>
    obtain ⟨ha2, -⟩ := u.portFlush_keeps
    have hf := hu.portFlush
    dsimp only
    generalize u.portFlush = y at hf ha2
    generalize u'.portFlush = y' at hf
    cases hf with
    | failed hv => exact hv.transportError
    | blocked hv => exact hv
    | @done v v' hv =>
      simp only [TxOutcome.state] at ha ha2
      exact hv.logSent.afterSend (by simp [State.logSent, ha2, ha, hs])

theorem State.SameLive.goOn (h : s.SameLive s') : s.goOn.SameLive s'.goOn := by
  unfold State.goOn
  rw [← h.astate, ← h.env]
  split <;> rename_i hs
  · exact h
  · exact h
  · exact h.transmit hs
  · exact h.waitLoop _ hs

/-- R223: a frame is sent the same for commands that share what they read. -/
theorem State.SameStart.sendFrame (h : s.SameStart s') (hr : s.arb.inRead = s'.arb.inRead) (d : Descriptor) :
    (s.sendFrame d).SameLive (s'.sendFrame d) :=
  State.SameLive.transmit ⟨h.params, h.env, h.out, h.ports, h.demux, h.command.sending hr _⟩ rfl

/-- R82, R221: taking a command writes the operands it reads. -/
theorem State.SameLive.takeOp (h : s.SameLive s') (op : BitVec 3) (d : Descriptor)
    (ho : ¬ (op = opSendAndWaitAck ∨ op = opPoll)) : (s.takeOp op d).SameStart (s'.takeOp op d) :=
  ⟨h.params, h.env, h.out, h.ports, h.demux, ⟨h.arb.txbuf, h.arb.seenValid, h.arb.txSent, rfl, fun hp => absurd hp ho, rfl⟩⟩

/-- R229, R230: the commands with a pending identifier write it before they read it. -/
theorem State.SameLive.takeOp_setPending (h : s.SameLive s') (op : BitVec 3) (d : Descriptor) :
    ((s.takeOp op d).setPending d).SameStart ((s'.takeOp op d).setPending d) :=
  ⟨h.params, h.env, h.out, h.ports, h.demux, ⟨h.arb.txbuf, h.arb.seenValid, h.arb.txSent, rfl, fun _ => ⟨rfl, rfl⟩, rfl⟩⟩

end

/-- Two answers, the second a next state that differs in dead elements alone where the first is a next state. -/
def SameAnswer (x y : Answer) : Prop := ∀ t, x = .next t → ∃ t', y = .next t' ∧ t.SameLive t'

theorem SameAnswer.next {u u' : State} (h : u.SameLive u') : SameAnswer (.next u) (.next u') := by
  intro t ht; cases ht; exact ⟨u', rfl, h⟩

theorem SameAnswer.guarded {u u' : State} (p : Bytes) (r : Refusal) (h : u.SameLive u') :
    SameAnswer (if lengthFits p then .next u else .refused r) (if lengthFits p then .next u' else .refused r) := by
  intro t ht
  obtain ⟨hp, rfl⟩ := next_of_lengthFits ht
  exact ⟨u', if_pos ((lengthFits_iff p).2 hp), h⟩

section
variable {s s' : State}

theorem State.SameLive.hold (h : s.SameLive s') (i : Instr) : (s.hold i).SameLive (s'.hold i) := by
  unfold State.hold
  rw [← h.ports]
  exact (h.with_ports _).goOn

theorem State.SameLive.accept (h : s.SameLive s') (i : Instr) {run run' : Answer} (hrun : SameAnswer run run') :
    SameAnswer (s.accept i run) (s'.accept i run') := by
  unfold State.accept
  rw [← h.astate]
  split
  · exact hrun
  · exact .next (h.respond _)
  · exact .next (h.hold i)
  · exact .next (h.hold i)

theorem State.SameLive.refuseOp (h : s.SameLive s') (i : Instr) : SameAnswer (s.refuseOp i) (s'.refuseOp i) :=
  h.accept i (.next (h.respond _))

theorem State.SameLive.deliver (h : s.SameLive s') (m : MsgId) (p : Bytes) (ck : Word32) :
    SameAnswer (s.deliver m p ck) (s'.deliver m p ck) := by
  unfold State.deliver State.arrive
  rw [← h.env]
  exact .guarded _ _ (h.with_env _).goOn

theorem State.SameLive.with_demux (h : s.SameLive s') {d d' : Demux} (hd : d.SameLive d') :
    State.SameLive { s with demux := d } { s' with demux := d' } := h.with_inner hd h.arb

theorem State.SameLive.streamByte (h : s.SameLive s') (b : Byte) : (s.streamByte b).SameLive (s'.streamByte b) := by
  obtain ⟨hts, hst⟩ := h.takeStamp
  unfold State.streamByte
  rw [← hts]
  exact hst.with_demux (h.demux.feedByte b _)

/-- R53: every instruction does the same whatever the dead elements hold. -/
theorem State.SameLive.exec (h : s.SameLive s') (i : Instr) : SameAnswer (exec i s) (exec i s') := by
  cases hf : frameParts i with
  | some x => obtain ⟨m, p, ck⟩ := x; rw [exec_frame hf, exec_frame hf]; exact h.deliver m p ck
  | none =>
    cases i
    case send d => exact h.accept _ (.guarded _ _ ((h.takeOp opSend d (by decide)).sendFrame h.arb.inRead d))
    case sendAndWaitAck d =>
      exact h.accept _ (.guarded _ _ ((h.takeOp_setPending opSendAndWaitAck d).sendFrame h.arb.inRead d))
    case poll d => exact h.accept _ (.guarded _ _ ((h.takeOp_setPending opPoll d).sendFrame h.arb.inRead d))
    case receivePacket d => exact h.accept _ (.next (h.takeOp opReceivePacket d (by decide)).startWait)
    case receive d => exact h.accept _ (.next (h.takeOp opReceive d (by decide)).startWait)
    case reservedOp0 d => exact h.refuseOp _
    case reservedOp6 d => exact h.refuseOp _
    case reservedOp7 d => exact h.refuseOp _
    case checksum c i p => exact .guarded _ _ (h.answerTest _)
    case pack c i p => exact .guarded _ _ (h.answerTest _)
    case unpack buf => exact .next (h.answerTest _)
    case feedByte b ts => exact .next (h.with_demux (h.demux.feedByte b ts))
    case feedEnd => exact .next (h.with_demux h.demux.flushUnknown)
    case feed c ts => exact .next (h.with_demux (h.demux.feed c ts))
    case popEvent =>
      obtain ⟨he, hd⟩ := h.demux.pop
      simp only [Machine.exec, execPopEvent, ← he]
      exact .next ((h.with_demux hd).answerTest _)
    case idleSync1 => exact .next (h.streamByte _)
    case idleNmeaStart => exact .next (h.streamByte _)
    case idleUnknown b => exact .next (h.streamByte b)
    all_goals cases hf

/-- R53: every step does the same whatever the dead elements hold. -/
theorem State.SameLive.step (h : s.SameLive s') : SameAnswer (step s) (step s') := by
  unfold Machine.step
  rw [← h.ports]
  split
  · exact .next h.goOn
  · have hfresh : Demux.fresh.SameLive .fresh ∧ Arbiter.fresh.SameLive .fresh := by
      simp [Demux.SameLive, Arbiter.SameLive]
    exact .next ((h.with_ports _).with_inner hfresh.1 hfresh.2)
  · split
    · exact (h.with_ports _).exec _
    · exact nofun

end

/-- Settles O60: every step keeps the relation and answers in both states. -/
theorem unspecifiedElementsAreWrittenBeforeRead : Obligations.UnspecifiedElementsAreWrittenBeforeRead := by
  unfold Obligations.UnspecifiedElementsAreWrittenBeforeRead
  intro s s' t h hst
  exact h.step t hst

end Sys2Proof.Machine
end

section
/-! PROOFS. The records of a sent frame (R223): what a wait logs, what a transmission logs and when, and what of a step
bears on the transmission under way. -/

namespace Sys2Proof.Machine

/-! ### What a wait logs -/

/-- R225: the records logged from one state to another are about popped events alone. -/
def State.LogsPopped (s t : State) : Prop :=
  ∃ recs : List LogRecord, t.out.log = s.out.log ++ recs.map LogRecord.entry ∧ ∀ r ∈ recs, r.isSent = false

theorem State.LogsPopped.of_eq {s t : State} (h : t.out.log = s.out.log) : s.LogsPopped t :=
  ⟨[], by simpa using h, nofun⟩

theorem State.LogsPopped.trans {s t u : State} (h : s.LogsPopped t) (k : t.LogsPopped u) : s.LogsPopped u := by
  obtain ⟨rs, hl, hr⟩ := h
  obtain ⟨qs, kl, kr⟩ := k
  exact ⟨rs ++ qs, by rw [kl, hl, List.map_append, List.append_assoc],
    fun r hm => (List.mem_append.1 hm).elim (hr r) (kr r)⟩

/-- R225: no record of a popped event is a sent frame's. -/
theorem isSent_popRecords (seen : Bool) (es : List Event) : ∀ r ∈ popRecords seen es, r.isSent = false := by
  induction es generalizing seen with
  | nil => nofun
  | cons e es ih => cases e <;> cases seen <;> simp [popRecords, LogRecord.isSent] <;> exact ih _

theorem State.popAll_logsPopped (s : State) (popped rest : List Event) : s.LogsPopped (s.popAll popped rest) := by
  cases hl : s.params.logSink
  · exact .of_eq (by simp [State.popAll, hl])
  · exact ⟨popRecords s.arb.seenValid popped, by simp [State.popAll, hl], isSent_popRecords _ _⟩

theorem State.beforeRead_logsPopped (s : State) : s.LogsPopped s.beforeRead.2 := by
  rcases s.beforeRead_cases with ⟨_, h⟩ | ⟨_, pre, e, es, r, _, _, _, h⟩ | ⟨_, _, _, h⟩ | ⟨_, _, _, h⟩ <;> rw [h]
  · exact .of_eq rfl
  · exact (s.popAll_logsPopped _ _).trans (.of_eq rfl)
  · exact (s.popAll_logsPopped s.demux.evq []).trans (.of_eq (by simp))
  · exact (s.popAll_logsPopped s.demux.evq []).trans (.of_eq (by simp))

/-- R224, R225: a wait logs popped events alone, for any reads. -/
theorem State.waitLoop_logsPopped (ds : List ReadDraw) (s : State) : s.LogsPopped (State.waitLoop ds s) :=
  State.waitLoop_rel (R := State.LogsPopped) State.LogsPopped.trans State.beforeRead_logsPopped
    (fun _ _ _ => .of_eq (by rw [State.readReturns_out])) (fun _ _ => .of_eq rfl) (fun _ _ => .of_eq rfl) ds s

/-- R222, R229, R230: what follows a sent frame logs popped events alone. -/
theorem State.afterSend_logsPopped (s : State) : s.LogsPopped s.afterSend := by
  unfold State.afterSend
  split
  · obtain ⟨u, _, he, _, ho, _⟩ := s.startWait_eq
    rw [he]
    exact (State.LogsPopped.of_eq (by rw [ho])).trans (State.waitLoop_logsPopped _ u)
  · exact .of_eq rfl

/-- R222, R229, R230: the command whose frame is out has left `A_TX`. -/
theorem State.afterSend_not_tx (s : State) : s.afterSend.arb.astate ≠ .tx := by
  unfold State.afterSend
  split
  · obtain ⟨u, _, he, ha, _, _⟩ := s.startWait_eq
    rw [he]
    cases State.waitLoop_outcome u.env.reads u with
    | waiting sv ir h _ => simp [h, ha]
    | ended sv r _ h _ => simp [h]
    | failed sv h _ => simp [h]
  · simp

/-! ### What a transmission logs -/

/-- R46: `Now()` depends on the clock alone. -/
theorem State.readNow_time_congr {s u : State} (hn : u.env.now = s.env.now) (hc : u.env.clock = s.env.clock) :
    u.readNow.1 = s.readNow.1 := by
  unfold State.readNow
  rw [hn, hc]
  split <;> rfl

/-- R223: two states in which the same transmission is under way, with the same record to log: the sink, the log,
`TXBUF` and the clock agree. -/
structure State.SameSending (s u : State) : Prop where
  params : u.params = s.params
  log : u.out.log = s.out.log
  astate : u.arb.astate = s.arb.astate
  txbuf : u.arb.txbuf = s.arb.txbuf
  now : u.env.now = s.env.now
  clock : u.env.clock = s.env.clock

theorem State.SameSending.trans {s t u : State} (h : s.SameSending t) (k : t.SameSending u) : s.SameSending u :=
  ⟨k.params.trans h.params, k.log.trans h.log, k.astate.trans h.astate, k.txbuf.trans h.txbuf, k.now.trans h.now,
    k.clock.trans h.clock⟩

theorem State.portWrite_sameSending (s : State) : s.SameSending s.portWrite.state := by
  have h := s.portWrite_effect
  generalize s.portWrite = o at h
  cases h <;> exact ⟨rfl, rfl, rfl, rfl, rfl, rfl⟩

theorem State.portFlush_sameSending (s : State) : s.SameSending s.portFlush.state := by
  rcases s.portFlush_cases with ⟨ws, _, he⟩ | ⟨k, ws, _, he⟩ | ⟨k, ws, _, he⟩ <;> rw [he] <;>
    exact ⟨rfl, rfl, rfl, rfl, rfl, rfl⟩

/-- R77, R223, R348: where the log sink is present, the record of the frame in `TXBUF` has been logged first, and after it
popped events alone. -/
def State.LogsSentFirst (s t : State) : Prop :=
  s.params.logSink = true → ∃ recs : List LogRecord, t.out.log = s.out.log ++
      (LogRecord.sent ⟨byteAt s.arb.txbuf 4, byteAt s.arb.txbuf 5⟩ s.arb.txbuf s.readNow.1 :: recs).map LogRecord.entry ∧
    ∀ r ∈ recs, r.isSent = false

theorem State.SameSending.logsSentFirst {s u t : State} (h : s.SameSending u) (k : u.LogsSentFirst t) :
    s.LogsSentFirst t := by
  unfold State.LogsSentFirst at k ⊢
  rwa [h.params, h.log, h.txbuf, State.readNow_time_congr h.now h.clock] at k

/-- R223: once the frame is out its record is logged, and then what follows the frame runs. -/
theorem State.logSent_afterSend_logsSentFirst (s : State) : s.LogsSentFirst s.logSent.afterSend := by
  intro hl
  obtain ⟨recs, hlog, hr⟩ := s.logSent.afterSend_logsPopped
  exact ⟨recs, by rw [hlog]; simp [State.logSent, hl], hr⟩

/-- R223, R237: what a transmission logs: nothing while it stays under way or when a port action fails, and the record of
its frame first when it ends. -/
inductive State.SendLog (s t : State) : Prop where
  | sending : t.arb.astate = s.arb.astate → t.out.log = s.out.log → SendLog s t
  | failed : t.arb.astate = .fault → t.out.log = s.out.log → SendLog s t
  | sent : t.arb.astate ≠ .tx → s.LogsSentFirst t → SendLog s t

theorem State.SameSending.sendLog {s u t : State} (h : s.SameSending u) (k : u.SendLog t) : s.SendLog t := by
  cases k with
  | sending ha hl => exact .sending (ha.trans h.astate) (hl.trans h.log)
  | failed ha hl => exact .failed ha (hl.trans h.log)
  | sent ha hl => exact .sent ha (h.logsSentFirst hl)

/-- R223: everything a transmission logs. -/
theorem State.transmit_sendLog (s : State) : s.SendLog s.transmit := by
  have hw := s.portWrite_sameSending
  unfold State.transmit
  cases h1 : s.portWrite with
  | failed s1 => rw [h1] at hw; exact .failed rfl hw.log
  | blocked s1 => rw [h1] at hw; exact .sending hw.astate hw.log
  | done s1 =>
    rw [h1] at hw
    have hf := s1.portFlush_sameSending
    dsimp only
    cases h2 : s1.portFlush with
    | failed s2 => rw [h2] at hf; exact .failed rfl (hw.trans hf).log
    | blocked s2 => rw [h2] at hf; exact .sending (hw.trans hf).astate (hw.trans hf).log
    | done s2 =>
      rw [h2] at hf
      exact (hw.trans hf).sendLog (.sent s2.logSent.afterSend_not_tx s2.logSent_afterSend_logsSentFirst)

/-- R77, R348: a transmission still under way has logged nothing. -/
theorem State.SendLog.log_of_tx {s t : State} (h : s.SendLog t) (ht : t.arb.astate = .tx) : t.out.log = s.out.log := by
  cases h with
  | sending _ hl => exact hl
  | failed _ hl => exact hl
  | sent ha _ => exact absurd ht ha

/-- R77, R348: a transmission that has ended without a transport error has logged its frame first. -/
theorem State.SendLog.logsSentFirst {s t : State} (h : s.SendLog t) (hs : s.arb.astate = .tx)
    (ht : t.arb.astate = .idle ∨ t.arb.astate = .wait) : s.LogsSentFirst t := by
  cases h with
  | sending ha _ => simp [ha, hs] at ht
  | failed ha _ => simp [ha] at ht
  | sent _ hl => exact hl

/-- R77, R348: a transmission whose frame the transport takes logs it first, whatever the wait behind it comes to. -/
theorem State.transmit_taken_logsSentFirst {s : State} {ws : List WriteDraw} (hw : takesFrame s.env.writes = some ws)
    (hu : s.unsent ≠ []) : s.LogsSentFirst s.transmit := by
  rw [s.transmit_taken ws hw hu]
  refine State.SameSending.logsSentFirst ?_ (State.logSent_afterSend_logsSentFirst _)
  exact ⟨rfl, rfl, rfl, rfl, rfl, rfl⟩

/-! ### The steps of a sending command -/

theorem State.accept_idle {s : State} (hs : s.arb.astate = .idle) (i : Instr) (run : Answer) : s.accept i run = run := by
  simp only [State.accept, hs]

/-- R223: the state in which the transmission of a descriptor's frame begins. -/
structure State.BeginsSending (s u : State) (d : Descriptor) : Prop where
  params : u.params = s.params
  out : u.out = s.out
  env : u.env = s.env
  txbuf : u.arb.txbuf = pack d.cls d.id d.payload
  unsent : u.unsent = pack d.cls d.id d.payload

/-- R222, R223, R229, R230: a sending command taken in `A_IDLE` is the transmission of its frame from the first byte. -/
theorem exec_sending {d : Descriptor} {s t : State} {i : Instr} (hi : i = .send d ∨ i = .sendAndWaitAck d ∨ i = .poll d)
    (hs : s.arb.astate = .idle) (h : exec i s = .next t) : ∃ u, t = u.transmit ∧ s.BeginsSending u d := by
  rcases hi with rfl | rfl | rfl <;>
    obtain ⟨-, rfl⟩ := next_of_lengthFits ((State.accept_idle hs _ _).symm.trans h) <;>
    exact ⟨_, rfl, rfl, rfl, rfl, rfl, rfl⟩

/-- R145: the identifier of a packed frame stands at its bytes 4 and 5. -/
theorem byteAt_pack_id (c i : Byte) (p : Bytes) : byteAt (pack c i p) 4 = c ∧ byteAt (pack c i p) 5 = i := by
  rw [pack, frameBytes_eq]; exact ⟨rfl, rfl⟩

/-- R221, R328: a step in `A_TX` goes on with the transmission, with nothing of it changed by what is presented, or
leaves the arbiter and the log. -/
theorem Steps.sendLog_of_tx {s t : State} (hs : s.arb.astate = .tx) (hr : ∀ ps, s.ports ≠ .rst :: ps) (h : Steps s t) :
    s.SendLog t := by
  have goesOn : ∀ u : State, s.SameSending u → s.SendLog u.goOn := fun u hu => by
    have hgo : u.goOn = u.transmit := by simp only [State.goOn, hu.astate, hs]
    rw [hgo]; exact hu.sendLog u.transmit_sendLog
  cases h.effect with
  | reset hp => exact absurd hp (hr _)
  | goesOn _ => exact goesOn s ⟨rfl, rfl, rfl, rfl, rfl, rfl⟩
  | @runs f bs ps i t _ _ _ he =>
    cases he with
    | refused _ hp => simp [hs] at hp
    | held _ _ => exact goesOn { s with ports := _ } ⟨rfl, rfl, rfl, rfl, rfl, rfl⟩
    | sends hp _ => simp [hs] at hp
    | asks hp _ _ => simp [hs] at hp
    | receives hp _ => simp [hs] at hp
    | arrives _ _ => exact goesOn (State.arrive { s with ports := ps } _) ⟨rfl, rfl, rfl, rfl, rfl, rfl⟩
    | tested _ _ ht => exact .sending (by rw [ht.arb]) (by rw [ht.out])

/-- Settles O56: a command taken in `A_IDLE` is a transmission from its first byte, and a step in `A_TX` goes on with the
one under way; what a transmission logs is said once, in `State.SendLog`. -/
theorem sentIsLoggedFirst : Obligations.SentIsLoggedFirst := by
  unfold Obligations.SentIsLoggedFirst
  refine ⟨fun d s t i hi hs h => ?_, fun s t hs hr h => ?_⟩
  · obtain ⟨u, rfl, hu⟩ := exec_sending hi hs h
    refine ⟨fun ht => (u.transmit_sendLog.log_of_tx ht).trans (by rw [hu.out]), fun ws hl hw => ?_⟩
    have hunsent : u.unsent ≠ [] := List.ne_nil_of_length_pos (by rw [hu.unsent, pack_length]; omega)
    obtain ⟨recs, hlog, hrecs⟩ := State.transmit_taken_logsSentFirst (by rw [hu.env]; exact hw) hunsent
      (by rw [hu.params]; exact hl)
    obtain ⟨hc, hid⟩ := byteAt_pack_id d.cls d.id d.payload
    obtain ⟨htime, -⟩ := State.readNow_congr hu.env
    rw [hu.out, hu.txbuf, hc, hid, htime] at hlog
    exact ⟨recs, hlog, hrecs⟩
  · have hlog := h.sendLog_of_tx hs hr
    exact ⟨hlog.log_of_tx, fun hl ht => hlog.logsSentFirst hs ht hl⟩

end Sys2Proof.Machine
end

section
/-! PROOFS. The statements about the encoding: the decoder and the encoder of each format are inverse to each other, every
well-formed instruction answers a next state, and what the rows of the stream do in `IDLE`. -/

namespace Sys2Proof.Machine

/-! ### Reading a field back -/

/-- R11: the first byte of a slice. -/
theorem slice_cons {s : Bytes} {i j : Nat} (hij : i < j) (hi : i < s.length) :
    slice s i j = byteAt s i :: slice s (i + 1) j := by
  have hj : j - i = j - (i + 1) + 1 := by omega
  rw [slice, slice, List.drop_eq_getElem_cons hi, hj, List.take_succ_cons, byteAt, List.getD_eq_getElem s 0 hi]

theorem slice_self (s : Bytes) (i : Nat) : slice s i i = [] := by simp [slice]

theorem slice_whole (s : Bytes) : slice s 0 s.length = s := by simp [slice]

/-- R11: two slices that meet are one. -/
theorem slice_append_slice (s : Bytes) {i j k : Nat} (hij : i ≤ j) (hjk : j ≤ k) :
    slice s i j ++ slice s j k = slice s i k := by
  have hk : k - i = (j - i) + (k - j) := by omega
  have hj : s.drop j = (s.drop i).drop (j - i) := by rw [List.drop_drop]; congr 1; omega
  rw [slice, slice, slice, hk, hj, List.take_add]

/-- R67: a two-byte field written back is the bytes it was read from. -/
theorem bytesLe16_memRead16 {s : Bytes} {k : Nat} (h : k + 2 ≤ s.length) :
    bytesLe16 (memRead16 s k) = slice s k (k + 2) := by
  rw [memRead16, bytesLe16_le16, slice_cons (by omega) (by omega), slice_cons (by omega) (by omega), slice_self]

/-- R67: a four-byte field written back is the bytes it was read from. -/
theorem bytesLe32_memRead32 {s : Bytes} {k : Nat} (h : k + 4 ≤ s.length) :
    bytesLe32 (memRead32 s k) = slice s k (k + 4) := by
  rw [memRead32, bytesLe32_le32, slice_cons (by omega) (by omega), slice_cons (by omega) (by omega),
    slice_cons (by omega) (by omega), slice_cons (by omega) (by omega), slice_self]

/-- R68: four bytes hold a number mod `2^32`. -/
theorem bytesLe32_add_mul (v w : Nat) : bytesLe32 (v + 2 ^ 32 * w) = bytesLe32 v := by
  simp only [bytesLe32, byteOf, List.cons.injEq, and_true]
  refine ⟨?_, ?_, ?_, ?_⟩ <;> apply BitVec.eq_of_toNat_eq <;> simp only [BitVec.toNat_ofNat] <;> omega

theorem memRead64_lt (s : Bytes) (k : Nat) : memRead64 s k < 2 ^ 64 := by
  have hlo := memRead32_lt s k
  have hhi := memRead32_lt s (k + 4)
  simp only [memRead64]; omega

/-- Log entry 1: an eight-byte timestamp written back is the bytes it was read from. -/
theorem bytesLe64_memRead64 {s : Bytes} {k : Nat} (h : k + 8 ≤ s.length) :
    bytesLe64 (memRead64 s k) = slice s k (k + 8) := by
  have hlo := memRead32_lt s k
  have hdiv : (memRead32 s k + 2 ^ 32 * memRead32 s (k + 4)) / 2 ^ 32 = memRead32 s (k + 4) := by omega
  rw [bytesLe64, memRead64, hdiv, bytesLe32_add_mul, bytesLe32_memRead32 (by omega), bytesLe32_memRead32 (by omega),
    slice_append_slice s (by omega) (by omega)]

/-- Log entry 1: the bytes of a timestamp operand, whatever follows it. -/
theorem bytesLe64_timestamp {s : Bytes} (h : 8 ≤ s.length) :
    bytesLe64 (BitVec.ofNat 64 (memRead64 s 0)).toNat = s.take 8 := by
  rw [BitVec.toNat_ofNat, Nat.mod_eq_of_lt (memRead64_lt s 0), bytesLe64_memRead64 (by omega)]
  simp [slice]

/-- Log entry 1: a timestamp operand is read back, whatever follows it. -/
theorem memRead64_timestamp (ts : Time) (t : Bytes) :
    BitVec.ofNat 64 (memRead64 (bytesLe64 ts.toNat ++ t) 0) = ts := by
  rw [bytesLe64_append_memRead64 _ ts.isLt, BitVec.ofNat_toNat, BitVec.setWidth_eq]

/-- R146: the check of a payload is the bound of its length field. -/
theorem checkPayload_eq_none_iff (p : Bytes) : checkPayload p = none ↔ p.length ≤ 65535 := by
  rw [← lengthFits_iff, checkPayload]
  split <;> simp_all

/-! ### Format CMD -/

/-- R114, R115: the `op` code and the descriptor of a command row. -/
def commandParts : Instr → Option (Byte × Descriptor)
  | .reservedOp0 d => some (0, d)
  | .send d => some (1, d)
  | .receivePacket d => some (2, d)
  | .receive d => some (3, d)
  | .sendAndWaitAck d => some (4, d)
  | .poll d => some (5, d)
  | .reservedOp6 d => some (6, d)
  | .reservedOp7 d => some (7, d)
  | _ => none

section
variable {i : Instr} {op : Byte} {d : Descriptor}

/-- R115: the decoder of an `op` code reads exactly the row that has it. -/
theorem decodeOp_eq_ok_iff : decodeOp op d = .ok i ↔ commandParts i = some (op, d) := by
  constructor
  · intro h
    unfold decodeOp at h
    split_ifs at h with h0 h1 h2 h3 h4 h5 h6 h7 <;> cases h <;> subst op <;> rfl
  · intro h
    cases i <;> simp only [commandParts, Option.some.injEq, Prod.mk.injEq, reduceCtorEq] at h <;>
      obtain ⟨rfl, rfl⟩ := h <;> rfl

/-- R114: a command row is written as its descriptor under its `op`, and its one check is its payload's length. -/
theorem encode_command (h : commandParts i = some (op, d)) :
    formatOf i = .cmd ∧ encode i = encodeCmd op d ∧ i.check = checkPayload d.payload := by
  cases i <;> simp only [commandParts, Option.some.injEq, Prod.mk.injEq, reduceCtorEq] at h <;>
    obtain ⟨rfl, rfl⟩ := h <;> exact ⟨rfl, rfl, rfl⟩

/-- R114: a descriptor with its first fields written out. -/
theorem encodeCmd_eq (op : Byte) (d : Descriptor) :
    encodeCmd op d = op :: d.cls :: d.id :: byteOf d.payload.length 0 :: byteOf d.payload.length 1 ::
      (d.payload ++ bytesLe32 d.timeout.toNat) := by
  simp [encodeCmd, bytesLe16]

/-- R114: a descriptor's fields are read back from its bytes. -/
theorem decodeCmd_encodeCmd (hp : d.payload.length ≤ 65535) : decodeCmd (encodeCmd op d) = decodeOp op d := by
  have hlen : memRead16 (encodeCmd op d) 3 = d.payload.length := by
    rw [encodeCmd_eq]; exact le16_byteOf _ (by omega)
  have hpay : slice (encodeCmd op d) 5 (5 + d.payload.length) = d.payload := by
    rw [encodeCmd_eq]; simp [slice]
  have htmo : memRead32 (encodeCmd op d) (5 + d.payload.length) = d.timeout.toNat := by
    have hpre : ([op, d.cls, d.id] ++ bytesLe16 d.payload.length ++ d.payload).length = 5 + d.payload.length := by
      simp; omega
    have happ := memRead32_append_right ([op, d.cls, d.id] ++ bytesLe16 d.payload.length ++ d.payload)
      (bytesLe32 d.timeout.toNat) 0
    have hread := memRead32_bytesLe32 _ d.timeout.isLt []
    rw [List.append_nil] at hread
    rw [hpre, Nat.add_zero, hread] at happ
    exact happ
  have htotal : (encodeCmd op d).length = 9 + d.payload.length := by rw [encodeCmd_eq]; simp; omega
  have h0 : byteAt (encodeCmd op d) 0 = op := rfl
  have h1 : byteAt (encodeCmd op d) 1 = d.cls := rfl
  have h2 : byteAt (encodeCmd op d) 2 = d.id := rfl
  rw [decodeCmd, hlen, if_pos htotal, hpay, htmo, h0, h1, h2, BitVec.ofNat_toNat, BitVec.setWidth_eq]

/-- R114: the fields read from a descriptor's bytes write those bytes. -/
theorem encodeCmd_of_decodeCmd {bs : Bytes} (h : decodeCmd bs = .ok i) :
    ∃ op d, commandParts i = some (op, d) ∧ d.payload.length ≤ 65535 ∧ encodeCmd op d = bs := by
  unfold decodeCmd at h
  split at h
  case isFalse => cases h
  case isTrue hlen =>
    have hpay := slice_length bs 5 (5 + memRead16 bs 3) (by omega)
    refine ⟨_, _, decodeOp_eq_ok_iff.1 h, ?_, ?_⟩
    · have := memRead16_lt bs 3
      dsimp only; omega
    · have hhead : [byteAt bs 0, byteAt bs 1, byteAt bs 2] = slice bs 0 3 := by
        rw [slice_cons (by omega) (by omega), slice_cons (by omega) (by omega), slice_cons (by omega) (by omega),
          slice_self]
      rw [encodeCmd]
      dsimp only
      rw [hhead, hpay, Nat.add_sub_cancel_left, bytesLe16_memRead16 (by omega), BitVec.toNat_ofNat,
        Nat.mod_eq_of_lt (memRead32_lt _ _), bytesLe32_memRead32 (by omega),
        slice_append_slice bs (by omega) (by omega), slice_append_slice bs (by omega) (by omega),
        slice_append_slice bs (by omega) (by omega), show 5 + memRead16 bs 3 + 4 = bs.length by omega, slice_whole]

theorem decode_encode_command (h : commandParts i = some (op, d)) (hi : i.WellFormed) :
    decode (formatOf i) (encode i) = .ok i := by
  obtain ⟨hf, he, hc⟩ := encode_command h
  rw [hf, he, decode, decodeCmd_encodeCmd ((checkPayload_eq_none_iff _).1 (hc.symm.trans hi))]
  exact decodeOp_eq_ok_iff.2 h

end

/-! ### Format FRAME -/

section
variable {i : Instr} {m : MsgId} {p : Bytes} {ck : Word32}

/-- R90: a frame row is written as its frame. -/
theorem encode_frame (h : frameParts i = some (m, p, ck)) : formatOf i = .frame ∧ encode i = frameBytes m p ck := by
  cases i <;> simp only [frameParts, Option.some.injEq, Prod.mk.injEq, reduceCtorEq] at h <;>
    obtain ⟨rfl, rfl, rfl⟩ := h <;> exact ⟨rfl, rfl⟩

/-- R125: an identifier that R99 does not list falls to the generic row. -/
theorem frameRow_generic (hm : m ∉ MsgId.named) : frameRow m p ck = .casicFrame m p ck := by
  simp only [MsgId.named, List.mem_cons, List.not_mem_nil, or_false, not_or] at hm
  simp only [frameRow, hm, if_false]

/-- R99, R125: the row chosen for an identifier carries that identifier's frame, and is well formed when its payload has
a length field. -/
theorem frameRow_spec (m : MsgId) (p : Bytes) (ck : Word32) :
    frameParts (frameRow m p ck) = some (m, p, ck) ∧ (frameRow m p ck).check = checkPayload p := by
  by_cases hm : m ∈ MsgId.named
  · simp only [MsgId.named, List.mem_cons, List.not_mem_nil, or_false] at hm
    rcases hm with rfl | rfl | rfl | rfl | rfl | rfl | rfl | rfl | rfl | rfl | rfl <;> exact ⟨rfl, rfl⟩
  · rw [frameRow_generic hm]
    exact ⟨rfl, if_neg hm⟩

/-- R125: a well-formed frame row is the row chosen for its identifier. -/
theorem frameRow_of_wellFormed (h : frameParts i = some (m, p, ck)) (hi : i.WellFormed) : frameRow m p ck = i := by
  cases i <;> simp only [frameParts, Option.some.injEq, Prod.mk.injEq, reduceCtorEq] at h <;> obtain ⟨rfl, rfl, rfl⟩ := h
  case casicFrame => exact frameRow_generic fun hm => by simp [Instr.WellFormed, Instr.check, hm] at hi
  all_goals rfl

/-- R90, R61: a frame's fields are read back from its bytes. -/
theorem decodeFrame_frameBytes (hp : p.length ≤ 65535) : decodeFrame (frameBytes m p ck) = .ok (frameRow m p ck) := by
  have hlen := frameBytes_memRead16 m p [] ck hp
  have hpay := frameBytes_payload m p [] ck
  have hck := frameBytes_memRead32 m p [] ck
  rw [List.append_nil] at hlen hpay hck
  have hsync : byteAt (frameBytes m p ck) 0 = Config.sync1 ∧ byteAt (frameBytes m p ck) 1 = Config.sync2 := ⟨rfl, rfl⟩
  have hid : (⟨byteAt (frameBytes m p ck) 4, byteAt (frameBytes m p ck) 5⟩ : MsgId) = m := rfl
  rw [decodeFrame, hlen, if_pos (frameBytes_length m p ck), if_pos hsync, hid, hpay, hck, BitVec.ofNat_toNat,
    BitVec.setWidth_eq]

/-- R90, R61: the fields read from a frame's bytes write those bytes. -/
theorem frameBytes_of_decodeFrame {bs : Bytes} (h : decodeFrame bs = .ok i) :
    ∃ m p ck, i = frameRow m p ck ∧ p.length ≤ 65535 ∧ frameBytes m p ck = bs := by
  unfold decodeFrame at h
  split at h
  case isFalse => cases h
  case isTrue hlen =>
    split at h
    case isFalse => cases h
    case isTrue hsync =>
      cases h
      refine ⟨_, _, _, rfl, ?_, ?_⟩
      · have := memRead16_lt bs 2
        rw [slice_length _ _ _ (by omega)]; omega
      · have hbs := eq_frameBytes bs hsync.1 hsync.2 hlen.ge
        rw [List.drop_eq_nil_of_le hlen.le, List.append_nil] at hbs
        exact hbs.symm

theorem length_le_of_frame (h : frameParts i = some (m, p, ck)) (hi : i.WellFormed) : p.length ≤ 65535 := by
  obtain ⟨-, hc⟩ := frameRow_spec m p ck
  rw [frameRow_of_wellFormed h hi] at hc
  exact (checkPayload_eq_none_iff p).1 (hc.symm.trans hi)

theorem decode_encode_frame (h : frameParts i = some (m, p, ck)) (hi : i.WellFormed) :
    decode (formatOf i) (encode i) = .ok i := by
  obtain ⟨hf, he⟩ := encode_frame h
  rw [hf, he, decode, decodeFrame_frameBytes (length_le_of_frame h hi), frameRow_of_wellFormed h hi]

end

/-! ### Formats INTERNAL and STREAM1 -/

/-- Log entry 1: an operation is read back from its selector and its operands. -/
theorem decodeInternal_encode {i : Instr} (hf : formatOf i = .internal) (hi : i.WellFormed) :
    decodeInternal (encode i) = .ok i := by
  cases i with
  | checksum c k p =>
    have hp : lengthFits p = true := (lengthFits_iff p).2 ((checkPayload_eq_none_iff p).1 hi)
    exact if_pos hp
  | pack c k p =>
    have hp : lengthFits p = true := (lengthFits_iff p).2 ((checkPayload_eq_none_iff p).1 hi)
    exact if_pos hp
  | unpack buf => rfl
  | feedByte b ts =>
    have hts := memRead64_timestamp ts []
    rw [List.append_nil] at hts
    simp [decodeInternal, encode, hts]
  | feedEnd => rfl
  | feed c ts =>
    have hdrop : (bytesLe64 ts.toNat ++ c).drop 8 = c := List.drop_left' (bytesLe64_length _)
    simp [decodeInternal, encode, memRead64_timestamp, hdrop]
  | popEvent => rfl
  | _ => cases hf

/-- Log entry 1: the operation read from a selector and operands writes them. -/
theorem encode_of_decodeInternal {bs : Bytes} {i : Instr} (h : decodeInternal bs = .ok i) :
    i.WellFormed ∧ formatOf i = .internal ∧ encode i = bs := by
  unfold decodeInternal at h
  split at h
  case h_1 => cases h
  case h_2 sel ops =>
    split_ifs at h with h0 h1 h2 h3 h4 hnil h5 hlen h6 hnil
    · split at h
      · split_ifs at h with hp
        cases h
        exact ⟨if_pos hp, rfl, by rw [h0]; rfl⟩
      · cases h
    · split at h
      · split_ifs at h with hp
        cases h
        exact ⟨if_pos hp, rfl, by rw [h1]; rfl⟩
      · cases h
    · cases h
      exact ⟨rfl, rfl, by rw [h2]; rfl⟩
    · split at h
      · split_ifs at h with hts
        cases h
        refine ⟨rfl, rfl, ?_⟩
        rw [encode, bytesLe64_timestamp hts.ge, List.take_of_length_le hts.le, h3]
      · cases h
    · cases h
      exact ⟨rfl, rfl, by rw [h4, hnil]; rfl⟩
    · cases h
      refine ⟨rfl, rfl, ?_⟩
      rw [encode, bytesLe64_timestamp hlen, List.take_append_drop, h5]
    · cases h
      exact ⟨rfl, rfl, by rw [h6, hnil]; rfl⟩

/-- R97: a row of the stream is read back from its byte. -/
theorem decodeStream1_encode {i : Instr} (hf : formatOf i = .stream1) (hi : i.WellFormed) :
    decodeStream1 (encode i) = .ok i := by
  cases i with
  | idleSync1 => rfl
  | idleNmeaStart => rfl
  | idleUnknown b =>
    have hb : ¬ (b = Config.sync1 ∨ b = Config.nmeaStart) := fun hb => by
      simp [Instr.WellFormed, Instr.check, hb] at hi
    simp only [not_or] at hb
    simp only [encode, decodeStream1, hb, if_false]
  | _ => cases hf

/-- R97: the row read from a byte of the stream is that byte. -/
theorem encode_of_decodeStream1 {bs : Bytes} {i : Instr} (h : decodeStream1 bs = .ok i) :
    i.WellFormed ∧ formatOf i = .stream1 ∧ encode i = bs := by
  unfold decodeStream1 at h
  split at h
  case h_2 => cases h
  case h_1 b =>
    split_ifs at h with hsync hnmea <;> cases h
    · exact ⟨rfl, rfl, by rw [hsync]; rfl⟩
    · exact ⟨rfl, rfl, by rw [hnmea]; rfl⟩
    · exact ⟨if_neg (not_or.2 ⟨hsync, hnmea⟩), rfl, rfl⟩

/-! ### The encoding's statements -/

/-- Settles O1: format by format, each row's fields are read back from the bytes it is written as. -/
theorem decodeEncode : Obligations.DecodeEncode := by
  unfold Obligations.DecodeEncode
  intro i hi
  cases i with
  | send d | receivePacket d | receive d | sendAndWaitAck d | poll d | reservedOp0 d | reservedOp6 d | reservedOp7 d =>
    exact decode_encode_command rfl hi
  | checksum | pack | unpack | feedByte | feedEnd | feed | popEvent => exact decodeInternal_encode rfl hi
  | idleSync1 | idleNmeaStart | idleUnknown => exact decodeStream1_encode rfl hi
  | casicFrame | ackNak | ackAck | monVer | cfgPrt | cfgMsg | cfgRst | cfgTp | cfgRate | cfgCfg | cfgTmode | cfgNavx =>
    exact decode_encode_frame rfl hi

/-- Settles O2: format by format, what is read writes the bytes it was read from. -/
theorem encodeDecode : Obligations.EncodeDecode := by
  unfold Obligations.EncodeDecode
  intro f bs i h
  cases f with
  | cmd =>
    obtain ⟨op, d, hc, hp, rfl⟩ := encodeCmd_of_decodeCmd h
    obtain ⟨hf, he, hcheck⟩ := encode_command hc
    exact ⟨hcheck.trans ((checkPayload_eq_none_iff _).2 hp), hf, he⟩
  | internal => exact encode_of_decodeInternal h
  | stream1 => exact encode_of_decodeStream1 h
  | frame =>
    obtain ⟨m, p, ck, rfl, hp, rfl⟩ := frameBytes_of_decodeFrame h
    obtain ⟨hparts, hcheck⟩ := frameRow_spec m p ck
    obtain ⟨hf, he⟩ := encode_frame hparts
    exact ⟨hcheck.trans ((checkPayload_eq_none_iff p).2 hp), hf, he⟩

/-- Settles O3: each word is one evaluation of the decoder. -/
theorem wordsOfTheTableDecode : Obligations.WordsOfTheTableDecode := by
  unfold Obligations.WordsOfTheTableDecode
  refine ⟨?_, ?_, ?_, ?_, ?_, ?_, ?_, ?_⟩ <;> decide

/-! ### Every well-formed instruction answers -/

/-- R221: command acceptance answers where the command it would take does. -/
theorem State.accept_answers {s : State} {i : Instr} {run : Answer} (h : ∃ t, run = .next t) :
    ∃ t, s.accept i run = .next t := by
  unfold State.accept
  cases s.arb.astate with
  | idle => exact h
  | fault => exact ⟨_, rfl⟩
  | tx => exact ⟨_, rfl⟩
  | wait => exact ⟨_, rfl⟩

/-- R146: the length check passes the payload of a well-formed instruction. -/
theorem guarded_answers {p : Bytes} (h : checkPayload p = none) (t : State) (r : Refusal) :
    ∃ u, (if lengthFits p then (.next t : Answer) else .refused r) = .next u :=
  ⟨t, if_pos ((lengthFits_iff p).2 ((checkPayload_eq_none_iff p).1 h))⟩

/-- Settles O5: no row faults, and the one refusal is of a payload that well-formedness rules out. -/
theorem everyWellFormedInstructionAnswersNext : Obligations.EveryWellFormedInstructionAnswersNext := by
  unfold Obligations.EveryWellFormedInstructionAnswersNext
  intro i s hi
  cases hf : frameParts i with
  | some x =>
    obtain ⟨m, p, ck⟩ := x
    exact ⟨_, (exec_frame hf s).trans (s.deliver_eq m p ck (length_le_of_frame hf hi))⟩
  | none =>
    cases i with
    | send | sendAndWaitAck | poll => exact State.accept_answers (guarded_answers hi _ _)
    | receivePacket | receive | reservedOp0 | reservedOp6 | reservedOp7 => exact State.accept_answers ⟨_, rfl⟩
    | checksum | pack => exact guarded_answers hi _ _
    | unpack | feedByte | feedEnd | feed | popEvent | idleSync1 | idleNmeaStart | idleUnknown => exact ⟨_, rfl⟩
    | _ => cases hf

/-! ### The rows of the stream in IDLE -/

/-- R172: a sync trigger flushes the pending run and starts an accumulator. -/
theorem Demux.start_eq (d : Demux) (p : PState) (b : Byte) (ts : Time) :
    d.start p b ts
      = { d with evq := d.evq ++ d.pendingRun, unk := [], acc := [b], accTs := ts, pstate := p } := by
  rw [Demux.start, Demux.flushUnknown_eq]

/-- R172, R184: `FEED_BYTE` in `IDLE` of the three kinds of byte. -/
theorem Demux.feedByte_idle {d : Demux} (hd : d.pstate = .idle) (ts : Time) :
    d.feedByte Config.sync1 ts = d.start .sync1 Config.sync1 ts ∧
    d.feedByte Config.nmeaStart ts = d.start .nmea Config.nmeaStart ts ∧
    ∀ b, b ≠ Config.sync1 → b ≠ Config.nmeaStart → d.feedByte b ts = d.addUnknown b ts := by
  simp only [Demux.feedByte, hd]
  refine ⟨rfl, rfl, fun b hs hn => ?_⟩
  rw [Demux.idleByte, if_neg hs, if_neg hn]

/-- R182, log entry 6: the timestamp a byte of the stream gets, and what is left of those supplied. -/
theorem State.takeStamp_eq {s : State} {ts : Time} {tss : List Time}
    (h : s.env.stamps = ts :: tss ∨ (s.env.stamps = [] ∧ tss = [] ∧ ts = s.env.now)) :
    s.takeStamp = (ts, { s with env := { s.env with stamps := tss } }) := by
  unfold State.takeStamp
  rcases h with h | ⟨h, rfl, rfl⟩
  · rw [h]
  · rw [h]
    show (s.env.now, s) = _
    rw [← h]

/-- R97, R170, R380: a byte of the stream reaches the parser with its caller's timestamp; the rest of the block and of the
environment stays. -/
theorem State.streamByte_eq {s : State} {ts : Time} {tss : List Time}
    (h : s.env.stamps = ts :: tss ∨ (s.env.stamps = [] ∧ tss = [] ∧ ts = s.env.now)) (b : Byte) :
    s.streamByte b = { s with env := { s.env with stamps := tss }, demux := s.demux.feedByte b ts } := by
  rw [State.streamByte, State.takeStamp_eq h]

/-- Settles O22: each row is one byte of the stream, and the parser's rule in `IDLE` says what it does. -/
theorem streamRowsInIdle : Obligations.StreamRowsInIdle := by
  unfold Obligations.StreamRowsInIdle
  intro s ts tss hidle hstamp
  obtain ⟨hsync, hnmea, hunknown⟩ := Demux.feedByte_idle hidle ts
  refine ⟨?_, ?_, fun b hs hn => ?_⟩
  · show Host.Outcome.next (s.streamByte Config.sync1) = _
    rw [State.streamByte_eq hstamp, hsync, Demux.start_eq]; rfl
  · show Host.Outcome.next (s.streamByte Config.nmeaStart) = _
    rw [State.streamByte_eq hstamp, hnmea, Demux.start_eq]; rfl
  · show Host.Outcome.next (s.streamByte b) = _
    rw [State.streamByte_eq hstamp, hunknown b hs hn]; rfl

end Sys2Proof.Machine
end

section
/-! PROOFS. The statements about `CODEC`: the checksum as a weighted sum of bytes; `UNPACK` by its first failing test; and
what a changed byte or a cut does to a packed frame. -/

namespace Sys2Proof.Machine

/-! ### Bytes after a change or a cut -/

/-- R11: the byte at an index that is replaced. -/
theorem byteAt_set_self (s : Bytes) {j : Nat} (hj : j < s.length) (b : Byte) : byteAt (s.set j b) j = b := by
  rw [byteAt, List.getD_eq_getElem _ 0 (by rwa [List.length_set]), List.getElem_set_self]

theorem byteAt_set_ne (s : Bytes) {i j : Nat} (b : Byte) (h : i ≠ j) : byteAt (s.set j b) i = byteAt s i := by
  rw [byteAt, byteAt, List.getD_eq_getElem?_getD, List.getD_eq_getElem?_getD, List.getElem?_set_ne h.symm]

theorem byteAt_take (s : Bytes) {n i : Nat} (h : i < n) : byteAt (s.take n) i = byteAt s i := by
  simp only [byteAt, List.getD_eq_getElem?_getD, List.getElem?_take, if_pos h]

/-- R11: a byte of a slice. -/
theorem byteAt_slice (s : Bytes) {i j k : Nat} (hij : i ≤ j) (hjk : j < k) : byteAt (slice s i k) (j - i) = byteAt s j := by
  rw [slice, byteAt_take _ (by omega), byteAt, byteAt, List.getD_eq_getElem?_getD, List.getD_eq_getElem?_getD,
    List.getElem?_drop, Nat.add_sub_cancel' hij]

/-- R11: a slice that holds the replaced byte. -/
theorem slice_set_inside (s : Bytes) {i j k : Nat} (hij : i ≤ j) (b : Byte) :
    slice (s.set j b) i k = (slice s i k).set (j - i) b := by
  rw [slice, slice, List.drop_set, if_neg (Nat.not_lt.2 hij), List.take_set]

/-- R11: a slice that ends before the replaced byte. -/
theorem slice_set_after (s : Bytes) {i j k : Nat} (hkj : k ≤ j) (b : Byte) :
    slice (s.set j b) i k = slice s i k := by
  by_cases hij : i ≤ j
  · have hlen : (slice s i k).length ≤ j - i := by
      simp only [slice, List.length_take]; omega
    rw [slice_set_inside s hij, List.set_eq_of_length_le hlen]
  · rw [slice, slice, Nat.sub_eq_zero_of_le (by omega : k ≤ i), List.take_zero, List.take_zero]

/-- R67: a two-byte field that the replaced byte is no part of. -/
theorem memRead16_set (s : Bytes) {j k : Nat} (b : Byte) (h0 : k ≠ j) (h1 : k + 1 ≠ j) :
    memRead16 (s.set j b) k = memRead16 s k := by
  rw [memRead16, memRead16, byteAt_set_ne s b h0, byteAt_set_ne s b h1]

/-- R67: a four-byte field that lies behind the replaced byte. -/
theorem memRead32_set_before (s : Bytes) {j k : Nat} (b : Byte) (hjk : j < k) :
    memRead32 (s.set j b) k = memRead32 s k := by
  rw [memRead32, memRead32, byteAt_set_ne s b (by omega), byteAt_set_ne s b (by omega),
    byteAt_set_ne s b (by omega), byteAt_set_ne s b (by omega)]

/-- R67: four bytes determine their number and are determined by it, so another byte makes another field. -/
theorem memRead32_set_ne (s : Bytes) {j k : Nat} (hk : k + 4 ≤ s.length) (hkj : k ≤ j) (hjk : j < k + 4) {b : Byte}
    (hb : b ≠ byteAt s j) : memRead32 (s.set j b) k ≠ memRead32 s k := by
  intro heq
  have hbytes := congrArg bytesLe32 heq
  rw [bytesLe32_memRead32 (by rw [List.length_set]; omega), bytesLe32_memRead32 (by omega)] at hbytes
  have hsame : byteAt (s.set j b) j = byteAt s j := by
    rw [← byteAt_slice (s.set j b) hkj hjk, hbytes, byteAt_slice s hkj hjk]
  rw [byteAt_set_self s (by omega)] at hsame
  exact hb hsame

/-! ### The weighted sum -/

/-- R68: what the byte at an index adds to the sum. -/
def weightedByte (p : Bytes) (j : Nat) : Nat := (byteAt p j).toNat * 2 ^ (8 * (j % 4))

theorem weightedSum_eq (p : Bytes) : weightedSum p = ∑ j ∈ Finset.range p.length, weightedByte p j := rfl

/-- R68: whole words before a sequence leave its weights as they are. -/
theorem weightedSum_append (s t : Bytes) (h : s.length % 4 = 0) :
    weightedSum (s ++ t) = weightedSum s + weightedSum t := by
  have hleft : ∀ j ∈ Finset.range s.length, weightedByte (s ++ t) j = weightedByte s j := fun j hj => by
    rw [weightedByte, weightedByte, byteAt_append_left s t j (Finset.mem_range.1 hj)]
  have hright : ∀ j ∈ Finset.range t.length, weightedByte (s ++ t) (s.length + j) = weightedByte t j := fun j _ => by
    have hmod : (s.length + j) % 4 = j % 4 := by omega
    rw [weightedByte, weightedByte, byteAt_append_right, hmod]
  rw [weightedSum_eq, List.length_append, Finset.sum_range_add, Finset.sum_congr rfl hleft, Finset.sum_congr rfl hright,
    ← weightedSum_eq, ← weightedSum_eq]

/-- R144 (b): appended zeros add nothing, whatever the length before them. -/
theorem weightedSum_append_zeros (s : Bytes) (n : Nat) : weightedSum (s ++ zeros n) = weightedSum s := by
  have hleft : ∀ j ∈ Finset.range s.length, weightedByte (s ++ zeros n) j = weightedByte s j := fun j hj => by
    rw [weightedByte, weightedByte, byteAt_append_left s _ j (Finset.mem_range.1 hj)]
  have hzero : ∀ j ∈ Finset.range n, weightedByte (s ++ zeros n) (s.length + j) = 0 := fun j hj => by
    have hz : byteAt (zeros n) j = 0#8 := by simp [byteAt, zeros, List.getD_eq_getElem?_getD]
    rw [weightedByte, byteAt_append_right, hz, BitVec.toNat_zero, Nat.zero_mul]
  rw [weightedSum_eq, List.length_append, zeros_length, Finset.sum_range_add, Finset.sum_congr rfl hleft,
    Finset.sum_eq_zero hzero, Nat.add_zero, ← weightedSum_eq]

/-- R68: four bytes weigh what the little-endian word of them is. -/
theorem weightedSum_word (b0 b1 b2 b3 : Byte) : weightedSum [b0, b1, b2, b3] = le32 b0 b1 b2 b3 := by
  simp only [weightedSum_eq, weightedByte, List.length_cons, List.length_nil, Finset.sum_range_succ,
    Finset.sum_range_zero, byteAt_cons_zero, byteAt_cons_succ, le32, Nat.reduceMod, Nat.reduceMul]
  omega

/-- R68, R140: the words of a padded sequence sum to the weighted bytes, mod `2^32`. -/
theorem toNat_sum_leWords (s : Bytes) (h : s.length % 4 = 0) :
    ((leWords s).foldl (· + ·) 0).toNat = weightedSum s % 2 ^ 32 := by
  induction s using leWords.induct with
  | case1 b0 b1 b2 b3 rest ih =>
    have hrest : rest.length % 4 = 0 := by simp only [List.length_cons] at h; omega
    have hsplit : b0 :: b1 :: b2 :: b3 :: rest = [b0, b1, b2, b3] ++ rest := rfl
    rw [leWords, List.foldl_cons, foldl_add_start, BitVec.toNat_add, ih hrest, hsplit,
      weightedSum_append [b0, b1, b2, b3] rest (by simp), weightedSum_word, zero_add, BitVec.toNat_ofNat]
    omega
  | case2 s hs =>
    have hnil : s = [] := by
      match s, hs with
      | [], _ => rfl
      | [_], _ | [_, _], _ | [_, _, _], _ => simp at h
      | b0 :: b1 :: b2 :: b3 :: rest, hs => exact absurd rfl (hs b0 b1 b2 b3 rest)
    subst hnil; rfl

/-- R140: the zeros that are appended make up whole words. -/
theorem padded_length (s : Bytes) {n : Nat} (h : s.length % 4 = n % 4) : (s ++ zeros (padLen n)).length % 4 = 0 := by
  rw [List.length_append, zeros_length, padLen]; omega

/-- R68: one other byte makes another sum, mod `2^32`, since a byte's weight times 256 is at most `2^32`. -/
theorem weightedSum_set_ne (s : Bytes) {j : Nat} (hj : j < s.length) {b : Byte} (hb : b ≠ byteAt s j) :
    weightedSum (s.set j b) % 2 ^ 32 ≠ weightedSum s % 2 ^ 32 := by
  have hmem : j ∈ Finset.range s.length := Finset.mem_range.2 hj
  have hrest : ∀ i ∈ (Finset.range s.length).erase j, weightedByte (s.set j b) i = weightedByte s i := fun i hi => by
    rw [weightedByte, weightedByte, byteAt_set_ne s b (Finset.ne_of_mem_erase hi)]
  rw [weightedSum_eq, weightedSum_eq, List.length_set, ← Finset.add_sum_erase _ _ hmem,
    ← Finset.add_sum_erase _ (weightedByte s) hmem, Finset.sum_congr rfl hrest, weightedByte, weightedByte,
    byteAt_set_self s hj]
  have hne : b.toNat ≠ (byteAt s j).toNat := fun h => hb (BitVec.eq_of_toNat_eq h)
  have hnew := b.isLt
  have hold := (byteAt s j).isLt
  generalize (∑ i ∈ (Finset.range s.length).erase j, weightedByte s i) = r
  have hlane : j % 4 < 4 := Nat.mod_lt _ (by decide)
  generalize j % 4 = lane at hlane
  match lane, hlane with
  | 0, _ | 1, _ | 2, _ | 3, _ => omega

/-- R68: the same for a byte of the part that is summed. -/
theorem weightedSum_slice_set_ne (s : Bytes) {i j k : Nat} (hij : i ≤ j) (hjk : j < k) (hk : k ≤ s.length) {b : Byte}
    (hb : b ≠ byteAt s j) : weightedSum (slice (s.set j b) i k) % 2 ^ 32 ≠ weightedSum (slice s i k) % 2 ^ 32 := by
  rw [slice_set_inside s hij]
  exact weightedSum_set_ne _ (by rw [slice_length _ _ _ hk]; omega) (by rwa [byteAt_slice s hij hjk])

/-! ### The checksum -/

/-- R140: the seed, where the length field can count the payload. -/
theorem checksumSeed_toNat (c i : Byte) {n : Nat} (h : n ≤ 65535) :
    (checksumSeed c i n).toNat = i.toNat * 2 ^ 24 + c.toNat * 2 ^ 16 + n := by
  have hc := c.isLt
  have hi := i.isLt
  rw [checksumSeed, BitVec.toNat_ofNat, Nat.shiftLeft_eq, Nat.shiftLeft_eq]
  omega

/-- R140, R68: the checksum as a number. -/
theorem checksum_toNat (c i : Byte) (p : Bytes) (h : p.length ≤ 65535) :
    (checksum c i p).toNat = (i.toNat * 2 ^ 24 + c.toNat * 2 ^ 16 + p.length + weightedSum p) % 2 ^ 32 := by
  rw [checksum_eq_seed_add, BitVec.toNat_add, checksumSeed_toNat c i h, toNat_sum_leWords _ (padded_length p rfl),
    weightedSum_append_zeros, Nat.add_mod_mod]

/-- R143: the first word of the streaming sum is the seed of the batch sum. -/
theorem checksumSeed_eq_word (l0 l1 c i : Byte) :
    checksumSeed c i (le16 l0 l1) = BitVec.ofNat 32 (le32 l0 l1 c i) := by
  rw [checksumSeed, Nat.shiftLeft_eq, Nat.shiftLeft_eq, le16, le32]
  congr 1; omega

/-- R61: what `UNPACK` sums of a buffer, header fields first. -/
theorem slice_summed {f : Bytes} (h : 6 + memRead16 f 2 ≤ f.length) :
    slice f 2 (6 + memRead16 f 2)
      = byteAt f 2 :: byteAt f 3 :: byteAt f 4 :: byteAt f 5 :: slice f 6 (6 + memRead16 f 2) := by
  rw [slice_cons (by omega) (by omega), slice_cons (by omega) (by omega), slice_cons (by omega) (by omega),
    slice_cons (by omega) (by omega)]

/-- R143: the batch form and the streaming form of the checksum agree. -/
theorem checksum_eq_streaming {f : Bytes} (h : 6 + memRead16 f 2 ≤ f.length) :
    checksum (byteAt f 4) (byteAt f 5) (slice f 6 (6 + memRead16 f 2))
      = (leWords (slice f 2 (6 + memRead16 f 2) ++ zeros (padLen (memRead16 f 2)))).foldl (· + ·) 0 := by
  have hlen : (slice f 6 (6 + memRead16 f 2)).length = memRead16 f 2 := by rw [slice_length _ _ _ h]; omega
  have hseed : checksumSeed (byteAt f 4) (byteAt f 5) (memRead16 f 2)
      = BitVec.ofNat 32 (le32 (byteAt f 2) (byteAt f 3) (byteAt f 4) (byteAt f 5)) := checksumSeed_eq_word _ _ _ _
  rw [checksum, hlen, hseed, slice_summed h]
  simp only [List.cons_append, leWords, List.foldl_cons, zero_add]

/-- R143: in the streaming form byte `j` from the length field on weighs `2^(8 * (j mod 4))`. -/
theorem checksum_eq_weightedSum {f : Bytes} (h : 6 + memRead16 f 2 ≤ f.length) :
    (checksum (byteAt f 4) (byteAt f 5) (slice f 6 (6 + memRead16 f 2))).toNat
      = weightedSum (slice f 2 (6 + memRead16 f 2)) % 2 ^ 32 := by
  have hmod : (slice f 2 (6 + memRead16 f 2)).length % 4 = memRead16 f 2 % 4 := by rw [slice_length _ _ _ h]; omega
  rw [checksum_eq_streaming h, toNat_sum_leWords _ (padded_length _ hmod), weightedSum_append_zeros]

/-! ### The rows of the codec -/

/-- R140: `CHECKSUM` completes on its domain. -/
theorem exec_checksum (c i : Byte) {p : Bytes} (h : p.length ≤ 65535) (s : State) :
    exec (.checksum c i p) s = .next (s.answerTest (.checksum (checksum c i p))) :=
  if_pos ((lengthFits_iff p).2 h)

/-- R145: `PACK` completes where the length field can count the payload. -/
theorem exec_pack (c i : Byte) {p : Bytes} (h : p.length ≤ 65535) (s : State) :
    exec (.pack c i p) s = .next (s.answerTest (.packed (pack c i p))) :=
  if_pos ((lengthFits_iff p).2 h)

/-- R146: a longer payload has no frame. -/
theorem exec_pack_refused (c i : Byte) {p : Bytes} (h : 65535 < p.length) (s : State) :
    exec (.pack c i p) s = .refused .payloadTooLong :=
  if_neg fun hfits => absurd ((lengthFits_iff p).1 hfits) (Nat.not_le.2 h)

/-- Settles O6: the answer is the model's checksum, whose words sum to the weighted bytes. -/
theorem checksumAnswersTheWeightedSum : Obligations.ChecksumAnswersTheWeightedSum := by
  unfold Obligations.ChecksumAnswersTheWeightedSum
  intro c i p s hp
  exact ⟨checksum c i p, exec_checksum c i hp s, checksum_toNat c i p hp⟩

/-- Settles O7: an empty payload leaves the seed, and zeros are in the length term alone. -/
theorem checksumOfEmptyAndPaddedPayloads : Obligations.ChecksumOfEmptyAndPaddedPayloads := by
  unfold Obligations.ChecksumOfEmptyAndPaddedPayloads
  refine ⟨fun c i => ?_, fun c i p k hk => BitVec.eq_of_toNat_eq ?_⟩
  · have hseed : checksum c i [] = checksumSeed c i 0 := rfl
    rw [hseed, checksumSeed_toNat c i (Nat.zero_le _), Nat.add_zero]
  · have hlen : (p ++ zeros k).length = p.length + k := by rw [List.length_append, zeros_length]
    rw [BitVec.toNat_add, checksum_toNat c i _ (by omega), checksum_toNat c i p (by omega), weightedSum_append_zeros,
      hlen, BitVec.toNat_ofNat]
    omega

/-- Settles O8: the length field, class and id are the first word of the streaming sum and the seed of the batch sum. -/
theorem checksumIsTheStreamingSum : Obligations.ChecksumIsTheStreamingSum := by
  unfold Obligations.ChecksumIsTheStreamingSum
  exact fun f h => ⟨checksum_eq_streaming h, checksum_eq_weightedSum h⟩

/-- Settles O9: the frame of R61 written out, with the two low bytes of the length. -/
theorem packAnswersTheFrame : Obligations.PackAnswersTheFrame := by
  unfold Obligations.PackAnswersTheFrame
  intro c i p s
  have hframe : pack c i p = [0xBA, 0xCE, BitVec.ofNat 8 p.length, BitVec.ofNat 8 (p.length / 256), c, i] ++ p
      ++ bytesLe32 (checksum c i p).toNat := by
    simp [pack, frameBytes_eq, byteOf]
  exact ⟨fun hp => hframe ▸ exec_pack c i hp s, fun hp => exec_pack_refused c i hp s, pack_length c i p⟩

/-- Settles O10: what `UNPACK` accepts is a packed frame and what follows it, and each such buffer is accepted. -/
theorem unpackAcceptsExactlyPackedFrames : Obligations.UnpackAcceptsExactlyPackedFrames := by
  unfold Obligations.UnpackAcceptsExactlyPackedFrames
  refine fun buf s => ⟨unpack buf, rfl, fun m p => ⟨fun h => ?_, ?_⟩⟩
  · obtain ⟨hp, -, hbuf⟩ := eq_pack_of_unpack buf m p h
    exact ⟨hp, _, hbuf⟩
  · rintro ⟨hp, rest, rfl⟩
    exact unpack_pack_append m.cls m.id p rest hp

/-- Settles O12: the round trip with nothing behind the frame. -/
theorem unpackOfPack : Obligations.UnpackOfPack := by
  unfold Obligations.UnpackOfPack
  intro c i p hp
  simpa using unpack_pack_append c i p [] hp

/-! ### `UNPACK` by its first failing test -/

section
variable {buf : Bytes}

theorem unpack_of_short (h : buf.length < 10) : unpack buf = .err .short := if_pos h

theorem unpack_of_badSync (h : 10 ≤ buf.length) (hs : byteAt buf 0 ≠ 0xBA ∨ byteAt buf 1 ≠ 0xCE) :
    unpack buf = .err .sync := by
  rw [unpack, if_neg (show ¬ buf.length < Config.minFrame from Nat.not_lt.2 h)]
  exact if_pos hs

/-- R148: with both sync bytes there, the length field decides next. -/
theorem unpack_of_truncated (h : 10 ≤ buf.length) (h0 : byteAt buf 0 = 0xBA) (h1 : byteAt buf 1 = 0xCE)
    (hl : buf.length < 10 + memRead16 buf 2) : unpack buf = .err .trunc := by
  rw [unpack, if_neg (show ¬ buf.length < Config.minFrame from Nat.not_lt.2 h),
    if_neg (show ¬ (byteAt buf 0 ≠ Config.sync1 ∨ byteAt buf 1 ≠ Config.sync2) from
      not_or.2 ⟨not_not.2 h0, not_not.2 h1⟩)]
  exact if_pos hl

/-- R148: of a buffer that holds a whole frame, the checksum field decides. -/
theorem unpack_of_whole (h0 : byteAt buf 0 = 0xBA) (h1 : byteAt buf 1 = 0xCE) (hl : 10 + memRead16 buf 2 ≤ buf.length) :
    unpack buf = if memRead32 buf (6 + memRead16 buf 2)
        = (checksum (byteAt buf 4) (byteAt buf 5) (slice buf 6 (6 + memRead16 buf 2))).toNat
      then .ok ⟨byteAt buf 4, byteAt buf 5⟩ (slice buf 6 (6 + memRead16 buf 2)) else .err .cksum := by
  have hlt := memRead16_lt buf 2
  have hlen : (slice buf 6 (6 + memRead16 buf 2)).length ≤ 65535 := by rw [slice_length _ _ _ (by omega)]; omega
  have hck : BitVec.ofNat 32 (memRead32 buf (6 + memRead16 buf 2))
        = checksum (byteAt buf 4) (byteAt buf 5) (slice buf 6 (6 + memRead16 buf 2)) ↔
      memRead32 buf (6 + memRead16 buf 2)
        = (checksum (byteAt buf 4) (byteAt buf 5) (slice buf 6 (6 + memRead16 buf 2))).toNat := by
    rw [← BitVec.toNat_inj, BitVec.toNat_ofNat, Nat.mod_eq_of_lt (memRead32_lt _ _)]
  conv_lhs => rw [eq_frameBytes buf h0 h1 hl, unpack_frameBytes _ _ _ _ hlen]
  simp only [hck]

/-- R143, R148: a whole frame whose checksum field is not the weighted sum of its fields. -/
theorem unpack_of_badChecksum (h0 : byteAt buf 0 = 0xBA) (h1 : byteAt buf 1 = 0xCE)
    (hl : 10 + memRead16 buf 2 ≤ buf.length)
    (hck : memRead32 buf (6 + memRead16 buf 2) ≠ weightedSum (slice buf 2 (6 + memRead16 buf 2)) % 2 ^ 32) :
    unpack buf = .err .cksum := by
  rw [unpack_of_whole h0 h1 hl, checksum_eq_weightedSum (by omega), if_neg hck]

end

/-- Settles O11: along the tests in their order, each buffer meets the condition of its own code alone. -/
theorem unpackReportsTheFirstFailure : Obligations.UnpackReportsTheFirstFailure := by
  unfold Obligations.UnpackReportsTheFirstFailure
  intro buf
  by_cases hshort : buf.length < 10
  · have hnot : ¬ 10 + memRead16 buf 2 ≤ buf.length := by omega
    simp [unpack_of_short hshort, hshort, Nat.not_le.2 hshort, hnot]
  have hlen : 10 ≤ buf.length := Nat.not_lt.1 hshort
  by_cases hsync : byteAt buf 0 ≠ 0xBA ∨ byteAt buf 1 ≠ 0xCE
  · have hnot : ¬ (byteAt buf 0 = 0xBA ∧ byteAt buf 1 = 0xCE) := by tauto
    simp only [unpack_of_badSync hlen hsync, hshort, hlen, hsync]
    tauto
  obtain ⟨h0, h1⟩ : byteAt buf 0 = 0xBA ∧ byteAt buf 1 = 0xCE := by tauto
  by_cases htrunc : buf.length < 10 + memRead16 buf 2
  · simp [unpack_of_truncated hlen h0 h1 htrunc, hshort, hlen, h0, h1, htrunc, Nat.not_le.2 htrunc]
  have hwhole : 10 + memRead16 buf 2 ≤ buf.length := Nat.not_lt.1 htrunc
  by_cases hck : memRead32 buf (6 + memRead16 buf 2)
      = (checksum (byteAt buf 4) (byteAt buf 5) (slice buf 6 (6 + memRead16 buf 2))).toNat
  · simp [unpack_of_whole h0 h1 hwhole, hck, h0, h1, hlen, htrunc]
  · simp [unpack_of_whole h0 h1 hwhole, hck, h0, h1, hlen, htrunc, hwhole]

/-! ### A packed frame with a byte changed or with its end cut off -/

section
variable (c i : Byte) {p : Bytes}

theorem byteAt_pack_sync (p : Bytes) : byteAt (pack c i p) 0 = 0xBA ∧ byteAt (pack c i p) 1 = 0xCE := by
  rw [pack, frameBytes_eq]; exact ⟨rfl, rfl⟩

/-- R91: the length field of a packed frame. -/
theorem memRead16_pack (hp : p.length ≤ 65535) : memRead16 (pack c i p) 2 = p.length := by
  simpa [pack] using frameBytes_memRead16 ⟨c, i⟩ p [] (checksum c i p) hp

/-- R143: the checksum field of a packed frame is the weighted sum of what stands between it and the sync bytes. -/
theorem memRead32_pack (hp : p.length ≤ 65535) :
    memRead32 (pack c i p) (6 + p.length) = weightedSum (slice (pack c i p) 2 (6 + p.length)) % 2 ^ 32 := by
  have hlen := memRead16_pack c i hp
  obtain ⟨hcls, hid⟩ := byteAt_pack_id c i p
  have hfield : memRead32 (pack c i p) (6 + p.length) = (checksum c i p).toNat := by
    simpa [pack] using frameBytes_memRead32 ⟨c, i⟩ p [] (checksum c i p)
  have hpayload : slice (pack c i p) 6 (6 + p.length) = p := by
    simpa [pack] using frameBytes_payload ⟨c, i⟩ p [] (checksum c i p)
  have hsum := checksum_eq_weightedSum (f := pack c i p) (by rw [hlen, pack_length]; omega)
  rw [hlen, hcls, hid, hpayload] at hsum
  exact hfield.trans hsum

/-- R151: any other byte in place of one of a frame's, but for those of the length field, is detected. -/
theorem unpack_pack_set (hp : p.length ≤ 65535) {j : Nat} (hj : j < (pack c i p).length) (h2 : j ≠ 2) (h3 : j ≠ 3)
    {b : Byte} (hb : b ≠ byteAt (pack c i p) j) :
    unpack ((pack c i p).set j b) = .err (if j < 2 then .sync else .cksum) := by
  obtain ⟨h0, h1⟩ := byteAt_pack_sync c i p
  have hlen := memRead16_pack c i hp
  have hfield := memRead32_pack c i hp
  have htotal := pack_length c i p
  generalize pack c i p = f at *
  by_cases hsync : j < 2
  · rw [if_pos hsync]
    refine unpack_of_badSync (by rw [List.length_set]; omega) ?_
    match j, hsync with
    | 0, _ => exact .inl (by rwa [byteAt_set_self f hj, ← h0])
    | 1, _ => exact .inr (by rwa [byteAt_set_self f hj, ← h1])
  · rw [if_neg hsync]
    have hlen' : memRead16 (f.set j b) 2 = p.length := by rw [memRead16_set f b (by omega) (by omega), hlen]
    refine unpack_of_badChecksum (by rwa [byteAt_set_ne f b (by omega)]) (by rwa [byteAt_set_ne f b (by omega)])
      (by rw [hlen', List.length_set]; omega) ?_
    rw [hlen']
    by_cases hck : j < 6 + p.length
    · -- a summed byte: the checksum field stays and the sum changes
      rw [memRead32_set_before f b hck, hfield]
      exact (weightedSum_slice_set_ne f (Nat.le_of_not_lt hsync) hck (by omega) hb).symm
    · -- a byte of the checksum field: the sum stays and the field changes
      rw [slice_set_after f (Nat.le_of_not_lt hck), ← hfield]
      exact memRead32_set_ne f (by omega) (Nat.le_of_not_lt hck) (by omega) hb

end

/-- R151: a flipped bit makes another byte. -/
theorem flip_ne (b : Byte) {k : Nat} (hk : k < 8) : b ^^^ (1#8 <<< k) ≠ b := by
  intro h
  have hbit : (b ^^^ (1#8 <<< k)).getLsbD k = b.getLsbD k := by rw [h]
  simp [hk] at hbit

/-- Settles O13: a flipped bit is a changed byte. -/
theorem singleBitFlipDetected : Obligations.SingleBitFlipDetected := by
  unfold Obligations.SingleBitFlipDetected
  intro c i p j k hp hj hk h2 h3
  exact unpack_pack_set c i hp hj h2 h3 (flip_ne _ hk)

/-- Settles O14: a cut after ten bytes or more leaves the sync bytes and the length field in place. -/
theorem truncationDetected : Obligations.TruncationDetected := by
  unfold Obligations.TruncationDetected
  intro c i p n hp hn
  obtain ⟨h0, h1⟩ := byteAt_pack_sync c i p
  have hlen : ((pack c i p).take n).length = n := by rw [List.length_take]; omega
  by_cases hshort : n < 10
  · rw [if_pos hshort]
    exact unpack_of_short (by omega)
  · rw [if_neg hshort]
    have hfield : memRead16 ((pack c i p).take n) 2 = p.length := by
      rw [memRead16, byteAt_take _ (by omega), byteAt_take _ (by omega), ← memRead16, memRead16_pack c i hp]
    rw [pack_length] at hn
    exact unpack_of_truncated (by omega) (by rwa [byteAt_take _ (by omega)]) (by rwa [byteAt_take _ (by omega)])
      (by rw [hfield, hlen]; exact hn)

end Sys2Proof.Machine
end

section
/-! PROOFS. The statements about `DEMUX`: one byte, state by state; what a byte can emit; the frames and sentences that a
stream holds; and how a byte string is cut into chunks. -/

namespace Sys2Proof.Machine

/-! ### One byte, state by state -/

section
variable {d : Demux} (b : Byte) (ts : Time)

theorem Demux.feedByte_sync1 (hd : d.pstate = .sync1) :
    d.feedByte b ts
      = if b = 0xCE then { d with acc := d.acc ++ [b], pstate := .sync2 } else d.demote.idleByte b ts := by
  rw [Demux.feedByte, hd]; rfl

theorem Demux.feedByte_sync2 (hd : d.pstate = .sync2) :
    d.feedByte b ts = { d with acc := d.acc ++ [b], lenLo := b, pstate := .lenLo } := by
  rw [Demux.feedByte, hd]; rfl

theorem Demux.feedByte_lenLo (hd : d.pstate = .lenLo) :
    d.feedByte b ts
      = if 4096 < le16 d.lenLo b then (d.append b).abandon
        else { d with acc := d.acc ++ [b], remaining := le16 d.lenLo b + 6, pstate := .body } := by
  rw [Demux.feedByte, hd]; rfl

theorem Demux.feedByte_eq_bodyByte (hd : d.pstate = .body) : d.feedByte b ts = d.bodyByte b := by
  rw [Demux.feedByte, hd]

theorem Demux.bodyByte_eq (d : Demux) :
    d.bodyByte b
      = if d.remaining - 1 = 0 then
          Demux.complete { d with acc := d.acc ++ [b], remaining := d.remaining - 1 }
        else { d with acc := d.acc ++ [b], remaining := d.remaining - 1 } := rfl

theorem Demux.feedByte_nmea (hd : d.pstate = .nmea) :
    d.feedByte b ts
      = if b = 0x0A then ((d.append b).emit (.nmeaSentence (d.acc ++ [b]) d.accTs)).close
        else if 1024 ≤ d.acc.length + 1 then (d.append b).abandon
        else d.append b := by
  rw [Demux.feedByte, hd, show d.acc.length + 1 = (d.acc ++ [b]).length by simp]; rfl

/-- R172, R178: in `IDLE` a byte that is no trigger joins the run, and a trigger flushes it. -/
theorem Demux.idleByte_eq (d : Demux) :
    d.idleByte b ts
      = if b = 0xBA then d.start .sync1 b ts
        else if b = 0x24 then d.start .nmea b ts
        else d.addUnknown b ts := rfl

/-- R172: the two sync triggers in `IDLE`. -/
theorem Demux.feedByte_idle_sync1 (hd : d.pstate = .idle) :
    d.feedByte 0xBA ts
      = { d with evq := d.evq ++ d.pendingRun, unk := [], acc := [0xBA], accTs := ts, pstate := .sync1 } := by
  rw [← Demux.start_eq]; exact (Demux.feedByte_idle hd ts).1

theorem Demux.feedByte_idle_nmeaStart (hd : d.pstate = .idle) :
    d.feedByte 0x24 ts
      = { d with evq := d.evq ++ d.pendingRun, unk := [], acc := [0x24], accTs := ts, pstate := .nmea } := by
  rw [← Demux.start_eq]; exact (Demux.feedByte_idle hd ts).2.1

/-- R176: completion of a frame that `UNPACK` accepts. -/
theorem Demux.complete_of_ok {m : MsgId} {p : Bytes} (h : unpack d.acc = .ok m p) :
    d.complete = (d.emit (.casicPacket m p d.accTs d.acc)).close := by
  rw [Demux.complete, h]

theorem Demux.complete_of_err {e : FrameError} (h : unpack d.acc = .err e) : d.complete = d.abandon := by
  rw [Demux.complete, h]

/-- R18, R171: `FEED_BYTE` is a change of the parser alone. -/
theorem exec_feedByte (s : State) : exec (.feedByte b ts) s = .next { s with demux := s.demux.feedByte b ts } := rfl

end

/-- Settles O16, by the three kinds of byte. -/
theorem feedByteInIdle : Obligations.FeedByteInIdle := by
  unfold Obligations.FeedByteInIdle
  intro s b ts hidle
  obtain ⟨-, -, hunknown⟩ := Demux.feedByte_idle hidle ts
  rw [exec_feedByte]
  refine ⟨?_, ?_, fun hs hn => ?_⟩
  · rintro rfl; rw [Demux.feedByte_idle_sync1 ts hidle]
  · rintro rfl; rw [Demux.feedByte_idle_nmeaStart ts hidle]
  · rw [hunknown b hs hn]; rfl

/-- R173, R30: a byte that is no `SYNC2` finds the lone sync byte as the pending run of an idle parser. -/
theorem Demux.demote_of_sync1 {d : Demux} (h : d.Inv) (hd : d.pstate = .sync1) :
    d.demote = { d with unk := [0xBA], unkTs := d.accTs, acc := [], pstate := .idle } := by
  rw [Demux.demote, Demux.inv_sync1 h hd, Demux.inv_unk h (by simp [hd])]; rfl

/-- Settles O17: `SYNC2` goes on with the frame; any other byte is one in `IDLE` behind the demoted sync byte. -/
theorem feedByteInSync1 : Obligations.FeedByteInSync1 := by
  unfold Obligations.FeedByteInSync1
  intro s b ts hinv hsync
  have hacc : s.demux.acc = [0xBA] := Demux.inv_sync1 hinv hsync
  have hunk : s.demux.unk = [] := Demux.inv_unk hinv (by simp [hsync])
  have hflush : ∀ p, s.demux.demote.start p b ts = { s.demux with
      evq := s.demux.evq ++ [.unknownBytes [0xBA] s.demux.accTs], unkTs := s.demux.accTs, acc := [b], accTs := ts,
      pstate := p } := fun p => by
    rw [Demux.start_eq, Demux.demote_of_sync1 hinv hsync]; simp [Demux.pendingRun, hunk]
  rw [exec_feedByte, Demux.feedByte_sync1 b ts hsync]
  refine ⟨?_, ?_, ?_, fun h2 h1 hn => ?_⟩
  · rintro rfl; rw [if_pos rfl, hacc]; rfl
  · rintro rfl
    rw [if_neg (by decide), Demux.idleByte_eq, if_pos rfl, hflush]; simp only [hsync]
  · rintro rfl
    rw [if_neg (by decide), Demux.idleByte_eq, if_neg (by decide), if_pos rfl, hflush]
  · rw [if_neg h2, Demux.idleByte_eq, if_neg h1, if_neg hn, Demux.demote_of_sync1 hinv hsync]; rfl

/-- Settles O18: the length field decides on its second byte. -/
theorem feedByteInTheHeader : Obligations.FeedByteInTheHeader := by
  unfold Obligations.FeedByteInTheHeader
  intro s b ts
  rw [exec_feedByte]
  refine ⟨fun h => ?_, fun h hle => ?_, fun h hgt => ?_⟩
  · rw [Demux.feedByte_sync2 b ts h]
  · rw [Demux.feedByte_lenLo b ts h, if_neg (show ¬ 4096 < le16 s.demux.lenLo b from Nat.not_lt.2 hle)]; rfl
  · rw [Demux.feedByte_lenLo b ts h, if_pos (show 4096 < le16 s.demux.lenLo b from hgt)]; rfl

/-- Settles O19: while bytes are missing one is stored, and at the last one `UNPACK` decides. -/
theorem feedByteInBody : Obligations.FeedByteInBody := by
  unfold Obligations.FeedByteInBody
  intro s b ts hbody
  rw [exec_feedByte, Demux.feedByte_eq_bodyByte b ts hbody, Demux.bodyByte_eq]
  refine ⟨fun h2 => ?_, fun m p h1 hok => ?_, fun e h1 herr => ?_⟩
  · rw [if_neg (by omega)]
  · rw [if_pos (by omega), Demux.complete_of_ok hok, h1]; rfl
  · rw [if_pos (by omega), Demux.complete_of_err herr, h1]; rfl

/-- Settles O20: the end of line is tested first, then the guard. -/
theorem feedByteInNmea : Obligations.FeedByteInNmea := by
  unfold Obligations.FeedByteInNmea
  intro s b ts hnmea
  rw [exec_feedByte, Demux.feedByte_nmea b ts hnmea]
  refine ⟨?_, fun hb hlt => ?_, fun hb hge => ?_⟩
  · rintro rfl; rfl
  · rw [if_neg hb, if_neg (Nat.not_le.2 hlt)]; rfl
  · rw [if_neg hb, if_pos hge]; rfl

/-- Settles O21, by the flush of the pending run and by the head of the queue. -/
theorem feedEndAndPopEvent : Obligations.FeedEndAndPopEvent := by
  unfold Obligations.FeedEndAndPopEvent
  refine fun s => ⟨?_, fun hq => ?_, fun e es hq => ?_⟩
  · show Host.Outcome.next { s with demux := s.demux.flushUnknown } = _
    rw [Demux.flushUnknown_eq]
  · have hpop : s.demux.pop = (none, s.demux) := by rw [Demux.pop, hq]
    show Host.Outcome.next (State.answerTest { s with demux := s.demux.pop.2 } (.popped s.demux.pop.1)) = _
    rw [hpop]; rfl
  · have hpop : s.demux.pop = (some e, { s.demux with evq := es }) := by rw [Demux.pop, hq]
    show Host.Outcome.next (State.answerTest { s with demux := s.demux.pop.2 } (.popped s.demux.pop.1)) = _
    rw [hpop]; rfl

/-- Settles O26: the last byte makes `ACC` a whole frame, of which only the checksum field can be wrong. -/
theorem completionFailsOnlyOnTheChecksum : Obligations.CompletionFailsOnlyOnTheChecksum := by
  unfold Obligations.CompletionFailsOnlyOnTheChecksum
  intro d b e hinv hbody hlast herr
  obtain ⟨h0, h1, -, hlen⟩ := BodyShape_full (Demux.inv_body hinv hbody) hlast b
  rcases unpack_exact _ h0 h1 hlen with ⟨m, p, hok, -, -⟩ | hck
  · rw [hok] at herr; cases herr
  · rw [hck] at herr; cases herr; rfl

/-! ### What a byte can emit -/

/-- R171, R172, R173: everything a byte can do to the queue and the run: it is stored in `ACC`; it ends an accumulator with
one event; it is a trigger in `IDLE`, which flushes the run; or it joins the run, behind a demoted sync byte if there is
one. -/
theorem Demux.feedByte_effect {d : Demux} (h : d.Inv) (b : Byte) (ts : Time) :
    (d.unk = [] ∧ (d.feedByte b ts).evq = d.evq ∧ (d.feedByte b ts).unk = []) ∨
    (d.unk = [] ∧ (∃ e, (d.feedByte b ts).evq = d.evq ++ [e]) ∧ (d.feedByte b ts).unk = []) ∨
    ((d.feedByte b ts).evq = d.evq ++ d.pendingRun ∧ (d.feedByte b ts).unk = []) ∨
    ((d.feedByte b ts).evq = d.evq ∧ (d.feedByte b ts).unk = d.unk ++ d.acc ++ [b] ∧
      (d.feedByte b ts).pstate = .idle ∧ (d.pstate = .idle ∨ d.pstate = .sync1)) := by
  cases hp : d.pstate
  case idle =>
    obtain ⟨hsync, hnmea, hunknown⟩ := Demux.feedByte_idle hp ts
    by_cases hs : b = Config.sync1
    · subst hs; rw [hsync, Demux.start_eq]; exact .inr (.inr (.inl ⟨rfl, rfl⟩))
    by_cases hn : b = Config.nmeaStart
    · subst hn; rw [hnmea, Demux.start_eq]; exact .inr (.inr (.inl ⟨rfl, rfl⟩))
    · rw [hunknown b hs hn, Demux.inv_acc_idle h hp, List.append_nil]
      exact .inr (.inr (.inr ⟨rfl, rfl, hp, .inl rfl⟩))
  all_goals have hu : d.unk = [] := Demux.inv_unk h (by simp [hp])
  case sync1 =>
    rw [Demux.feedByte_sync1 b ts hp]
    have hrun : d.demote.pendingRun = [.unknownBytes [0xBA] d.accTs] := by
      rw [Demux.demote_of_sync1 h hp]; rfl
    split
    · exact .inl ⟨hu, rfl, hu⟩
    rw [Demux.idleByte_eq]
    split
    · rw [Demux.start_eq, hrun]; exact .inr (.inl ⟨hu, ⟨_, rfl⟩, rfl⟩)
    split
    · rw [Demux.start_eq, hrun]; exact .inr (.inl ⟨hu, ⟨_, rfl⟩, rfl⟩)
    · exact .inr (.inr (.inr ⟨rfl, rfl, rfl, .inr rfl⟩))
  case sync2 => rw [Demux.feedByte_sync2 b ts hp]; exact .inl ⟨hu, rfl, hu⟩
  case lenLo =>
    rw [Demux.feedByte_lenLo b ts hp]
    split
    · exact .inr (.inl ⟨hu, ⟨_, rfl⟩, hu⟩)
    · exact .inl ⟨hu, rfl, hu⟩
  case body =>
    rw [Demux.feedByte_eq_bodyByte b ts hp]
    rcases Demux.bodyByte_spec (Demux.inv_body h hp) b with ⟨-, heq⟩ | ⟨-, m, p, -, -, -, heq⟩ | ⟨-, -, heq⟩ <;> rw [heq]
    · exact .inl ⟨hu, rfl, hu⟩
    · exact .inr (.inl ⟨hu, ⟨_, rfl⟩, hu⟩)
    · exact .inr (.inl ⟨hu, ⟨_, rfl⟩, hu⟩)
  case nmea =>
    rw [Demux.feedByte_nmea b ts hp]
    split
    · exact .inr (.inl ⟨hu, ⟨_, rfl⟩, hu⟩)
    split
    · exact .inr (.inl ⟨hu, ⟨_, rfl⟩, hu⟩)
    · exact .inl ⟨hu, rfl, hu⟩

/-- The events a parser has emitted, and the one its pending run would be. -/
def Demux.events (d : Demux) : List Event := d.evq ++ d.pendingRun

theorem Demux.feedEnd_evq (d : Demux) : d.feedEnd.evq = d.events := by
  rw [Demux.feedEnd, Demux.flushUnknown_eq]; rfl

theorem Demux.events_of_nil {d : Demux} (h : d.unk = []) : d.events = d.evq := by
  rw [Demux.events, Demux.pendingRun, if_pos h, List.append_nil]

theorem Demux.events_of_run {d : Demux} (h : d.unk ≠ []) : d.events = d.evq ++ [.unknownBytes d.unk d.unkTs] := by
  rw [Demux.events, Demux.pendingRun, if_neg h]

/-- R243: a byte makes one event more at most, the pending run counted as one. -/
theorem Demux.feedByte_events_length {d : Demux} (h : d.Inv) (b : Byte) (ts : Time) :
    (d.feedByte b ts).events.length ≤ d.events.length + 1 := by
  rcases Demux.feedByte_effect h b ts with ⟨hu, hq, hu'⟩ | ⟨hu, ⟨e, hq⟩, hu'⟩ | ⟨hq, hu'⟩ | ⟨hq, hu', -, -⟩
  · rw [Demux.events_of_nil hu, Demux.events_of_nil hu', hq]; omega
  · rw [Demux.events_of_nil hu, Demux.events_of_nil hu', hq, List.length_append]; exact Nat.le_refl _
  · rw [Demux.events_of_nil hu', hq, Demux.events]; omega
  · rw [Demux.events_of_run (by simp [hu']), hq, Demux.events, List.length_append, List.length_append,
      List.length_singleton]
    omega

/-- R27: how many bytes the run holds, or would hold if the lone sync byte of `SYNC1` were demoted. -/
def Demux.runBound (d : Demux) : Nat := d.unk.length + if d.pstate = .sync1 then 1 else 0

theorem Demux.feedByte_runBound {d : Demux} (h : d.Inv) (b : Byte) (ts : Time) :
    (d.feedByte b ts).runBound ≤ d.runBound + 1 := by
  have hstored : (d.feedByte b ts).unk = [] → (d.feedByte b ts).runBound ≤ d.runBound + 1 := fun hu => by
    simp only [Demux.runBound, hu, List.length_nil]; split <;> omega
  rcases Demux.feedByte_effect h b ts with ⟨-, -, hu⟩ | ⟨-, -, hu⟩ | ⟨-, hu⟩ | ⟨-, hu, hp', hp⟩
  · exact hstored hu
  · exact hstored hu
  · exact hstored hu
  rcases hp with hp | hp
  · simp [Demux.runBound, hu, hp', hp, Demux.inv_acc_idle h hp]
  · simp [Demux.runBound, hu, hp', hp, Demux.inv_sync1 h hp]

/-- What one byte raises by one at most, a chunk raises by its length at most. -/
theorem Demux.feedBytes_le_of_feedByte_le {size : Demux → Nat} {ts : Time}
    (hbyte : ∀ d : Demux, d.Inv → ∀ b, size (d.feedByte b ts) ≤ size d + 1) {d : Demux} (h : d.Inv) (c : Bytes) :
    size (d.feedBytes c ts) ≤ size d + c.length := by
  induction c generalizing d with
  | nil => exact Nat.le_refl _
  | cons b c ih =>
    have hfirst := hbyte d h b
    have hrest := ih (Demux.feedByte_inv d b ts h)
    rw [Demux.feedBytes_cons, List.length_cons]
    omega

/-- Settles O25: the bounds of one byte, summed over the chunk. -/
theorem eventsPerByteAreBounded : Obligations.EventsPerByteAreBounded := by
  unfold Obligations.EventsPerByteAreBounded
  refine ⟨fun d b ts h => ?_, fun d c ts h hu => ⟨?_, ?_⟩⟩
  · rcases Demux.feedByte_effect h b ts with ⟨-, hq, -⟩ | ⟨-, he, -⟩ | ⟨hq, -⟩ | ⟨hq, -⟩
    · exact .inl hq
    · exact .inr he
    · rw [hq, Demux.pendingRun]
      split
      · exact .inl (List.append_nil _)
      · exact .inr ⟨_, rfl⟩
    · exact .inl hq
  · have hlen := Demux.feedBytes_le_of_feedByte_le (size := fun d => d.events.length) (ts := ts)
      (fun d hd b => Demux.feedByte_events_length hd b ts) h c
    simp only [Demux.events_of_nil hu] at hlen
    rwa [Demux.feed, Demux.feedEnd_evq]
  · have hrun := Demux.feedBytes_le_of_feedByte_le (size := Demux.runBound) (ts := ts)
      (fun d hd b => Demux.feedByte_runBound hd b ts) h c
    have hstart : d.runBound ≤ 1 := by simp only [Demux.runBound, hu, List.length_nil]; split <;> omega
    have hle : (d.feedBytes c ts).unk.length ≤ (d.feedBytes c ts).runBound := Nat.le_add_right _ _
    omega

end Sys2Proof.Machine
end

section
/-! PROOFS. The statements about frames and sentences in a stream: what each leaves of an idle parser, whatever stands
before it. -/

namespace Sys2Proof.Machine

/-! ### Chunks in parts -/

theorem Demux.feedBytes_append (d : Demux) (c c' : Bytes) (ts : Time) :
    d.feedBytes (c ++ c') ts = (d.feedBytes c ts).feedBytes c' ts := List.foldl_append

/-- R180: the last part of a chunk is fed with the chunk's end. -/
theorem Demux.feed_append (d : Demux) (c c' : Bytes) (ts : Time) :
    d.feed (c ++ c') ts = (d.feedBytes c ts).feed c' ts := congrArg Demux.feedEnd (d.feedBytes_append c c' ts)

theorem Demux.feed_of_unk_nil {d : Demux} {c : Bytes} {ts : Time} (h : (d.feedBytes c ts).unk = []) :
    d.feed c ts = d.feedBytes c ts := Demux.flushUnknown_of_nil h

/-- R180: `FEED` is a change of the parser alone. -/
theorem exec_feed (c : Bytes) (ts : Time) (s : State) : exec (.feed c ts) s = .next { s with demux := s.demux.feed c ts } :=
  rfl

/-! ### Frames -/

/-- R112, R176: a packed frame fed to an idle parser is a packet behind the pending run. -/
theorem Demux.feed_pack {d : Demux} (hd : d.pstate = .idle) (c i : Byte) {p : Bytes} (hp : p.length ≤ 4096) (ts : Time) :
    d.feed (pack c i p) ts = { d with
      pstate := .idle, acc := [], accTs := ts, lenLo := byteOf p.length 0, remaining := 0, unk := []
      evq := d.events ++ [.casicPacket ⟨c, i⟩ p ts (pack c i p)] } := by
  have hevent : frameEvent ⟨c, i⟩ p (checksum c i p) ts = .casicPacket ⟨c, i⟩ p ts (pack c i p) := if_pos rfl
  rw [pack, Demux.feed_frame hd hp, Demux.taking_whole, hevent, Demux.flushUnknown_eq]
  rfl

/-- R172, R173: a byte that is no `SYNC2`, behind a lone sync byte, is one in `IDLE` with that byte as its run. -/
theorem Demux.feedBytes_demote {d : Demux} (hd : d.pstate = .sync1) {b : Byte} (hb : b ≠ 0xCE) (c : Bytes) (ts : Time) :
    d.feedBytes (b :: c) ts = d.demote.feedBytes (b :: c) ts := by
  rw [Demux.feedBytes_cons, Demux.feedBytes_cons, Demux.feedByte_sync1 b ts hd, if_neg hb]; rfl

/-- Settles O27: the frame is fed to a parser that is idle again, with the lone sync byte as its run. -/
theorem resyncOnDoubledSync : Obligations.ResyncOnDoubledSync := by
  unfold Obligations.ResyncOnDoubledSync
  intro s c i p ts hidle hunk hp
  have hlone : s.demux.feedByte 0xBA ts = { s.demux with acc := [0xBA], accTs := ts, pstate := .sync1 } := by
    rw [Demux.feedByte_idle_sync1 ts hidle]; simp [Demux.pendingRun, hunk]
  have hdemote : s.demux.feed (0xBA :: pack c i p) ts = (s.demux.feedByte 0xBA ts).demote.feed (pack c i p) ts := by
    refine congrArg Demux.feedEnd ?_
    rw [Demux.feedBytes_cons, pack, frameBytes_eq]
    exact Demux.feedBytes_demote (by rw [hlone]) (by decide) _ ts
  have hevents : (s.demux.feedByte 0xBA ts).demote.events = s.demux.evq ++ [.unknownBytes [0xBA] ts] := by
    rw [hlone]; simp [Demux.events, Demux.pendingRun, hunk]
  refine ⟨_, exec_feed _ ts s, ?_⟩
  rw [hdemote, Demux.feed_pack rfl c i hp, hevents]
  exact ⟨by simp, rfl, rfl, rfl⟩

/-- R172 to R175: a header that declares too much, fed to an idle parser, is abandoned on its last byte. -/
theorem Demux.feedBytes_oversizeHeader {d : Demux} (hd : d.pstate = .idle) {lo hi : Byte}
    (h : 4096 < lo.toNat + 256 * hi.toNat) (ts : Time) :
    d.feedBytes [0xBA, 0xCE, lo, hi] ts = { d with
      pstate := .idle, lenLo := lo, acc := [], accTs := ts, unk := []
      evq := d.events ++ [.unknownBytes [0xBA, 0xCE, lo, hi] ts] } := by
  rw [Demux.feedBytes_cons, Demux.feedByte_idle_sync1 ts hd, Demux.feedBytes_cons,
    Demux.feedByte_sync1 _ ts rfl, if_pos rfl, Demux.feedBytes_cons, Demux.feedByte_sync2 _ ts rfl, Demux.feedBytes_cons,
    Demux.feedByte_lenLo _ ts rfl, if_pos (show 4096 < le16 lo hi from h)]
  rfl

/-- Settles O29: the header leaves the parser idle, with no pending run, for the frame behind it. -/
theorem oversizeHeaderIsAbandoned : Obligations.OversizeHeaderIsAbandoned := by
  unfold Obligations.OversizeHeaderIsAbandoned
  intro s lo hi c i p ts hidle hunk hlen hp
  refine ⟨_, exec_feed _ ts s, ?_⟩
  rw [Demux.feed_append, Demux.feedBytes_oversizeHeader hidle hlen, Demux.feed_pack rfl c i hp, Demux.events_of_nil hunk]
  exact ⟨by simp [Demux.events_of_nil], rfl, rfl, rfl⟩

/-- R176, R183: fewer bytes than are missing of a body are stored. -/
theorem Demux.feedBytes_body {d : Demux} (hd : d.pstate = .body) {c : Bytes} (hc : c.length < d.remaining) (ts : Time) :
    d.feedBytes c ts = { d with acc := d.acc ++ c, remaining := d.remaining - c.length } := by
  induction c generalizing d with
  | nil => simp [Demux.feedBytes]
  | cons b c ih =>
    rw [List.length_cons] at hc
    have hbyte : d.feedByte b ts = { d with acc := d.acc ++ [b], remaining := d.remaining - 1 } := by
      rw [Demux.feedByte_eq_bodyByte b ts hd, Demux.bodyByte_eq, if_neg (by omega)]
    have hrest := ih (d := { d with acc := d.acc ++ [b], remaining := d.remaining - 1 }) hd (Nat.lt_sub_of_add_lt hc)
    rw [Demux.feedBytes_cons, hbyte, hrest, List.append_assoc, List.singleton_append, List.length_cons, Nat.sub_sub,
      Nat.add_comm 1]

/-- Settles O30: no run is pending, so the end of the chunk changes nothing. -/
theorem bodySwallowsWhatFollows : Obligations.BodySwallowsWhatFollows := by
  unfold Obligations.BodySwallowsWhatFollows
  intro d c ts hbody hunk hc
  have hstored := Demux.feedBytes_body hbody hc ts
  rw [Demux.feed_of_unk_nil (by rw [hstored]; exact hunk), hstored]

/-! ### Sentences -/

/-- R177: bytes of a sentence that are no line feed and stay below the guard are stored. -/
theorem Demux.feedBytes_nmea {d : Demux} (hd : d.pstate = .nmea) {c : Bytes} (hc : 0x0A ∉ c)
    (hlen : d.acc.length + c.length < 1024) (ts : Time) : d.feedBytes c ts = { d with acc := d.acc ++ c } := by
  induction c generalizing d with
  | nil => simp [Demux.feedBytes]
  | cons b c ih =>
    obtain ⟨hb, hrest⟩ : 0x0A ≠ b ∧ 0x0A ∉ c := by simpa using hc
    rw [List.length_cons] at hlen
    have hbyte : d.feedByte b ts = d.append b := by
      rw [Demux.feedByte_nmea b ts hd, if_neg hb.symm, if_neg (by omega)]
    rw [Demux.feedBytes_cons, hbyte, ih (d := d.append b) hd hrest (by simp; omega), Demux.append,
      List.append_assoc, List.singleton_append]

/-- Settles O28: the `$` starts the accumulator, the body is stored, and the line feed ends the sentence. -/
theorem sentenceIsExtracted : Obligations.SentenceIsExtracted := by
  unfold Obligations.SentenceIsExtracted
  intro s body ts hidle hunk hbody hlen
  have hstart : s.demux.feedByte 0x24 ts = { s.demux with acc := [0x24], accTs := ts, pstate := .nmea } := by
    rw [Demux.feedByte_idle_nmeaStart ts hidle]; simp [Demux.pendingRun, hunk]
  have hstored : (s.demux.feedByte 0x24 ts).feedBytes body ts
      = { s.demux with acc := 0x24 :: body, accTs := ts, pstate := .nmea } := by
    rw [hstart, Demux.feedBytes_nmea rfl hbody (by simp; omega)]; rfl
  have hall : s.demux.feedBytes (0x24 :: (body ++ [0x0A])) ts = { s.demux with
      acc := [], accTs := ts, pstate := .idle, evq := s.demux.evq ++ [.nmeaSentence (0x24 :: (body ++ [0x0A])) ts] } := by
    rw [Demux.feedBytes_cons, Demux.feedBytes_concat, hstored, Demux.feedByte_nmea _ ts rfl, if_pos rfl]; rfl
  refine ⟨_, exec_feed _ ts s, ?_⟩
  rw [Demux.feed_of_unk_nil (by rw [hall]; exact hunk), hall]
  exact ⟨rfl, rfl, rfl, hunk⟩

end Sys2Proof.Machine
end

section
/-! PROOFS. Chunk invariance (R185). The parser reads neither its queue nor a timestamp, so a run with pops is one without;
an early `FEED_END` only cuts the pending run; and where it finds none it does nothing. -/

namespace Sys2Proof.Machine

/-! ### The parser reads neither its queue nor a timestamp -/

/-- An event with another timestamp. -/
def Event.restamp (f : Time → Time) : Event → Event
  | .casicPacket m p ts raw => .casicPacket m p (f ts) raw
  | .nmeaSentence bs ts => .nmeaSentence bs (f ts)
  | .unknownBytes bs ts => .unknownBytes bs (f ts)

theorem Event.restamp_id (e : Event) : e.restamp id = e := by cases e <;> rfl

theorem Event.restamp_zero (e : Event) : e.restamp (fun _ => 0) = e.untimed := by cases e <;> rfl

/-- A parser with its timestamps changed and with events before its queue. -/
def Demux.relabel (q : List Event) (f : Time → Time) (d : Demux) : Demux :=
  { d with accTs := f d.accTs, unkTs := f d.unkTs, evq := q ++ d.evq.map (Event.restamp f) }

theorem Demux.relabel_id (q : List Event) (d : Demux) : d.relabel q id = { d with evq := q ++ d.evq } := by
  have hmap : d.evq.map (Event.restamp id) = d.evq := by
    rw [List.map_congr_left fun e _ => e.restamp_id, List.map_id']
  rw [Demux.relabel, hmap]; rfl

section
variable (q : List Event) (f : Time → Time) (d : Demux) (b : Byte) (ts : Time)

theorem Demux.relabel_emit (e : Event) : (d.emit e).relabel q f = (d.relabel q f).emit (e.restamp f) := by
  simp [Demux.relabel, Demux.emit]

theorem Demux.relabel_pendingRun : (d.relabel q f).pendingRun = d.pendingRun.map (Event.restamp f) := by
  unfold Demux.pendingRun Demux.relabel
  split <;> rfl

theorem Demux.relabel_events : (d.relabel q f).events = q ++ d.events.map (Event.restamp f) := by
  rw [Demux.events, Demux.relabel_pendingRun, Demux.events, List.map_append, ← List.append_assoc]; rfl

theorem Demux.relabel_flushUnknown : d.flushUnknown.relabel q f = (d.relabel q f).flushUnknown := by
  have hevents := d.relabel_events q f
  simp only [Demux.events] at hevents
  rw [Demux.flushUnknown_eq, Demux.flushUnknown_eq, hevents]; rfl

theorem Demux.relabel_start (p : PState) : (d.start p b ts).relabel q f = (d.relabel q f).start p b (f ts) := by
  rw [Demux.start, Demux.start, ← Demux.relabel_flushUnknown]; rfl

theorem Demux.relabel_addUnknown : (d.addUnknown b ts).relabel q f = (d.relabel q f).addUnknown b (f ts) := by
  simp only [Demux.relabel, Demux.addUnknown, apply_ite f]; rfl

theorem Demux.relabel_idleByte : (d.idleByte b ts).relabel q f = (d.relabel q f).idleByte b (f ts) := by
  simp only [Demux.idleByte, ← Demux.relabel_start, ← Demux.relabel_addUnknown, apply_ite (Demux.relabel q f)]

theorem Demux.relabel_demote : d.demote.relabel q f = (d.relabel q f).demote := by
  simp only [Demux.relabel, Demux.demote, apply_ite f]; rfl

theorem Demux.relabel_abandon : d.abandon.relabel q f = (d.relabel q f).abandon := by
  show (d.emit _).close.relabel q f = ((d.relabel q f).emit ((Event.unknownBytes d.acc d.accTs).restamp f)).close
  rw [← Demux.relabel_emit]; rfl

theorem Demux.relabel_complete : d.complete.relabel q f = (d.relabel q f).complete := by
  have hacc : (d.relabel q f).acc = d.acc := rfl
  cases hu : unpack d.acc with
  | ok m p =>
    rw [Demux.complete_of_ok hu, Demux.complete_of_ok (hacc ▸ hu)]
    show _ = ((d.relabel q f).emit ((Event.casicPacket m p d.accTs d.acc).restamp f)).close
    rw [← Demux.relabel_emit]; rfl
  | err e => rw [Demux.complete_of_err hu, Demux.complete_of_err (hacc ▸ hu), Demux.relabel_abandon]

/-- R23, R24, R29: what a byte does is the same whatever is queued and whatever the timestamps are. -/
theorem Demux.relabel_feedByte : (d.feedByte b ts).relabel q f = (d.relabel q f).feedByte b (f ts) := by
  have hps : (d.relabel q f).pstate = d.pstate := rfl
  cases hp : d.pstate <;> rw [hp] at hps
  case idle => rw [Demux.feedByte, Demux.feedByte, hp, hps]; exact d.relabel_idleByte q f b ts
  case sync1 =>
    rw [Demux.feedByte_sync1 b ts hp, Demux.feedByte_sync1 b _ hps, apply_ite (Demux.relabel q f),
      Demux.relabel_idleByte, Demux.relabel_demote]
    rfl
  case sync2 => rw [Demux.feedByte_sync2 b ts hp, Demux.feedByte_sync2 b _ hps]; rfl
  case lenLo =>
    rw [Demux.feedByte_lenLo b ts hp, Demux.feedByte_lenLo b _ hps, apply_ite (Demux.relabel q f),
      Demux.relabel_abandon]
    rfl
  case body =>
    rw [Demux.feedByte_eq_bodyByte b ts hp, Demux.feedByte_eq_bodyByte b _ hps, Demux.bodyByte_eq, Demux.bodyByte_eq,
      apply_ite (Demux.relabel q f), Demux.relabel_complete]
    rfl
  case nmea =>
    rw [Demux.feedByte_nmea b ts hp, Demux.feedByte_nmea b _ hps, apply_ite (Demux.relabel q f),
      apply_ite (Demux.relabel q f), Demux.relabel_abandon]
    show _ = if b = 0x0A then
      (((d.append b).relabel q f).emit ((Event.nmeaSentence (d.acc ++ [b]) d.accTs).restamp f)).close else _
    rw [← Demux.relabel_emit]; rfl

theorem Demux.relabel_feedBytes (c : Bytes) :
    (d.feedBytes c ts).relabel q f = (d.relabel q f).feedBytes c (f ts) := by
  induction c generalizing d with
  | nil => rfl
  | cons b c ih => rw [Demux.feedBytes_cons, Demux.feedBytes_cons, ih, Demux.relabel_feedByte]

theorem Demux.relabel_feed (c : Bytes) : (d.feed c ts).relabel q f = (d.relabel q f).feed c (f ts) := by
  rw [Demux.feed, Demux.feed, ← Demux.relabel_feedBytes]; exact Demux.relabel_flushUnknown q f _

end

/-! ### Runs without their pops -/

/-- One action of a run whose popped events stay queued. -/
def Demux.act (d : Demux) : DemuxAction → Demux
  | .feed c ts => d.feed c ts
  | .pop => d

/-- A run from a fresh parser, its popped events still queued. -/
def unpopped (as : List DemuxAction) : Demux := as.foldl Demux.act Demux.fresh

theorem unpopped_concat (as : List DemuxAction) (a : DemuxAction) : unpopped (as ++ [a]) = (unpopped as).act a := by
  simp [unpopped]

theorem runActions_concat (as : List DemuxAction) (a : DemuxAction) :
    runActions (as ++ [a]) = runAction (runActions as) a := by
  simp [runActions]

theorem fedBytes_append (as bs : List DemuxAction) : fedBytes (as ++ bs) = fedBytes as ++ fedBytes bs :=
  List.flatMap_append

theorem fedBytes_concat_feed (as : List DemuxAction) (c : Bytes) (ts : Time) :
    fedBytes (as ++ [.feed c ts]) = fedBytes as ++ c := by
  simp [fedBytes, DemuxAction.bytes]

theorem fedBytes_concat_pop (as : List DemuxAction) : fedBytes (as ++ [.pop]) = fedBytes as := by
  simp [fedBytes, DemuxAction.bytes]

/-- R29, R181: a pop only takes the head of the queue. -/
theorem Demux.pop_relabel (q : List Event) (d : Demux) :
    d.pop.2.relabel (q ++ d.pop.1.toList) id = d.relabel q id := by
  rw [Demux.relabel_id, Demux.relabel_id]
  cases hq : d.evq with
  | nil => simp [Demux.pop, hq]
  | cons e es => simp [Demux.pop, hq]

/-- R185: what a run popped, put back before what is queued, is the queue of the run without its pops. -/
theorem relabel_runActions (as : List DemuxAction) :
    (runActions as).2.relabel (runActions as).1 id = unpopped as := by
  induction as using List.reverseRecOn with
  | nil => rfl
  | append_singleton as a ih =>
    rw [runActions_concat, unpopped_concat, ← ih]
    cases a with
    | feed c ts => exact Demux.relabel_feed _ id _ ts c
    | pop => exact Demux.pop_relabel _ _

theorem unpopped_eq (as : List DemuxAction) : unpopped as = { (runActions as).2 with evq := allEvents as } := by
  rw [← relabel_runActions, Demux.relabel_id]; rfl

theorem unpopped_inv (as : List DemuxAction) : (unpopped as).Inv := by
  induction as using List.reverseRecOn with
  | nil => exact Demux.inv_of_idle _ rfl rfl nofun
  | append_singleton as a ih =>
    rw [unpopped_concat]
    cases a with
    | feed c ts => exact Demux.feed_inv _ c ts ih
    | pop => exact ih

/-- R179: between the actions of a run no run of unknown bytes is pending. -/
theorem unpopped_unk (as : List DemuxAction) : (unpopped as).unk = [] := by
  induction as using List.reverseRecOn with
  | nil => rfl
  | append_singleton as a ih =>
    rw [unpopped_concat]
    cases a with
    | feed c ts =>
      show (Demux.flushUnknown _).unk = []
      rw [Demux.flushUnknown_eq]
    | pop => exact ih

theorem unpopped_events (as : List DemuxAction) : (unpopped as).events = allEvents as := by
  rw [Demux.events_of_nil (unpopped_unk as), unpopped_eq]

/-! ### Events up to the cutting of runs -/

/-- R185: a run before normalised events. -/
def joinRun (bs : Bytes) : List Event → List Event
  | .unknownBytes cs _ :: es => .unknownBytes (bs ++ cs) 0 :: es
  | es => .unknownBytes bs 0 :: es

theorem normEvents_unknown (bs : Bytes) (ts : Time) (es : List Event) :
    normEvents (.unknownBytes bs ts :: es) = joinRun bs (normEvents es) := by
  rw [normEvents]; rfl

theorem normEvents_known {e : Event} (h : e.isUnknown = false) (es : List Event) :
    normEvents (e :: es) = e.untimed :: normEvents es := by
  cases e with
  | unknownBytes => cases h
  | _ => rfl

theorem joinRun_joinRun (bs cs : Bytes) (es : List Event) : joinRun bs (joinRun cs es) = joinRun (bs ++ cs) es := by
  rcases es with _ | ⟨_ | _ | _, es⟩ <;> simp [joinRun]

theorem Event.untimed_isUnknown (e : Event) : e.untimed.isUnknown = e.isUnknown := by cases e <;> rfl

theorem Event.untimed_untimed (e : Event) : e.untimed.untimed = e.untimed := by cases e <;> rfl

/-- A run before normalised events is one run more. -/
theorem normEvents_joinRun_append (bs : Bytes) (es zs : List Event) :
    normEvents (joinRun bs es ++ zs) = joinRun bs (normEvents (es ++ zs)) := by
  unfold joinRun
  split
  · rw [List.cons_append, normEvents_unknown, List.cons_append, normEvents_unknown, ← joinRun_joinRun]; rfl
  · rw [List.cons_append, normEvents_unknown]; rfl

/-- R185: what stands before other events may be normalised first. -/
theorem normEvents_normEvents_append (xs zs : List Event) : normEvents (normEvents xs ++ zs) = normEvents (xs ++ zs) := by
  induction xs with
  | nil => rfl
  | cons e xs ih =>
    cases he : e.isUnknown with
    | true =>
      obtain ⟨bs, ts, rfl⟩ : ∃ bs ts, e = .unknownBytes bs ts := by
        cases e with
        | unknownBytes bs ts => exact ⟨bs, ts, rfl⟩
        | _ => cases he
      rw [normEvents_unknown, normEvents_joinRun_append, ih, List.cons_append, normEvents_unknown]
    | false =>
      rw [normEvents_known he, List.cons_append, List.cons_append, normEvents_known he,
        normEvents_known (by rw [Event.untimed_isUnknown, he]), Event.untimed_untimed, ih]

theorem normEvents_append_left {xs ys : List Event} (h : normEvents xs = normEvents ys) (zs : List Event) :
    normEvents (xs ++ zs) = normEvents (ys ++ zs) := by
  rw [← normEvents_normEvents_append, h, normEvents_normEvents_append]

theorem normEvents_append_right (xs : List Event) {ys zs : List Event} (h : normEvents ys = normEvents zs) :
    normEvents (xs ++ ys) = normEvents (xs ++ zs) := by
  induction xs with
  | nil => exact h
  | cons e xs ih => cases e <;> simp only [List.cons_append, normEvents, ih]

/-- R185: timestamps do not count. -/
theorem normEvents_map_untimed (es : List Event) : normEvents (es.map Event.untimed) = normEvents es := by
  induction es with
  | nil => rfl
  | cons e es ih => cases e <;> simp only [List.map_cons, Event.untimed, normEvents, ih]

/-- R178, R185: one run, or the same bytes as two. -/
theorem normEvents_split_run (bs cs : Bytes) (t u v : Time) :
    normEvents [.unknownBytes (bs ++ cs) t] = normEvents [.unknownBytes bs u, .unknownBytes cs v] := rfl

/-- R185 (b): the packets and sentences of normalised events. -/
theorem filter_normEvents (es : List Event) :
    (normEvents es).filter (fun e => !e.isUnknown) = (es.filter fun e => !e.isUnknown).map Event.untimed := by
  have hjoin : ∀ bs xs, (joinRun bs xs).filter (fun e => !e.isUnknown) = xs.filter fun e => !e.isUnknown := by
    intro bs xs
    unfold joinRun
    split <;> simp [Event.isUnknown]
  induction es with
  | nil => rfl
  | cons e es ih =>
    cases e with
    | unknownBytes bs ts => rw [normEvents_unknown, hjoin, ih]; rfl
    | casicPacket m p ts raw => rw [normEvents_known rfl, List.filter_cons_of_pos rfl, ih]; rfl
    | nmeaSentence bs ts => rw [normEvents_known rfl, List.filter_cons_of_pos rfl, ih]; rfl

/-! ### An early end of a chunk only cuts the pending run -/

/-- R183, R185 (c): what the sequencer goes by: the parser without its queue, its run and its timestamps. -/
def Demux.bare (d : Demux) : Demux := { d with evq := [], unk := [], accTs := 0, unkTs := 0 }

theorem Demux.bare_flushUnknown (d : Demux) : d.flushUnknown.bare = d.bare := by rw [Demux.flushUnknown_eq]; rfl

theorem Demux.bare_relabel (q : List Event) (f : Time → Time) (d : Demux) :
    (d.relabel q f).bare = d.bare := rfl

/-- A parser after `FEED_END`, its timestamps deleted, is the bare parser behind the events. -/
theorem Demux.relabel_bare (d : Demux) :
    d.bare.relabel (d.events.map Event.untimed) (fun _ => 0) = d.flushUnknown.relabel [] fun _ => 0 := by
  have huntimed : Event.untimed = Event.restamp fun _ => 0 := funext fun e => e.restamp_zero.symm
  rw [Demux.flushUnknown_eq, huntimed]
  simp [Demux.relabel, Demux.bare, Demux.events]

/-- R178: a byte after an early `FEED_END`. -/
theorem Demux.feedByte_flushUnknown {d : Demux} (h : d.Inv) (b : Byte) (ts : Time) :
    (d.flushUnknown.feedByte b ts).bare = (d.feedByte b ts).bare ∧
    normEvents (d.flushUnknown.feedByte b ts).events = normEvents (d.feedByte b ts).events := by
  by_cases hu : d.unk = []
  · rw [Demux.flushUnknown_of_nil hu]; exact ⟨rfl, rfl⟩
  have hp : d.pstate = .idle := h.2.1 hu
  have hfp : d.flushUnknown.pstate = .idle := by rw [Demux.flushUnknown_eq]; exact hp
  have hff : d.flushUnknown.flushUnknown = d.flushUnknown :=
    Demux.flushUnknown_of_nil (by rw [Demux.flushUnknown_eq])
  have hstart : ∀ p, d.flushUnknown.start p b ts = d.start p b ts := fun p => by rw [Demux.start, hff, Demux.start]
  have hbyte : d.feedByte b ts = d.idleByte b ts := by rw [Demux.feedByte, hp]
  have hfbyte : d.flushUnknown.feedByte b ts = d.flushUnknown.idleByte b ts := by rw [Demux.feedByte, hfp]
  rw [hbyte, hfbyte, Demux.idleByte_eq, Demux.idleByte_eq, hstart, hstart]
  split; · exact ⟨rfl, rfl⟩
  split; · exact ⟨rfl, rfl⟩
  refine ⟨by rw [Demux.flushUnknown_eq]; rfl, ?_⟩
  rw [Demux.events_of_run (by simp), Demux.events_of_run (by simp)]
  simp only [Demux.addUnknown_evq, Demux.addUnknown_unk, Demux.flushUnknown_eq, Demux.pendingRun, if_neg hu,
    List.append_assoc]
  exact (normEvents_append_right d.evq (normEvents_split_run d.unk [b] _ _ _)).symm

/-- R185: what a byte does to the sequencer and to the events, up to timestamps and the cutting of runs, is what it does
in the bare parser. -/
theorem Demux.feedByte_bare {d : Demux} (h : d.Inv) (b : Byte) (ts : Time) :
    (d.feedByte b ts).bare = (d.bare.feedByte b 0).bare ∧
    normEvents (d.feedByte b ts).events = normEvents (d.events ++ (d.bare.feedByte b 0).events) := by
  have huntimed : (Event.restamp fun _ => 0) = Event.untimed := funext Event.restamp_zero
  have hrelabel : (d.flushUnknown.feedByte b ts).relabel [] (fun _ => 0)
      = (d.bare.feedByte b 0).relabel (d.events.map Event.untimed) fun _ => 0 := by
    rw [Demux.relabel_feedByte, ← Demux.relabel_bare, ← Demux.relabel_feedByte]
  obtain ⟨hbare, hevents⟩ := Demux.feedByte_flushUnknown h b ts
  refine ⟨by rw [← hbare, ← Demux.bare_relabel [] fun _ => 0, hrelabel, Demux.bare_relabel], ?_⟩
  have heq := congrArg Demux.events hrelabel
  rw [Demux.relabel_events, Demux.relabel_events, huntimed, List.nil_append, ← List.map_append] at heq
  rw [← hevents, ← normEvents_map_untimed, heq, normEvents_map_untimed]

/-- R185 (a), (c): two parsers that a stream has brought to the same place: the same sequencer, and the same events up to
timestamps and the cutting of runs. -/
structure Demux.SameStream (d e : Demux) : Prop where
  bare : d.bare = e.bare
  events : normEvents d.events = normEvents e.events

theorem Demux.SameStream.feedByte {d e : Demux} (h : d.SameStream e) (hd : d.Inv) (he : e.Inv) (b : Byte) (ts u : Time) :
    (d.feedByte b ts).SameStream (e.feedByte b u) := by
  obtain ⟨hdb, hde⟩ := Demux.feedByte_bare hd b ts
  obtain ⟨heb, hee⟩ := Demux.feedByte_bare he b u
  refine ⟨by rw [hdb, heb, h.bare], ?_⟩
  rw [hde, hee, h.bare]
  exact normEvents_append_left h.events _

theorem Demux.SameStream.feedBytes {d e : Demux} (h : d.SameStream e) (hd : d.Inv) (he : e.Inv) (c : Bytes)
    (ts u : Time) : (d.feedBytes c ts).SameStream (e.feedBytes c u) := by
  induction c generalizing d e with
  | nil => exact h
  | cons b c ih => exact ih (h.feedByte hd he b ts u) (Demux.feedByte_inv d b ts hd) (Demux.feedByte_inv e b u he)

theorem Demux.flushUnknown_events (d : Demux) : d.flushUnknown.events = d.events := by
  rw [Demux.flushUnknown_eq]; simp [Demux.events, Demux.pendingRun]

/-- R179: the end of a chunk moves the run to the queue, where the events already count it. -/
theorem Demux.SameStream.feed_left {d e : Demux} (h : d.SameStream e) (hd : d.Inv) (he : e.Inv) (c : Bytes)
    (ts u : Time) : (d.feed c ts).SameStream (e.feedBytes c u) := by
  obtain ⟨hbare, hevents⟩ := h.feedBytes hd he c ts u
  exact ⟨(Demux.bare_flushUnknown _).trans hbare, (congrArg normEvents (Demux.flushUnknown_events _)).trans hevents⟩

/-- R185: a run is where its bytes, fed as one chunk, bring the parser. -/
theorem unpopped_sameStream (as : List DemuxAction) :
    (unpopped as).SameStream (Demux.fresh.feedBytes (fedBytes as) 0) := by
  induction as using List.reverseRecOn with
  | nil => exact ⟨rfl, rfl⟩
  | append_singleton as a ih =>
    rw [unpopped_concat]
    cases a with
    | feed c ts =>
      rw [fedBytes_concat_feed, Demux.feedBytes_append]
      exact ih.feed_left (unpopped_inv as) (Demux.feedBytes_inv _ _ _ (unpopped_inv [])) c ts 0
    | pop => rw [fedBytes_concat_pop]; exact ih

/-- R185: two runs of the same bytes. -/
theorem unpopped_sameStream_of_fedBytes {as bs : List DemuxAction} (h : fedBytes as = fedBytes bs) :
    (unpopped as).SameStream (unpopped bs) := by
  obtain ⟨habare, haev⟩ := unpopped_sameStream as
  obtain ⟨hbbare, hbev⟩ := unpopped_sameStream bs
  rw [h] at habare haev
  exact ⟨habare.trans hbbare.symm, haev.trans hbev.symm⟩

/-- Settles O31: both runs are where their bytes bring the parser; packets and sentences are read off the normalised
events, and the sequencer's elements off the bare parser. -/
theorem chunkingDoesNotMatter : Obligations.ChunkingDoesNotMatter := by
  unfold Obligations.ChunkingDoesNotMatter
  intro as bs h
  obtain ⟨hbare, hevents⟩ := unpopped_sameStream_of_fedBytes h
  rw [unpopped_events, unpopped_events] at hevents
  rw [unpopped_eq, unpopped_eq] at hbare
  simp only [Demux.bare, Demux.mk.injEq] at hbare
  obtain ⟨hpstate, hlenLo, hremaining, hacc, -⟩ := hbare
  refine ⟨hevents, ?_, hpstate, hacc, fun _ => hlenLo, fun _ => hremaining⟩
  rw [← filter_normEvents, ← filter_normEvents, hevents]

/-! ### Clean cuts -/

/-- Bytes fed one by one, each with its own timestamp and without a `FEED_END`. -/
def Demux.feedStamped (d : Demux) (l : List (Byte × Time)) : Demux := l.foldl (fun d x => d.feedByte x.1 x.2) d

/-- The bytes of an action with its timestamp. -/
def DemuxAction.stamped : DemuxAction → List (Byte × Time)
  | .feed c ts => c.map (·, ts)
  | .pop => []

/-- The bytes a run feeds, each with the timestamp of its chunk. -/
def stampedBytes (as : List DemuxAction) : List (Byte × Time) := as.flatMap DemuxAction.stamped

theorem Demux.feedStamped_append (d : Demux) (l l' : List (Byte × Time)) :
    d.feedStamped (l ++ l') = (d.feedStamped l).feedStamped l' := List.foldl_append

/-- R180: a chunk is its bytes with its timestamp. -/
theorem Demux.feedStamped_chunk (d : Demux) (c : Bytes) (ts : Time) :
    d.feedStamped (c.map (·, ts)) = d.feedBytes c ts := List.foldl_map

theorem stampedBytes_concat (as : List DemuxAction) (a : DemuxAction) :
    stampedBytes (as ++ [a]) = stampedBytes as ++ a.stamped := by
  simp [stampedBytes]

theorem stamped_fst (a : DemuxAction) : a.stamped.map Prod.fst = a.bytes := by
  cases a with
  | feed c ts => simp [DemuxAction.stamped, DemuxAction.bytes, Function.comp_def]
  | pop => rfl

theorem stampedBytes_fst (as : List DemuxAction) : (stampedBytes as).map Prod.fst = fedBytes as := by
  rw [stampedBytes, List.map_flatMap, fedBytes, funext stamped_fst]

/-- R185 (e): with one timestamp throughout. -/
theorem stampedBytes_of_oneTime {ts : Time} {as : List DemuxAction} (h : oneTime ts as) :
    stampedBytes as = (fedBytes as).map (·, ts) := by
  have hone : ∀ a ∈ as, a.stamped = a.bytes.map (·, ts) := by
    intro a ha
    cases a with
    | feed c t => rw [DemuxAction.stamped, h c t ha]; rfl
    | pop => rfl
  rw [stampedBytes, fedBytes, List.map_flatMap, List.flatMap_congr hone]

/-- R182: timestamps only stamp. -/
theorem Demux.relabel_feedStamped (d : Demux) (l : List (Byte × Time)) :
    (d.feedStamped l).relabel [] (fun _ => 0) = (d.relabel [] fun _ => 0).feedBytes (l.map Prod.fst) 0 := by
  induction l generalizing d with
  | nil => rfl
  | cons x l ih =>
    rw [List.map_cons, Demux.feedBytes_cons, ← Demux.relabel_feedByte (ts := x.2)]
    exact ih (d.feedByte x.1 x.2)

theorem feedBytes_relabel_unk (q : List Event) (d : Demux) (c : Bytes) (ts : Time) :
    ((d.relabel q id).feedBytes c ts).unk = (d.feedBytes c ts).unk :=
  (congrArg Demux.unk (Demux.relabel_feedBytes q id d ts c)).symm

/-- R185 (d): a clean cut finds no pending run in the run without its pops either. -/
theorem cleanCuts.unk_nil {as rest : List DemuxAction} {c : Bytes} {ts : Time}
    (h : cleanCuts (as ++ .feed c ts :: rest)) (hrest : fedBytes rest ≠ []) :
    ((unpopped as).feedBytes c ts).unk = [] := by
  rw [← relabel_runActions, feedBytes_relabel_unk]
  exact h as c ts rest rfl hrest

/-- R185 (d): up to a clean cut that more bytes follow, the ends of the chunks did nothing. -/
theorem unpopped_of_cleanCuts {as rest : List DemuxAction} (h : cleanCuts (as ++ rest)) (hrest : fedBytes rest ≠ []) :
    unpopped as = Demux.fresh.feedStamped (stampedBytes as) := by
  induction as using List.reverseRecOn generalizing rest with
  | nil => rfl
  | append_singleton as a ih =>
    rw [List.append_assoc, List.singleton_append] at h
    have hmore : fedBytes (a :: rest) ≠ [] := fun hnil => hrest (List.append_eq_nil_iff.1 hnil).2
    rw [unpopped_concat, stampedBytes_concat, Demux.feedStamped_append, ← ih h hmore]
    cases a with
    | feed c ts =>
      rw [DemuxAction.stamped, Demux.feedStamped_chunk]
      exact Demux.feed_of_unk_nil (h.unk_nil hrest)
    | pop => rfl

theorem cleanCuts.of_concat {as : List DemuxAction} {a : DemuxAction} (h : cleanCuts (as ++ [a])) : cleanCuts as := by
  intro pre c ts post heq hpost
  refine h pre c ts (post ++ [a]) (by rw [heq]; simp) ?_
  rw [fedBytes_append]
  exact fun hnil => hpost (List.append_eq_nil_iff.1 hnil).1

/-- R185 (d), (e): a run with clean cuts is one chunk of its stamped bytes. -/
theorem allEvents_of_cleanCuts {as : List DemuxAction} (h : cleanCuts as) :
    allEvents as = (Demux.fresh.feedStamped (stampedBytes as)).events := by
  rw [← unpopped_events]
  induction as using List.reverseRecOn with
  | nil => rfl
  | append_singleton as a ih =>
    rw [unpopped_concat, stampedBytes_concat, Demux.feedStamped_append]
    cases a with
    | pop => exact ih h.of_concat
    | feed c ts =>
      rw [DemuxAction.stamped, Demux.feedStamped_chunk]
      show (Demux.flushUnknown _).events = _
      rw [Demux.flushUnknown_events]
      by_cases hc : c = []
      · subst hc; exact ih h.of_concat
      · rw [unpopped_of_cleanCuts h (by simpa [fedBytes, DemuxAction.bytes] using hc)]

/-- R185 (d): the events of a run with clean cuts, timestamps deleted, are those of its bytes. -/
theorem untimed_allEvents_of_cleanCuts {as : List DemuxAction} (h : cleanCuts as) :
    (allEvents as).map Event.untimed = (Demux.fresh.feedBytes (fedBytes as) 0).events := by
  have huntimed : Event.untimed = Event.restamp fun _ => 0 := funext fun e => e.restamp_zero.symm
  have hevents := Demux.relabel_events [] (fun _ => 0) (Demux.fresh.feedStamped (stampedBytes as))
  rw [Demux.relabel_feedStamped, stampedBytes_fst, List.nil_append] at hevents
  rw [allEvents_of_cleanCuts h, huntimed, ← hevents]; rfl

/-- Settles O32: with clean cuts the events are those of the stamped bytes, of which the timestamps only stamp. -/
theorem cleanChunkingIsExact : Obligations.CleanChunkingIsExact := by
  unfold Obligations.CleanChunkingIsExact
  intro as bs h ha hb
  refine ⟨?_, fun ts hat hbt => ?_⟩
  · rw [untimed_allEvents_of_cleanCuts ha, untimed_allEvents_of_cleanCuts hb, h]
  · rw [allEvents_of_cleanCuts ha, allEvents_of_cleanCuts hb, stampedBytes_of_oneTime hat, stampedBytes_of_oneTime hbt, h]

end Sys2Proof.Machine
end

section
/-! PROOFS. What the statements about `ARBITER` share: the clock as a function of the environment, a wait that reads
next, and that no action looks at the ports; with it the step itself (O4) and a command that is held (O45). -/

namespace Sys2Proof.Machine

/-! ### The clock -/

/-- R46: the value `Now()` returns. -/
def Env.nextNow (e : Env) : Time :=
  match e.clock with
  | [] => e.now
  | v :: _ => if v < e.now then e.now else v

/-- R46: the environment once `Now()` has been read. -/
def Env.afterNow (e : Env) : Env := { e with now := e.nextNow, clock := e.clock.tail }

/-- R13: `Now()` is a change of the clock alone. -/
theorem State.readNow_eq (s : State) : s.readNow = (s.env.nextNow, { s with env := s.env.afterNow }) := by
  obtain ⟨_, _, _, ⟨_, clock, _, _, _, _⟩, _, _⟩ := s
  cases clock <;> rfl

/-- R46: `Now()` never goes back. -/
theorem Env.nextNow_mono (e : Env) : e.now.toNat ≤ e.nextNow.toNat := by
  have h := State.readNow_mono { State.reset with env := e }
  rw [State.readNow_eq] at h
  exact h

theorem Env.nextNow_cons {e : Env} {v : Time} {vs : List Time} (h : e.clock = v :: vs) (hv : e.now ≤ v) :
    e.nextNow = v := by
  simp only [Env.nextNow, h, if_neg (BitVec.not_lt.2 hv)]

/-- R224, R231: the state in which a wait starts, its deadline armed. -/
def State.waiting (s : State) : State :=
  { s.armDeadline with arb := { s.armDeadline.arb with astate := .wait, inRead := false } }

theorem State.startWait_waiting (s : State) : s.startWait = State.waitLoop s.waiting.env.reads s.waiting := rfl

/-! ### A wait whose next action is a read -/

section
variable {s t : State} (h : s.beforeRead = (false, t)) (ds : List ReadDraw)
include h

theorem State.waitLoop_nil : State.waitLoop [] s = t.readReturns [] t.params.readMax := by simp only [State.waitLoop, h]

theorem State.waitLoop_got (n : Nat) : State.waitLoop (.got n :: ds) s = State.waitLoop ds (t.readReturns ds n) := by
  simp only [State.waitLoop, h]

theorem State.waitLoop_fail :
    State.waitLoop (.fail :: ds) s = { t with env := { t.env with reads := ds } }.transportError := by
  simp only [State.waitLoop, h]

theorem State.waitLoop_pause : State.waitLoop (.pause :: ds) s
    = { t with env := { t.env with reads := ds }, arb := { t.arb with inRead := true } } := by
  simp only [State.waitLoop, h]

end

/-! ### What stands at the ports -/

/-- The state with other transfers presented. -/
def State.withPorts (s : State) (qs : List PortInput) : State := { s with ports := qs }

def TxOutcome.withPorts (qs : List PortInput) : TxOutcome → TxOutcome
  | .done s => .done (s.withPorts qs)
  | .blocked s => .blocked (s.withPorts qs)
  | .failed s => .failed (s.withPorts qs)

section
variable (s : State) (qs : List PortInput)

theorem State.withPorts_readNow : (s.withPorts qs).readNow = (s.readNow.1, s.readNow.2.withPorts qs) := by
  simp only [State.readNow_eq]; rfl

theorem State.withPorts_popAndLog (e : Event) (d : Demux) :
    (s.withPorts qs).popAndLog e d = (s.popAndLog e d).withPorts qs := by
  simp only [State.popAndLog_eq]; rfl

theorem State.withPorts_drain (n : Nat) : (s.withPorts qs).drain n = ((s.drain n).1, (s.drain n).2.withPorts qs) := by
  induction n generalizing s with
  | zero => rfl
  | succ n ih =>
    have hd : (s.withPorts qs).demux = s.demux := rfl
    have ha : (s.withPorts qs).arb = s.arb := rfl
    simp only [State.drain, hd, ha]
    split
    · rfl
    · split
      · rw [State.withPorts_popAndLog]; rfl
      · rw [State.withPorts_popAndLog]; exact ih _

theorem State.withPorts_beforeRead :
    (s.withPorts qs).beforeRead = (s.beforeRead.1, s.beforeRead.2.withPorts qs) := by
  have hd : (s.withPorts qs).demux = s.demux := rfl
  have ha : (s.withPorts qs).arb = s.arb := rfl
  simp only [State.beforeRead, hd, ha, State.withPorts_drain]
  split
  · rfl
  · rcases s.drain s.demux.evq.length with ⟨_ | _, t⟩
    · simp only [State.withPorts_readNow]
      show (if t.readNow.2.arb.deadline ≤ t.readNow.1.toNat then _ else _) = _
      split <;> rfl
    · rfl

theorem State.withPorts_readReturns (ds : List ReadDraw) (n : Nat) :
    (s.withPorts qs).readReturns ds n = (s.readReturns ds n).withPorts qs := by
  simp only [State.readReturns, State.readAndFeed, State.readNow_eq]; rfl

/-- R224: a wait does not look at what is presented. -/
theorem State.withPorts_waitLoop (ds : List ReadDraw) :
    State.waitLoop ds (s.withPorts qs) = (State.waitLoop ds s).withPorts qs := by
  have before : ∀ {s t : State} {b}, s.beforeRead = (b, t) → (s.withPorts qs).beforeRead = (b, t.withPorts qs) :=
    fun {s t b} hb => by rw [State.withPorts_beforeRead, hb]
  have hrun := State.waitLoop_run ds s
  generalize State.waitLoop ds s = u at hrun
  induction hrun with
  | ended hb => exact State.waitLoop_done _ _ _ (before hb)
  | lastRead hb => rw [State.waitLoop_nil (before hb)]; exact State.withPorts_readReturns _ qs _ _
  | failed hb => exact State.waitLoop_fail (before hb) _
  | paused hb => exact State.waitLoop_pause (before hb) _
  | again hb _ ih => rw [State.waitLoop_got (before hb), State.withPorts_readReturns]; exact ih

theorem State.withPorts_waiting : (s.withPorts qs).waiting = s.waiting.withPorts qs := by
  simp only [State.waiting, State.armDeadline, State.readNow_eq]; rfl

theorem State.withPorts_startWait : (s.withPorts qs).startWait = s.startWait.withPorts qs := by
  simp only [State.startWait_waiting, State.withPorts_waiting]
  exact State.withPorts_waitLoop _ qs _

theorem State.withPorts_afterSend : (s.withPorts qs).afterSend = s.afterSend.withPorts qs := by
  unfold State.afterSend
  show (if s.arb.op = opSendAndWaitAck ∨ s.arb.op = opPoll then _ else _) = _
  split
  · exact s.withPorts_startWait qs
  · rfl

theorem State.withPorts_logSent : (s.withPorts qs).logSent = s.logSent.withPorts qs := by
  simp only [State.logSent, State.withPorts_readNow]; rfl

theorem State.withPorts_portWrite : (s.withPorts qs).portWrite = s.portWrite.withPorts qs := by
  obtain ⟨_, _, _, ⟨_, _, _, _, ws, _⟩, _, _⟩ := s
  rcases ws with _ | ⟨_ | _ | _, ws⟩ <;> simp only [State.portWrite, apply_ite (TxOutcome.withPorts qs)] <;> rfl

theorem State.withPorts_portFlush : (s.withPorts qs).portFlush = s.portFlush.withPorts qs := by
  obtain ⟨_, _, _, ⟨_, _, _, _, ws, _⟩, _, _⟩ := s
  rcases ws with _ | ⟨_ | _ | _, ws⟩ <;> rfl
/-- R223: a transmission does not look at what is presented. -/
theorem State.withPorts_transmit : (s.withPorts qs).transmit = s.transmit.withPorts qs := by
  unfold State.transmit
  rw [State.withPorts_portWrite]
  rcases s.portWrite with s1 | s1 | s1
  · simp only [TxOutcome.withPorts, State.withPorts_portFlush]
    rcases s1.portFlush with s2 | s2 | s2
    · simp only [State.withPorts_logSent, State.withPorts_afterSend]
    · rfl
    · rfl
  · rfl
  · rfl

/-- R224: what is in progress goes on as it does whatever is presented. -/
theorem State.withPorts_goOn : (s.withPorts qs).goOn = s.goOn.withPorts qs := by
  have ha : (s.withPorts qs).arb = s.arb := rfl
  simp only [State.goOn, ha]
  split
  · rfl
  · rfl
  · exact s.withPorts_transmit qs
  · exact s.withPorts_waitLoop qs _
end

theorem step_of_no_ports {s : State} (h : s.ports = []) : step s = .next s.goOn := by
  simp only [step, h]

/-- Settles O4: by the step's three cases, and the ports that no action of the arbiter looks at. -/
theorem stepRunsTheDecodedInstruction : Obligations.StepRunsTheDecodedInstruction := by
  unfold Obligations.StepRunsTheDecodedInstruction
  refine ⟨fun s f bs ps i hp hd => ?_, fun s => step_of_no_ports, State.withPorts_goOn, fun s => State.goOn_rest⟩
  simp only [step, hp, hd]

/-- R221: a command presented while one is in progress is held. -/
theorem exec_command_busy {i : Instr} {s : State} (hi : formatOf i = .cmd)
    (hs : s.arb.astate = .tx ∨ s.arb.astate = .wait) : exec i s = .next (s.hold i) := by
  have hheld : ∀ run, s.accept i run = .next (s.hold i) := fun run => by
    rcases hs with hs | hs <;> simp only [State.accept, hs]
  cases i <;> simp only [formatOf, reduceCtorEq] at hi <;> exact hheld _

/-- Settles O45: the held command is put back by `requeue`, whose two cases say what is taken next. -/
theorem commandIsHeldWhileBusy : Obligations.CommandIsHeldWhileBusy := by
  unfold Obligations.CommandIsHeldWhileBusy
  intro i s hi hs
  have hx : (PortInput.xact .cmd (encode i)).isCmd = true := rfl
  refine ⟨requeue (.xact .cmd (encode i)) s.ports, ?_, ?_⟩
  · rw [exec_command_busy hi hs, State.hold, hi]
    exact congrArg _ (s.withPorts_goOn _)
  · rcases requeue_cases (.xact .cmd (encode i)) s.ports with ⟨hall, he⟩ | ⟨cs, p, qs, hps, hcs, hp, he⟩
    · rw [he]
      refine ⟨by simp [hx], by simp [hx], fun x hf => ?_⟩
      have hn : s.ports.find? (fun y => !y.isCmd) = none := by simpa using hall
      simp [hn] at hf
    · have hn : cs.find? (fun y => !y.isCmd) = none := by simpa using hcs
      have hf : cs.filter (fun y => !y.isCmd) = [] := by simpa using hcs
      rw [he, hps]
      exact ⟨by simp [hx, hp], by simp [hx, hp, hf], fun x => by simp [hn, hp]⟩

end Sys2Proof.Machine
end

section
/-! PROOFS. What a command answers from the queue (O33, O35 to O38): `Classify` in the terms of the statements, a wait
with and without an answer queued, and a transmission that the transport takes. -/

namespace Sys2Proof.Machine

/-! ### The states the statements name -/

section
variable (s : State) (popped rest : List Event) (d : Descriptor) (op : BitVec 3) (ws : List WriteDraw)

@[simp] theorem State.popAll_params : (s.popAll popped rest).params = s.params := rfl
@[simp] theorem State.popAll_demux : (s.popAll popped rest).demux = { s.demux with evq := rest } := rfl
@[simp] theorem State.popAll_arb : (s.popAll popped rest).arb
    = { s.arb with seenValid := s.arb.seenValid || popped.any Event.isPacket } := rfl
@[simp] theorem State.popAll_env : (s.popAll popped rest).env = s.env := rfl
@[simp] theorem State.popAll_ports : (s.popAll popped rest).ports = s.ports := rfl
@[simp] theorem State.popAll_tx : (s.popAll popped rest).out.tx = s.out.tx := rfl
@[simp] theorem State.popAll_rsp : (s.popAll popped rest).out.rsp = s.out.rsp := rfl

@[simp] theorem State.armedReceive_params : (s.armedReceive d op).params = s.params := s.readNow_params
@[simp] theorem State.armedReceive_demux : (s.armedReceive d op).demux = s.demux := s.readNow_demux
@[simp] theorem State.armedReceive_rx : (s.armedReceive d op).env.rx = s.env.rx := s.readNow_rx
@[simp] theorem State.armedReceive_reads : (s.armedReceive d op).env.reads = s.env.reads := s.readNow_reads
@[simp] theorem State.armedReceive_out : (s.armedReceive d op).out = s.out := s.readNow_out

@[simp] theorem State.armedWait_demux : (s.armedWait d op ws).demux = s.demux := by simp [State.armedWait]
@[simp] theorem State.armedWait_rx : (s.armedWait d op ws).env.rx = s.env.rx := by simp [State.armedWait]
@[simp] theorem State.armedWait_reads : (s.armedWait d op ws).env.reads = s.env.reads := by simp [State.armedWait]
@[simp] theorem State.armedWait_writes : (s.armedWait d op ws).env.writes = ws := by simp [State.armedWait]
@[simp] theorem State.armedWait_tx : (s.armedWait d op ws).out.tx
    = s.out.tx ++ (pack d.cls d.id d.payload).map .byte ++ [.flush] := rfl
@[simp] theorem State.armedWait_rsp : (s.armedWait d op ws).out.rsp = s.out.rsp := rfl

end

/-! ### `Classify` -/

section
variable {a : Arbiter} {e : Event}

/-- R226: `EchoMatch` compares the first two payload bytes. -/
theorem echoMatch_iff (p : Bytes) : echoMatch a p = true ↔ ∃ rest, p = a.pendClass :: a.pendId :: rest := by
  match p with
  | [] => simp [echoMatch]
  | [_] => simp [echoMatch]
  | x :: y :: rest => simp [echoMatch, byteAt_cons_zero, byteAt_cons_succ]

/-- R226, R100: an acknowledgement that echoes the request, as `Classify` finds it. -/
theorem isEcho_iff {ackId : Byte} {m : MsgId} {p : Bytes} {ts : Time} {raw : Bytes} :
    IsEcho ackId a.pendClass a.pendId (.casicPacket m p ts raw) ↔ m = ⟨0x05, ackId⟩ ∧ echoMatch a p = true := by
  rw [echoMatch_iff]
  constructor
  · rintro ⟨rest, _, _, he⟩
    cases he
    exact ⟨rfl, rest, rfl⟩
  · rintro ⟨rfl, rest, rfl⟩
    exact ⟨rest, ts, raw, rfl⟩

theorem classify_receivePacket (ho : a.op = 2) (e : Event) : classify a e = some (eventResult e) := if_pos ho

/-- R228: only a packet answers a `RECEIVE`. -/
theorem classify_receive (ho : a.op = 3) (e : Event) : classify a e = classifyReceive e := by
  simp [classify, ho, opReceivePacket, opReceive]

theorem classify_receive_none (ho : a.op = 3) (h : e.isPacket = false) : classify a e = none := by
  rw [classify_receive ho]
  cases e with
  | casicPacket => cases h
  | nmeaSentence => rfl
  | unknownBytes => rfl

theorem classify_ack (ho : a.op = 4) (e : Event) : classify a e = classifyAck a e := by
  simp [classify, ho, opReceivePacket, opReceive, opSendAndWaitAck]

theorem classify_poll (ho : a.op = 5) (e : Event) : classify a e = classifyPoll a e := by
  simp [classify, ho, opReceivePacket, opReceive, opSendAndWaitAck, opPoll]

/-- R229: the events `SEND_AND_WAIT_ACK` discards. -/
theorem classify_ack_none (ho : a.op = 4)
    (h : ¬ IsEcho 1 a.pendClass a.pendId e ∧ ¬ IsEcho 0 a.pendClass a.pendId e) : classify a e = none := by
  rw [classify_ack ho]
  cases e with
  | casicPacket m p ts raw => rw [isEcho_iff, isEcho_iff] at h; exact (if_neg h.1).trans (if_neg h.2)
  | nmeaSentence => rfl
  | unknownBytes => rfl

/-- R230: the events `POLL` discards. -/
theorem classify_poll_none (ho : a.op = 5) (h : ¬ IsEcho 0 a.pendClass a.pendId e ∧
    ∀ p ts raw, e ≠ .casicPacket ⟨a.pendClass, a.pendId⟩ p ts raw) : classify a e = none := by
  rw [classify_poll ho]
  cases e with
  | casicPacket m p ts raw =>
    rw [isEcho_iff] at h
    exact (if_neg h.1).trans (if_neg fun hm => h.2 p ts raw (by rw [hm]))
  | nmeaSentence => rfl
  | unknownBytes => rfl

/-- R229: an echoing `ACK-ACK` answers `SEND_AND_WAIT_ACK`. -/
theorem classify_echoAck (ho : a.op = 4) (h : IsEcho 1 a.pendClass a.pendId e) : classify a e = some okResult := by
  rw [classify_ack ho]
  obtain ⟨rest, ts, raw, rfl⟩ := h
  exact if_pos ⟨rfl, (echoMatch_iff _).2 ⟨rest, rfl⟩⟩

/-- R229, R230: an echoing `ACK-NAK` answers both commands. -/
theorem classify_echoNak (ho : a.op = 4 ∨ a.op = 5) (h : IsEcho 0 a.pendClass a.pendId e) :
    classify a e = some nakResult := by
  obtain ⟨rest, ts, raw, rfl⟩ := h
  have hm : echoMatch a (a.pendClass :: a.pendId :: rest) = true := (echoMatch_iff _).2 ⟨rest, rfl⟩
  rcases ho with ho | ho
  · rw [classify_ack ho]
    have hack : (⟨0x05, 0⟩ : MsgId) ≠ .ackAck := by decide
    simp only [classifyAck]
    rw [if_neg fun h => hack h.1, if_pos ⟨rfl, hm⟩]
  · rw [classify_poll ho]
    exact if_pos ⟨rfl, hm⟩

/-- R230: a packet of the polled identifier that is no echoing NAK is the reply. -/
theorem classify_reply {p : Bytes} {ts : Time} {raw : Bytes} (ho : a.op = 5)
    (h : ¬ IsEcho 0 a.pendClass a.pendId (.casicPacket ⟨a.pendClass, a.pendId⟩ p ts raw)) :
    classify a (.casicPacket ⟨a.pendClass, a.pendId⟩ p ts raw)
      = some (replyResult ⟨a.pendClass, a.pendId⟩ p ts) := by
  rw [classify_poll ho]
  rw [isEcho_iff] at h
  exact (if_neg h).trans (if_pos rfl)

end

/-! ### A wait and its queue -/

/-- W1 of R224: a wait with an answer queued ends with it. -/
theorem State.goOn_answer {s : State} {pre es : List Event} {e : Event} {r : Result} (hs : s.arb.astate = .wait)
    (hr : s.arb.inRead = false) (hq : s.demux.evq = pre ++ e :: es) (hc : ∀ x ∈ pre, classify s.arb x = none)
    (he : classify s.arb e = some r) : s.goOn = s.waitEnds (pre ++ [e]) es r := by
  rw [State.goOn_wait hs]
  exact State.waitLoop_done _ s _ (s.beforeRead_answer pre es e r hr hq hc he)

theorem State.popAll_empty {s : State} (hq : s.demux.evq = []) : s.popAll [] [] = s := by
  have h := s.popAll_nil
  rwa [hq] at h

/-- W1 of R224: a wait with no answer queued goes on as one whose queue is popped and logged already. -/
theorem State.goOn_discard {s : State} (hs : s.arb.astate = .wait) (hr : s.arb.inRead = false)
    (hc : ∀ x ∈ s.demux.evq, classify s.arb x = none) : s.goOn = (s.popAll s.demux.evq []).goOn := by
  have hb : s.beforeRead = (s.popAll s.demux.evq []).beforeRead := by
    rw [s.beforeRead_quiet hr hc, State.beforeRead_quiet (s.popAll s.demux.evq []) hr nofun]
    exact (congrArg (fun u : State => if s.arb.deadline ≤ u.readNow.1.toNat
      then (true, u.readNow.2.finish timeoutResult) else (false, u.readNow.2))
      (State.popAll_empty (s := s.popAll s.demux.evq []) rfl)).symm
  rw [State.goOn_wait hs, State.goOn_wait (s := s.popAll s.demux.evq []) hs]
  show State.waitLoop s.env.reads s = State.waitLoop s.env.reads (s.popAll s.demux.evq [])
  cases s.env.reads with
  | nil => simp only [State.waitLoop, hb]
  | cons d ds => cases d <;> simp only [State.waitLoop, hb]

/-! ### A command that is taken -/

/-- R227, R228, R231: a receive arms its deadline and waits. -/
theorem State.startWait_takeOp {s : State} (op : BitVec 3) (d : Descriptor) :
    (s.takeOp op d).startWait = (s.armedReceive d op).goOn := by
  have h : (s.takeOp op d).waiting = s.armedReceive d op := by
    simp only [State.waiting, State.armDeadline, State.armedReceive, State.readNow_eq]; rfl
  rw [State.startWait_waiting, h]
  exact (State.goOn_wait rfl).symm

theorem exec_receivePacket {s : State} (hs : s.arb.astate = .idle) (d : Descriptor) :
    exec (.receivePacket d) s = .next (s.armedReceive d 2).goOn := by
  rw [← State.startWait_takeOp]; exact State.accept_idle hs _ _

theorem exec_receive {s : State} (hs : s.arb.astate = .idle) (d : Descriptor) :
    exec (.receive d) s = .next (s.armedReceive d 3).goOn := by
  rw [← State.startWait_takeOp]; exact State.accept_idle hs _ _

/-- R223, R47: the state in which a command's transmission begins. -/
def State.sending (s : State) (d : Descriptor) : State :=
  { s with arb := { s.arb with astate := .tx, txbuf := pack d.cls d.id d.payload, txSent := 0 } }

theorem pack_ne_nil (c i : Byte) (p : Bytes) : pack c i p ≠ [] := List.ne_nil_of_length_pos (by rw [pack_length]; omega)

theorem State.sending_takesRest (s : State) (d : Descriptor) : (s.sending d).takesRest = takesFrame s.env.writes :=
  if_neg (pack_ne_nil d.cls d.id d.payload)

section
variable {s : State} {d : Descriptor} (hs : s.arb.astate = .idle) (hp : d.payload.length ≤ 65535)
include hs hp

theorem exec_send : exec (.send d) s = .next ((s.takeOp 1 d).sending d).transmit :=
  (State.accept_idle hs _ _).trans (if_pos ((lengthFits_iff _).2 hp))

theorem exec_sendAndWaitAck : exec (.sendAndWaitAck d) s = .next (((s.takeOp 4 d).setPending d).sending d).transmit :=
  (State.accept_idle hs _ _).trans (if_pos ((lengthFits_iff _).2 hp))

theorem exec_poll : exec (.poll d) s = .next (((s.takeOp 5 d).setPending d).sending d).transmit :=
  (State.accept_idle hs _ _).trans (if_pos ((lengthFits_iff _).2 hp))

end

/-! ### A transmission that the transport takes -/

/-- R64, R79: the rest of the frame and its flush marker are out. -/
def State.frameOut (s : State) (ws : List WriteDraw) : State :=
  { s with
    env := { s.env with writes := ws }
    arb := { s.arb with txSent := s.arb.txSent + s.unsent.length }
    out := { s.out with tx := s.out.tx ++ s.unsent.map .byte ++ [.flush] } }

/-- R47: the transport takes the rest of a frame that is out but for its flush when the flush returns. -/
theorem State.takesRest_flush {s : State} {ws : List WriteDraw} (hu : s.unsent = []) (h : s.takesRest = some ws) :
    s.env.writes = [] ∧ ws = [] ∨ s.env.writes = .done :: ws := by
  rw [State.takesRest, if_pos hu] at h
  match hw : s.env.writes with
  | [] => rw [hw] at h; cases h; exact .inl ⟨rfl, rfl⟩
  | .done :: _ => rw [hw] at h; cases h; exact .inr rfl
  | .fail _ :: _ => rw [hw] at h; cases h
  | .pause _ :: _ => rw [hw] at h; cases h

theorem State.portFlush_done {s : State} {ws : List WriteDraw}
    (h : s.env.writes = [] ∧ ws = [] ∨ s.env.writes = .done :: ws) : s.portFlush
      = .done { s with env := { s.env with writes := ws }, out := { s.out with tx := s.out.tx ++ [.flush] } } := by
  rcases s.portFlush_cases with ⟨ws', h', he⟩ | ⟨k, ws', hw, -⟩ | ⟨k, ws', hw, -⟩
  · have hws : ws' = ws := by
      rcases h with ⟨hw, rfl⟩ | hw <;> rcases h' with ⟨hw', rfl⟩ | hw'
      · rfl
      · cases hw.symm.trans hw'
      · cases hw.symm.trans hw'
      · exact (List.cons.inj (hw'.symm.trans hw)).2
    rw [he, hws]
  all_goals rcases h with ⟨hw', -⟩ | hw' <;> cases hw.symm.trans hw'

/-- R223: what is left of `TXBUF` goes out, is flushed and is logged, and then what follows the frame runs. -/
theorem State.transmit_rest {s : State} {ws : List WriteDraw} (h : s.takesRest = some ws) :
    s.transmit = (s.frameOut ws).logSent.afterSend := by
  by_cases hu : s.unsent = []
  · have hw : s.portWrite = .done s := if_pos hu
    have hf : s.portFlush = .done (s.frameOut ws) := by
      rw [State.portFlush_done (State.takesRest_flush hu h), State.frameOut, hu, List.map_nil, List.append_nil]
      rfl
    simp only [State.transmit, hw, hf]
  · rw [State.takesRest, if_neg hu] at h
    exact s.transmit_taken ws h hu

/-- R222: the transmission of a `SEND` ends it. -/
theorem State.transmit_send {s : State} {ws : List WriteDraw} (ho : s.arb.op = 1) (h : s.takesRest = some ws) :
    s.transmit = s.resumedSend ws := by
  rw [State.transmit_rest h]
  have hn : ¬ ((s.frameOut ws).logSent.arb.op = opSendAndWaitAck ∨ (s.frameOut ws).logSent.arb.op = opPoll) := by
    have : (s.frameOut ws).logSent.arb.op = 1 := by simp [State.logSent, State.frameOut, ho]
    rw [this]; decide
  unfold State.afterSend
  rw [if_neg hn]
  simp only [State.logSent, State.logRec_eq, State.resumedSend, State.readNow_eq]
  rfl

/-- R229, R230, R231: the transmission of a waiting command starts its wait. -/
theorem State.transmit_asks {s : State} {ws : List WriteDraw} (ho : s.arb.op = 4 ∨ s.arb.op = 5)
    (h : s.takesRest = some ws) : s.transmit = (s.resumedWait ws).goOn := by
  rw [State.transmit_rest h]
  have hop : (s.frameOut ws).logSent.arb.op = opSendAndWaitAck ∨ (s.frameOut ws).logSent.arb.op = opPoll := by
    have : (s.frameOut ws).logSent.arb.op = s.arb.op := by simp [State.logSent, State.frameOut]
    rw [this]; exact ho
  have hw : (s.frameOut ws).logSent.waiting = s.resumedWait ws := by
    simp only [State.waiting, State.armDeadline, State.logSent, State.logRec_eq, State.resumedWait, State.readNow_eq]
    rfl
  unfold State.afterSend
  rw [if_pos hop, State.startWait_waiting, hw]
  exact (State.goOn_wait rfl).symm

theorem State.resumedSend_sending {s : State} (hs : s.arb.astate = .idle) (d : Descriptor) (ws : List WriteDraw) :
    ((s.takeOp 1 d).sending d).resumedSend ws = s.sentFrame d ws := by
  obtain ⟨_, _, ⟨_, _, _, _, _, _, _, _, _, _⟩, _, _, _⟩ := s
  cases hs
  simp only [State.resumedSend, State.sentFrame, State.readNow_eq]
  rfl

theorem State.resumedWait_sending (s : State) (op : BitVec 3) (d : Descriptor) (ws : List WriteDraw) :
    (((s.takeOp op d).setPending d).sending d).resumedWait ws = s.armedWait d op ws := by
  simp only [State.resumedWait, State.armedWait, State.readNow_eq]
  rfl

/-- Settles O33: `SEND` is the transmission of its frame from the first byte, and one that goes on sends the rest. -/
theorem sendCompletes : Obligations.SendCompletes := by
  unfold Obligations.SendCompletes
  refine ⟨fun d s ws hs hp hw => ?_, fun s ws hports hs ho hw => ?_⟩
  · have hrest : ((s.takeOp 1 d).sending d).takesRest = some ws := (State.sending_takesRest _ d).trans hw
    rw [exec_send hs hp, State.transmit_send rfl hrest, State.resumedSend_sending hs]
  · have hgo : s.goOn = s.transmit := by simp only [State.goOn, hs]
    rw [step_of_no_ports hports, hgo, State.transmit_send ho hw]

/-! ### The receives -/

/-- Settles O35: every event answers a `RECEIVE_PACKET`, the oldest first. -/
theorem receivePacketReturnsTheOldestEvent : Obligations.ReceivePacketReturnsTheOldestEvent := by
  unfold Obligations.ReceivePacketReturnsTheOldestEvent
  refine ⟨fun d s e es r hq hr => ?_, fun d s hs _ => exec_receivePacket hs d⟩
  have hres : r = eventResult e := by rw [hr]; cases e <;> rfl
  have wait : ∀ u : State, u.arb.astate = .wait → u.arb.op = 2 → u.arb.inRead = false → u.demux.evq = e :: es →
      u.goOn = u.waitEnds [e] es r := fun u hu ho hir hq =>
    State.goOn_answer (pre := []) hu hir hq nofun (hres ▸ classify_receivePacket ho e)
  refine ⟨fun hs => ?_, fun hports hs ho hir => ?_, fun hl => ?_⟩
  · rw [exec_receivePacket hs, wait (s.armedReceive d 2) rfl rfl rfl (by simpa using hq)]
    simp [State.waitEnds, State.popAll, State.armedReceive, State.withRecords, hs]
  · rw [step_of_no_ports hports, wait s hs ho hir hq]
  · rw [resultLen, if_pos hl, BitVec.toNat_ofNat]; omega

/-- Settles O36: events that are no packet are discarded, and the first packet is the answer. -/
theorem receiveReturnsTheFirstPacket : Obligations.ReceiveReturnsTheFirstPacket := by
  unfold Obligations.ReceiveReturnsTheFirstPacket
  refine ⟨fun d s pre es m p ts raw hpre hq => ?_, fun d s hnone => ⟨fun hs => ?_, fun hports hs ho hir => ?_⟩⟩
  · have wait : ∀ u : State, u.arb.astate = .wait → u.arb.op = 3 → u.arb.inRead = false →
        u.demux.evq = pre ++ .casicPacket m p ts raw :: es →
        u.goOn = u.waitEnds (pre ++ [.casicPacket m p ts raw]) es (packetResult m p ts) := fun u hu ho hir hq =>
      State.goOn_answer hu hir hq (fun x hx => classify_receive_none ho (hpre x hx)) (classify_receive ho _)
    refine ⟨fun hs => ?_, fun hports hs ho hir => ?_⟩
    · rw [exec_receive hs, wait (s.armedReceive d 3) rfl rfl rfl (by simpa using hq)]
      simp [State.waitEnds, State.popAll, State.armedReceive, State.withRecords, hs, Event.isPacket, packetResult]
    · rw [step_of_no_ports hports, wait s hs ho hir hq]; rfl
  · have hq : (s.armedReceive d 3).demux.evq = s.demux.evq := by simp
    rw [exec_receive hs, State.goOn_discard (s := s.armedReceive d 3) rfl rfl, hq]
    exact fun x hx => classify_receive_none rfl (hnone x (hq ▸ hx))
  · rw [step_of_no_ports hports, State.goOn_discard hs hir fun x hx => classify_receive_none ho (hnone x hx)]

/-! ### The sending commands -/

theorem State.armedWait_evq (s : State) (d : Descriptor) (op : BitVec 3) (ws : List WriteDraw) :
    (s.armedWait d op ws).demux.evq = s.demux.evq := by simp

section
variable {s : State} {d : Descriptor} {ws : List WriteDraw} (hs : s.arb.astate = .idle)
  (hp : d.payload.length ≤ 65535) (hw : takesFrame s.env.writes = some ws)

include hw in
theorem State.transmit_armed {op : BitVec 3} (ho : op = 4 ∨ op = 5) :
    (((s.takeOp op d).setPending d).sending d).transmit = (s.armedWait d op ws).goOn := by
  have hrest : (((s.takeOp op d).setPending d).sending d).takesRest = some ws := (State.sending_takesRest _ d).trans hw
  rw [State.transmit_asks ho hrest, State.resumedWait_sending]

include hs hp hw in
theorem exec_sendAndWaitAck_armed : exec (.sendAndWaitAck d) s = .next (s.armedWait d 4 ws).goOn := by
  rw [exec_sendAndWaitAck hs hp, State.transmit_armed hw (.inl rfl)]

include hs hp hw in
theorem exec_poll_armed : exec (.poll d) s = .next (s.armedWait d 5 ws).goOn := by
  rw [exec_poll hs hp, State.transmit_armed hw (.inr rfl)]

include hs in
theorem State.armedWait_waitEnds (op : BitVec 3) (popped rest : List Event) (r : Result) :
    (s.armedWait d op ws).waitEnds popped rest r = s.answeredFromQueue d op ws popped rest r := by
  obtain ⟨_, _, ⟨_, _, _, _, _, _, _, _, _, _⟩, _, _, _⟩ := s
  cases hs
  simp only [State.armedWait, State.answeredFromQueue, State.readNow_eq]
  refine Eq.trans ?_ (State.withRecords_append _ [_] _)
  rfl

end

section
variable {s : State} (hs : s.arb.astate = .wait) (hr : s.arb.inRead = false)
include hs hr

/-- R229: how a wait of `SEND_AND_WAIT_ACK` ends on the first echoing acknowledgement queued. -/
theorem State.goOn_ackAnswer {pre es : List Event} {e : Event} (ho : s.arb.op = 4) (hq : s.demux.evq = pre ++ e :: es)
    (hpre : ∀ x ∈ pre, ¬ IsEcho 1 s.arb.pendClass s.arb.pendId x ∧ ¬ IsEcho 0 s.arb.pendClass s.arb.pendId x) :
    (IsEcho 1 s.arb.pendClass s.arb.pendId e → s.goOn = s.waitEnds (pre ++ [e]) es okResult) ∧
    (IsEcho 0 s.arb.pendClass s.arb.pendId e → s.goOn = s.waitEnds (pre ++ [e]) es nakResult) := by
  have hnone := fun x hx => classify_ack_none ho (hpre x hx)
  exact ⟨fun he => State.goOn_answer hs hr hq hnone (classify_echoAck ho he),
    fun he => State.goOn_answer hs hr hq hnone (classify_echoNak (.inl ho) he)⟩

/-- R230: how a wait of `POLL` ends on the first echoing NAK or reply queued. -/
theorem State.goOn_pollAnswer {pre es : List Event} {e : Event} (ho : s.arb.op = 5) (hq : s.demux.evq = pre ++ e :: es)
    (hpre : ∀ x ∈ pre, ¬ IsEcho 0 s.arb.pendClass s.arb.pendId x ∧
      ∀ p ts raw, x ≠ .casicPacket ⟨s.arb.pendClass, s.arb.pendId⟩ p ts raw) :
    (IsEcho 0 s.arb.pendClass s.arb.pendId e → s.goOn = s.waitEnds (pre ++ [e]) es nakResult) ∧
    (∀ p ts raw, e = .casicPacket ⟨s.arb.pendClass, s.arb.pendId⟩ p ts raw →
      ¬ IsEcho 0 s.arb.pendClass s.arb.pendId e →
      s.goOn = s.waitEnds (pre ++ [e]) es (replyResult ⟨s.arb.pendClass, s.arb.pendId⟩ p ts)) := by
  have hnone := fun x hx => classify_poll_none ho (hpre x hx)
  refine ⟨fun he => State.goOn_answer hs hr hq hnone (classify_echoNak (.inr ho) he), fun p ts raw he hn => ?_⟩
  subst he
  exact State.goOn_answer hs hr hq hnone (classify_reply ho hn)

end

/-- R229, R230: a sending command that no queued event answers. -/
def AsksUnanswered (i : Instr) (d : Descriptor) (q : List Event) : Prop :=
  (i = .sendAndWaitAck d ∧ ∀ e ∈ q, ¬ IsEcho 1 d.cls d.id e ∧ ¬ IsEcho 0 d.cls d.id e) ∨
  (i = .poll d ∧ ∀ e ∈ q, ¬ IsEcho 0 d.cls d.id e ∧ ∀ p ts raw, e ≠ .casicPacket ⟨d.cls, d.id⟩ p ts raw)

/-- R229, R230: such a command sends its frame, arms its deadline, pops and logs what is queued, and waits on. -/
theorem exec_asksUnanswered {s : State} {i : Instr} {d : Descriptor} {ws : List WriteDraw} (hs : s.arb.astate = .idle)
    (hp : d.payload.length ≤ 65535) (hw : takesFrame s.env.writes = some ws) (h : AsksUnanswered i d s.demux.evq) :
    ∃ op : BitVec 3, (i = .sendAndWaitAck d ∧ op = 4 ∨ i = .poll d ∧ op = 5) ∧
      exec i s = .next ((s.armedWait d op ws).popAll s.demux.evq []).goOn := by
  have discard : ∀ op, (∀ x ∈ s.demux.evq, classify (s.armedWait d op ws).arb x = none) →
      (s.armedWait d op ws).goOn = ((s.armedWait d op ws).popAll s.demux.evq []).goOn := fun op hnone => by
    rw [← s.armedWait_evq d op ws] at hnone ⊢
    exact State.goOn_discard rfl rfl hnone
  rcases h with ⟨rfl, hn⟩ | ⟨rfl, hn⟩
  · refine ⟨4, .inl ⟨rfl, rfl⟩, ?_⟩
    rw [exec_sendAndWaitAck_armed hs hp hw, discard 4 fun x hx => classify_ack_none rfl (hn x hx)]
  · refine ⟨5, .inr ⟨rfl, rfl⟩, ?_⟩
    rw [exec_poll_armed hs hp hw, discard 5 fun x hx => classify_poll_none rfl (hn x hx)]

theorem step_resumedWait {s : State} {ws : List WriteDraw} (hports : s.ports = []) (hs : s.arb.astate = .tx)
    (ho : s.arb.op = 4 ∨ s.arb.op = 5) (hw : s.takesRest = some ws) : step s = .next (s.resumedWait ws).goOn := by
  have hgo : s.goOn = s.transmit := by simp only [State.goOn, hs]
  rw [step_of_no_ports hports, hgo, State.transmit_asks ho hw]

/-- Settles O37: the wait, armed or gone on with, by what `Classify` finds in its queue. -/
theorem sendAndWaitAckIsAnswered : Obligations.SendAndWaitAckIsAnswered := by
  unfold Obligations.SendAndWaitAckIsAnswered
  refine ⟨fun d s ws pre es e hs hp hw hq hpre => ?_, fun d s ws hs hp hw hn => ?_,
    fun s pre es e hports hs ho hr hq hpre => ?_, fun s hports hs ho hr hn => ?_,
    fun s ws hports hs ho hw => step_resumedWait hports hs (.inl ho) hw⟩
  · obtain ⟨hack, hnak⟩ := State.goOn_ackAnswer (s := s.armedWait d 4 ws) rfl rfl rfl
      ((s.armedWait_evq d 4 ws).trans hq) hpre
    rw [exec_sendAndWaitAck_armed hs hp hw, ← State.armedWait_waitEnds hs, ← State.armedWait_waitEnds hs]
    exact ⟨fun he => congrArg _ (hack he), fun he => congrArg _ (hnak he)⟩
  · obtain ⟨op, hop, he⟩ := exec_asksUnanswered hs hp hw (.inl ⟨rfl, hn⟩)
    obtain ⟨-, rfl⟩ | ⟨hi, -⟩ := hop
    · exact he
    · cases hi
  · obtain ⟨hack, hnak⟩ := State.goOn_ackAnswer hs hr ho hq hpre
    rw [step_of_no_ports hports]
    exact ⟨fun he => congrArg _ (hack he), fun he => congrArg _ (hnak he)⟩
  · rw [step_of_no_ports hports, State.goOn_discard hs hr fun x hx => classify_ack_none ho (hn x hx)]

/-- Settles O38: as O37, with the NAK test before the reply's. -/
theorem pollIsAnswered : Obligations.PollIsAnswered := by
  unfold Obligations.PollIsAnswered
  refine ⟨fun d s ws pre es e hs hp hw hq hpre => ?_, fun d s ws hs hp hw hn => ?_,
    fun s pre es e hports hs ho hr hq hpre => ?_, fun s hports hs ho hr hn => ?_,
    fun s ws hports hs ho hw => step_resumedWait hports hs (.inr ho) hw⟩
  · obtain ⟨hnak, hreply⟩ := State.goOn_pollAnswer (s := s.armedWait d 5 ws) rfl rfl rfl
      ((s.armedWait_evq d 5 ws).trans hq) hpre
    simp only [exec_poll_armed hs hp hw, ← State.armedWait_waitEnds hs]
    exact ⟨fun he => congrArg _ (hnak he), fun p ts raw he hn => congrArg _ (hreply p ts raw he hn)⟩
  · obtain ⟨op, hop, he⟩ := exec_asksUnanswered hs hp hw (.inr ⟨rfl, hn⟩)
    obtain ⟨hi, -⟩ | ⟨-, rfl⟩ := hop
    · cases hi
    · exact he
  · obtain ⟨hnak, hreply⟩ := State.goOn_pollAnswer hs hr ho hq hpre
    rw [step_of_no_ports hports]
    exact ⟨fun he => congrArg _ (hnak he), fun p ts raw he hn => congrArg _ (hreply p ts raw he hn)⟩
  · rw [step_of_no_ports hports, State.goOn_discard hs hr fun x hx => classify_poll_none ho (hn x hx)]

end Sys2Proof.Machine
end

section
/-! PROOFS. What a wait does at the port (O34, O39 to O43): a read that returns, fails or stays outstanding, the
deadline, and a frame that one read takes whole. -/

namespace Sys2Proof.Machine

/-! ### The next read of a wait -/

section
variable (s : State)
@[simp] theorem State.atRead_params : s.atRead.params = s.params := by unfold State.atRead; split <;> simp
@[simp] theorem State.atRead_demux : s.atRead.demux = s.demux := by unfold State.atRead; split <;> simp
@[simp] theorem State.atRead_arb : s.atRead.arb = s.arb := by unfold State.atRead; split <;> simp
@[simp] theorem State.atRead_out : s.atRead.out = s.out := by unfold State.atRead; split <;> simp
@[simp] theorem State.atRead_ports : s.atRead.ports = s.ports := by unfold State.atRead; split <;> simp
@[simp] theorem State.atRead_rx : s.atRead.env.rx = s.env.rx := by unfold State.atRead; split <;> simp
@[simp] theorem State.atRead_writes : s.atRead.env.writes = s.env.writes := by unfold State.atRead; split <;> simp
end

/-- R224: W1 and W2 do nothing with a read outstanding, and read the clock where the next action is a read. -/
theorem State.beforeRead_atRead {s : State} (h : s.arb.inRead = true ∨ s.ReadsNext) :
    s.beforeRead = (false, s.atRead) := by
  cases hr : s.arb.inRead with
  | true => simp [State.beforeRead, State.atRead, hr]
  | false =>
    obtain ⟨-, hq, ht⟩ := h.resolve_left (by simp [hr])
    have ht := ht.resolve_left (by simp [hr])
    rw [s.beforeRead_quiet hr (by simp [hq]), hq, State.popAll_empty hq, if_neg (Nat.not_le.2 ht)]
    simp [State.atRead, hr]

/-- R224: the state in which the next read of a wait has returned up to `n` bytes, and what it returned is fed. -/
def State.afterRead (s : State) (n : Nat) (ds : List ReadDraw) : State :=
  { s.atRead.readNow.2 with
    demux := s.demux.feed (s.env.rx.take (min n s.params.readMax)) s.atRead.readNow.1
    arb := { s.arb with inRead := false }
    env := { s.atRead.readNow.2.env with rx := s.env.rx.drop (min n s.params.readMax), reads := ds } }

section
variable (s : State) (n : Nat) (ds : List ReadDraw)
@[simp] theorem State.afterRead_params : (s.afterRead n ds).params = s.params := by simp [State.afterRead]
@[simp] theorem State.afterRead_demux : (s.afterRead n ds).demux
    = s.demux.feed (s.env.rx.take (min n s.params.readMax)) s.atRead.readNow.1 := rfl
@[simp] theorem State.afterRead_arb : (s.afterRead n ds).arb = { s.arb with inRead := false } := rfl
@[simp] theorem State.afterRead_rx : (s.afterRead n ds).env.rx = s.env.rx.drop (min n s.params.readMax) := rfl
@[simp] theorem State.afterRead_reads : (s.afterRead n ds).env.reads = ds := rfl
@[simp] theorem State.afterRead_out : (s.afterRead n ds).out = s.out := by simp [State.afterRead]
@[simp] theorem State.afterRead_ports : (s.afterRead n ds).ports = s.ports := by simp [State.afterRead]
end

theorem State.readReturns_atRead (s : State) (ds : List ReadDraw) (n : Nat) :
    s.atRead.readReturns ds n = s.afterRead n ds := by
  unfold State.readReturns State.readAndFeed State.afterRead
  rw [← s.atRead_demux, ← s.atRead_arb, ← s.atRead_rx, ← s.atRead_params]
  simp only [State.readNow_eq]
  rfl

section
variable {s : State} (hs : s.arb.astate = .wait) (h : s.arb.inRead = true ∨ s.ReadsNext) {ds : List ReadDraw}
include hs h

theorem State.goOn_got {n : Nat} (hd : s.env.reads = .got n :: ds) : s.goOn = (s.afterRead n ds).goOn := by
  rw [State.goOn_wait hs, hd, State.waitLoop_got (State.beforeRead_atRead h), State.readReturns_atRead]
  exact (State.goOn_wait (s := s.afterRead n ds) hs).symm

theorem State.goOn_fail (hd : s.env.reads = .fail :: ds) :
    s.goOn = { s.atRead with env := { s.atRead.env with reads := ds } }.transportError := by
  rw [State.goOn_wait hs, hd, State.waitLoop_fail (State.beforeRead_atRead h)]

theorem State.goOn_pause (hd : s.env.reads = .pause :: ds) : s.goOn
    = { s.atRead with arb := { s.arb with inRead := true }, env := { s.atRead.env with reads := ds } } := by
  rw [State.goOn_wait hs, hd, State.waitLoop_pause (State.beforeRead_atRead h), s.atRead_arb]

end

/-- R224, R343: with nothing queued a wait ends as soon as the clock has reached its deadline. -/
theorem State.goOn_deadline {s : State} (hs : s.arb.astate = .wait) (hr : s.arb.inRead = false) (hq : s.demux.evq = [])
    (ht : s.arb.deadline ≤ s.readNow.1.toNat) : s.goOn = s.readNow.2.finish timeoutResult := by
  rw [State.goOn_wait hs]
  refine State.waitLoop_done _ s _ ?_
  rw [s.beforeRead_quiet hr (by simp [hq]), hq, State.popAll_empty hq, if_pos ht]

/-! ### Port actions that fail -/

/-- R237, R333: a sending command whose port action fails, with the bytes that it has handed over. -/
def State.sendFails (s : State) (bs : Bytes) (ws : List WriteDraw) : State :=
  { s with
    arb := { s.arb with astate := .fault, txbuf := [], txSent := 0, inRead := false }
    env := { s.env with writes := ws }
    out := { s.out with tx := s.out.tx ++ bs.map .byte, rsp := s.out.rsp ++ [transportResult] } }

section
variable {s : State} {k : Nat} {ws : List WriteDraw}

theorem State.transmit_writeFails (hu : s.unsent ≠ []) (hw : s.env.writes = .fail k :: ws) :
    s.transmit = s.sendFails (s.unsent.take k) ws := by
  simp only [State.transmit, State.portWrite, if_neg hu, hw]; rfl

theorem State.transmit_flushFails (hu : s.unsent ≠ []) (hw : s.env.writes = .done :: .fail k :: ws) :
    s.transmit = s.sendFails s.unsent ws := by
  simp only [State.transmit, State.portWrite, if_neg hu, hw]; rfl

theorem State.transmit_flushFails_alone (hu : s.unsent = []) (hw : s.env.writes = .fail k :: ws) :
    s.transmit = { s with env := { s.env with writes := ws } }.transportError := by
  simp only [State.transmit, State.portWrite, if_pos hu, State.portFlush, hw]

end

/-- R82, R42: the operands of a command that is taken. -/
def State.latch (s : State) (op : BitVec 3) (tmo : Timeout) (pc pi : Byte) : State :=
  { s with arb := { s.arb with op := op, tmo := tmo, pendClass := pc, pendId := pi } }

/-- R222, R229, R230: a sending command taken in `A_IDLE` latches its operands and transmits its frame. -/
theorem exec_sends {d : Descriptor} {s : State} {i : Instr} (hi : i = .send d ∨ i = .sendAndWaitAck d ∨ i = .poll d)
    (hs : s.arb.astate = .idle) (hp : d.payload.length ≤ 65535) :
    ∃ op pc pi, exec i s = .next ((s.latch op d.timeout pc pi).sending d).transmit := by
  rcases hi with rfl | rfl | rfl
  · exact ⟨1, s.arb.pendClass, s.arb.pendId, exec_send hs hp⟩
  · exact ⟨4, d.cls, d.id, exec_sendAndWaitAck hs hp⟩
  · exact ⟨5, d.cls, d.id, exec_poll hs hp⟩

/-- R227, R228: a receive taken in `A_IDLE` arms its deadline and waits. -/
theorem exec_receives {d : Descriptor} {s : State} {i : Instr} (hi : i = .receivePacket d ∨ i = .receive d)
    (hs : s.arb.astate = .idle) : ∃ op, exec i s = .next (s.armedReceive d op).goOn := by
  rcases hi with rfl | rfl
  · exact ⟨2, exec_receivePacket hs d⟩
  · exact ⟨3, exec_receive hs d⟩

/-- Settles O34: a write, a flush or a read that fails, in the step that takes the command or in a later one. -/
theorem failingPortActionsFault : Obligations.FailingPortActionsFault := by
  unfold Obligations.FailingPortActionsFault
  refine ⟨fun d s i hi hs hp => ?_, fun d s i ds hi hs hq hd ht => ?_, fun s ds hports hs h hd => ?_,
    fun s n ds hports h hd hq ht => ?_, fun s k ws hports hs => ?_, fun d s i ws ds hi hs hp hw hd ht => ?_⟩
  · obtain ⟨op, pc, pi, he⟩ := exec_sends hi hs hp
    have hu : ((s.latch op d.timeout pc pi).sending d).unsent ≠ [] := pack_ne_nil d.cls d.id d.payload
    refine ⟨fun k ws hw => ?_, fun k ws hw => ?_⟩
    · rw [he, State.transmit_writeFails hu hw]
      exact ⟨_, rfl, rfl, rfl, rfl, rfl, rfl, rfl, rfl, rfl⟩
    · rw [he, State.transmit_flushFails hu hw]
      exact ⟨_, rfl, rfl, rfl, rfl, rfl, rfl, rfl, rfl, rfl⟩
  · obtain ⟨op, he⟩ := exec_receives hi hs
    have hnext : (s.armedReceive d op).ReadsNext := by
      refine ⟨rfl, by simpa using hq, .inr ?_⟩
      simp only [State.armedReceive, State.readNow_eq] at ht ⊢
      exact ht
    rw [he, State.goOn_fail rfl (.inr hnext) (ds := ds) (by simpa using hd)]
    exact ⟨_, rfl, by simp, by simp, by simp, by simp, by simp [transportResult, bareResult]⟩
  · rw [step_of_no_ports hports, State.goOn_fail hs h hd]
    exact ⟨_, rfl, by simp, by simp, by simp, by simp, by simp,
      by simp [transportResult, bareResult]⟩
  · have hnext : (s.afterRead n (.fail :: ds)).ReadsNext := by
      refine ⟨h.1, hq, .inr ?_⟩
      simp only [State.afterRead, State.readNow_eq] at ht ⊢
      exact ht
    rw [step_of_no_ports hports, State.goOn_got h.1 (.inr h) hd,
      State.goOn_fail (s := s.afterRead n _) h.1 (.inr hnext) rfl]
    exact ⟨_, rfl, by simp, by simp, by simp, by simp, by simp [transportResult, bareResult]⟩
  · have hgo : s.goOn = s.transmit := by simp only [State.goOn, hs]
    rw [step_of_no_ports hports, hgo]
    refine ⟨fun hu hw => ?_, fun hu hw => ?_, fun hu hw => ?_⟩
    · rw [State.transmit_writeFails hu hw]; rfl
    · rw [State.transmit_flushFails hu hw]; rfl
    · rw [State.transmit_flushFails_alone hu hw]; rfl
  · obtain ⟨op, -, he⟩ := exec_asksUnanswered hs hp hw hi
    have hnext : ((s.armedWait d op ws).popAll s.demux.evq []).ReadsNext := by
      refine ⟨rfl, rfl, .inr ?_⟩
      simp only [State.armedWait, State.popAll, State.readNow_eq] at ht ⊢
      exact ht
    rw [he, State.goOn_fail rfl (.inr hnext) (ds := ds) (by simpa using hd)]
    exact ⟨_, rfl, by simp, by simp, by simp, by simp, by simp, by simp, by simp [transportResult, bareResult]⟩

/-! ### A wait without an answer -/

/-- R227, R228: a receive that no queued event answers arms its deadline, pops and logs what is queued, and waits on. -/
theorem exec_receivesUnanswered {d : Descriptor} {s : State} {i : Instr} (hs : s.arb.astate = .idle)
    (hi : (i = .receivePacket d ∧ s.demux.evq = []) ∨ (i = .receive d ∧ ∀ e ∈ s.demux.evq, e.isPacket = false)) :
    ∃ op, exec i s = .next ((s.armedReceive d op).popAll s.demux.evq []).goOn := by
  have hq : ∀ op, (s.armedReceive d op).demux.evq = s.demux.evq := fun op => by simp
  rcases hi with ⟨rfl, hn⟩ | ⟨rfl, hn⟩
  · refine ⟨2, ?_⟩
    rw [exec_receivePacket hs, hn, State.popAll_empty ((hq 2).trans hn)]
  · refine ⟨3, ?_⟩
    rw [exec_receive hs, ← hq 3]
    exact congrArg _ (State.goOn_discard rfl rfl fun x hx => classify_receive_none rfl (hn x (hq 3 ▸ hx)))

/-- R224: a read that returns nothing changes the clock and the reads' list alone. -/
theorem State.afterRead_nothing {s : State} (hr : s.arb.inRead = false) (hu : s.demux.unk = []) (ds : List ReadDraw) :
    s.afterRead 0 ds = { s with env := { s.env with
      now := s.env.afterNow.nextNow, clock := s.env.clock.tail.tail, reads := ds } } := by
  have hfeed : ∀ ts, s.demux.feed [] ts = s.demux := fun ts => Demux.flushUnknown_of_nil hu
  obtain ⟨_, _, ⟨_, _, _, _, _, _, _, _, _, _⟩, _, _, _⟩ := s
  cases hr
  simp only [State.afterRead, State.atRead, Nat.zero_min, List.take_zero, List.drop_zero, hfeed, State.readNow_eq]
  rfl

theorem Env.nextNow_lt {e : Env} {v : Time} {vs : List Time} {dl : Nat} (h : e.clock = v :: vs) (hn : e.now.toNat < dl)
    (hv : v.toNat < dl) : e.nextNow.toNat < dl := by
  simp only [Env.nextNow, h]
  split
  · exact hn
  · exact hv

/-- R224, R343: reads that return nothing are repeated until the clock has reached the deadline; then the wait ends. -/
theorem State.goOn_reads_nothing {k : Nat} {ds : List ReadDraw} {vs cs : List Time} {v : Time} {s : State}
    (hs : s.arb.astate = .wait) (hr : s.arb.inRead = false) (hq : s.demux.evq = []) (hu : s.demux.unk = [])
    (hd : s.env.reads = List.replicate k (.got 0) ++ ds) (hc : s.env.clock = vs ++ v :: cs) (hl : vs.length = 2 * k)
    (hn : s.env.now.toNat < s.arb.deadline) (hvs : ∀ w ∈ vs, w.toNat < s.arb.deadline)
    (hv : s.arb.deadline ≤ v.toNat) :
    s.goOn = State.finish { s with env := { s.env with now := v, clock := cs, reads := ds } } timeoutResult := by
  induction k generalizing s vs with
  | zero =>
    obtain rfl : vs = [] := List.eq_nil_of_length_eq_zero (by omega)
    have hnow : s.env.nextNow = v := Env.nextNow_cons hc (BitVec.le_def.2 (by omega))
    rw [State.goOn_deadline hs hr hq (by rw [State.readNow_eq, hnow]; exact hv)]
    simp only [State.readNow_eq, Env.afterNow, hnow, hc]
    simp only [List.replicate_zero, List.nil_append] at hd
    rw [← hd]; rfl
  | succ k ih =>
    obtain ⟨a, b, vs, rfl⟩ : ∃ a b vs', vs = a :: b :: vs' := by
      match vs, hl with
      | a :: b :: vs', _ => exact ⟨a, b, vs', rfl⟩
      | [], hl | [_], hl => simp only [List.length_cons, List.length_nil] at hl; omega
    have ha : s.env.nextNow.toNat < s.arb.deadline := Env.nextNow_lt hc hn (hvs a (by simp))
    have hclock : s.env.afterNow.clock = b :: (vs ++ v :: cs) := by simp [Env.afterNow, hc]
    have hb : s.env.afterNow.nextNow.toNat < s.arb.deadline := Env.nextNow_lt hclock ha (hvs b (by simp))
    have hnext : s.ReadsNext := ⟨hs, hq, .inr (by rw [State.readNow_eq]; exact ha)⟩
    rw [State.goOn_got hs (.inr hnext) hd, State.afterRead_nothing hr hu]
    have hlen : vs.length = 2 * k := by simp only [List.length_cons] at hl; omega
    exact ih (s := { s with env := _ }) hs hr hq hu rfl (by simp [hc]) hlen hb (fun w hw => hvs w (by simp [hw])) hv

/-- Settles O39: the deadline is tested once the queue is empty, before each read. -/
theorem waitsEndAtTheDeadline : Obligations.WaitsEndAtTheDeadline := by
  unfold Obligations.WaitsEndAtTheDeadline
  refine ⟨fun d s hs h0 hp => ⟨fun i hi => ?_, fun i ws hw hi => ?_⟩, fun s hports hs hr hq ht => ?_,
    fun s n ds hports h hd => ?_, fun s ds hports h hd => ?_,
    fun s k ds vs cs v hports hs hr hq hu hd hc hl hn hvs hv => ?_,
    fun d s i k ds t0 vs cs v hi hs hq hu hd hc hl hn h0 hvs hv => ?_⟩
  · obtain ⟨op, he⟩ := exec_receivesUnanswered hs hi
    have ht : ((s.armedReceive d op).popAll s.demux.evq []).arb.deadline
        ≤ ((s.armedReceive d op).popAll s.demux.evq []).readNow.1.toNat := by
      simp only [State.armedReceive, State.popAll, State.readNow_eq, h0]
      exact Env.nextNow_mono s.env.afterNow
    rw [he, State.goOn_deadline rfl rfl rfl ht]
    exact ⟨_, rfl, rfl, by simp, by simp, by simp, by simp, by simp [timeoutResult, bareResult]⟩
  · obtain ⟨op, -, he⟩ := exec_asksUnanswered hs hp hw hi
    have ht : ((s.armedWait d op ws).popAll s.demux.evq []).arb.deadline
        ≤ ((s.armedWait d op ws).popAll s.demux.evq []).readNow.1.toNat := by
      simp only [State.armedWait, State.popAll, State.readNow_eq, h0]
      exact Env.nextNow_mono s.env.afterNow.afterNow
    rw [he, State.goOn_deadline rfl rfl rfl ht]
    exact ⟨_, rfl, rfl, by simp, by simp, by simp, by simp, by simp [timeoutResult, bareResult]⟩
  · rw [step_of_no_ports hports, State.goOn_deadline hs hr hq ht]
    simp only [State.readNow_eq]; rfl
  · rw [step_of_no_ports hports, State.goOn_got h.1 (.inr h) hd]
    exact (step_of_no_ports (s := s.afterRead n ds) (by simp [hports])).symm
  · rw [step_of_no_ports hports, State.goOn_pause h.1 (.inr h) hd]
  · rw [step_of_no_ports hports, State.goOn_reads_nothing hs hr hq hu hd hc hl hn hvs hv]; rfl
  · obtain ⟨op, he⟩ := exec_receives hi hs
    have hnow : s.env.nextNow = t0 := Env.nextNow_cons hc hn
    have harmed : s.armedReceive d op = { s with
        arb := { s.arb with
          astate := .wait, op := op, tmo := d.timeout, inRead := false, deadline := t0.toNat + d.timeout.toNat }
        env := { s.env with now := t0, clock := vs ++ v :: cs } } := by
      simp only [State.armedReceive, State.readNow_eq, Env.afterNow, hnow, hc]; rfl
    rw [he, harmed]
    exact ⟨_, congrArg _ (State.goOn_reads_nothing rfl rfl hq hu hd rfl hl (Nat.lt_add_of_pos_right h0) hvs hv),
      rfl, rfl, rfl, rfl⟩

/-! ### A frame that one read takes whole -/

/-- R66, R112: the parser of a wait whose read returns exactly a packed frame has its packet queued, stamped with the
clock read after the read. -/
theorem State.afterRead_frame {s : State} {m : MsgId} {p : Bytes} {n : Nat} (hq : s.demux.evq = [])
    (hd : s.demux.pstate = .idle) (hu : s.demux.unk = []) (hp : p.length ≤ 4096)
    (hrx : s.env.rx.take (min n s.params.readMax) = pack m.cls m.id p) (ds : List ReadDraw) :
    (s.afterRead n ds).demux.evq = [.casicPacket m p s.atRead.readNow.1 (pack m.cls m.id p)] ∧
    (s.afterRead n ds).demux.pstate = .idle ∧ (s.afterRead n ds).demux.acc = [] ∧
    (s.afterRead n ds).demux.unk = [] := by
  rw [State.afterRead_demux, hrx, Demux.feed_pack hd _ _ hp, Demux.events_of_nil hu, hq]
  exact ⟨rfl, rfl, rfl, rfl⟩

/-- What a wait that ends on the one event queued leaves. -/
structure State.AnsweredWith (s t : State) (r : Result) : Prop where
  astate : t.arb.astate = .idle
  evq : t.demux.evq = []
  pstate : t.demux.pstate = s.demux.pstate
  env : t.env = s.env
  tx : t.out.tx = s.out.tx
  rsp : t.out.rsp = s.out.rsp ++ [r]

theorem State.goOn_one_answer {s : State} {e : Event} {r : Result} (hs : s.arb.astate = .wait)
    (hr : s.arb.inRead = false) (hq : s.demux.evq = [e]) (hc : classify s.arb e = some r) :
    s.AnsweredWith s.goOn r := by
  rw [State.goOn_answer (pre := []) hs hr hq nofun hc]
  exact ⟨rfl, rfl, rfl, rfl, rfl, rfl⟩

/-- Settles O40: the read of the armed wait returns the frame, and its packet is the answer. -/
theorem receiveReadsThePort : Obligations.ReceiveReadsThePort := by
  unfold Obligations.ReceiveReadsThePort
  intro d s m p more n ds t0 t1 t2 cs hs hq hd hu hp hrx hreads hn hc h0 h1 h2 ht
  have hnow : s.env.nextNow = t0 := Env.nextNow_cons hc h0
  have hnow1 : s.env.afterNow.nextNow = t1 := Env.nextNow_cons (by simp [Env.afterNow, hc]; rfl)
    (by show s.env.nextNow ≤ t1; rw [hnow]; exact h1)
  have hnow2 : s.env.afterNow.afterNow.nextNow = t2 :=
    Env.nextNow_cons (by simp [Env.afterNow, hc]; rfl)
    (by show s.env.afterNow.nextNow ≤ t2; rw [hnow1]; exact h2)
  have reads : ∀ op r, (∀ a : Arbiter, a.op = op → classify a (.casicPacket m p t2 (pack m.cls m.id p)) = some r) →
      ∃ t, (s.armedReceive d op).goOn = t ∧ t.arb.astate = .idle ∧ t.env.rx = more ∧ t.env.reads = ds ∧
        t.env.clock = cs ∧ t.demux.evq = [] ∧ t.demux.pstate = .idle ∧ t.out.rsp = s.out.rsp ++ [r] := by
    intro op r hclass
    have hnext : (s.armedReceive d op).ReadsNext := by
      refine ⟨rfl, by simpa using hq, .inr ?_⟩
      simpa only [State.armedReceive, State.readNow_eq, hnow, hnow1] using ht
    have htake : (s.armedReceive d op).env.rx.take (min n (s.armedReceive d op).params.readMax)
        = pack m.cls m.id p := by
      simp [hn, hrx]
    obtain ⟨hevq, hps, -, -⟩ := State.afterRead_frame (by simpa using hq)
      (by simpa using hd) (by simpa using hu) hp htake ds
    have hstamp : (s.armedReceive d op).atRead.readNow.1 = t2 := by
      simpa only [State.armedReceive, State.atRead, State.readNow_eq, Bool.false_eq_true, if_false] using hnow2
    rw [hstamp] at hevq
    have hans := State.goOn_one_answer (s := (s.armedReceive d op).afterRead n ds) rfl rfl hevq (hclass _ rfl)
    rw [State.goOn_got rfl (.inr hnext) (by simpa using hreads)]
    refine ⟨_, rfl, hans.astate, ?_, ?_, ?_, hans.evq, hans.pstate.trans hps, ?_⟩
    · rw [hans.env]; simp [hn, hrx]
    · rw [hans.env]; simp
    · rw [hans.env]
      simp only [State.afterRead, State.armedReceive, State.atRead, State.readNow_eq]
      simp [Env.afterNow, hc]
    · rw [hans.rsp]; simp
  obtain ⟨t, he, h⟩ := reads 3 _ fun a ho => classify_receive ho _
  obtain ⟨t', he', h'⟩ := reads 2 _ fun a ho => classify_receivePacket ho _
  exact ⟨⟨t, he ▸ exec_receive hs d, h⟩, ⟨t', he' ▸ exec_receivePacket hs d, h'⟩⟩

/-! ### A frame that arrives during a wait -/

/-- What a wait has read that has taken a whole frame: its event is queued, and nothing else is done. -/
structure State.HasRead (s u : State) (e : Event) (ds : List ReadDraw) : Prop where
  arb : u.arb = { s.arb with inRead := false }
  evq : u.demux.evq = [e]
  pstate : u.demux.pstate = .idle
  acc : u.demux.acc = []
  unk : u.demux.unk = []
  env : u.env = { s.atRead.readNow.2.env with rx := [], reads := ds }
  params : u.params = s.params
  ports : u.ports = s.ports
  out : u.out = s.out

theorem State.arrive_readNow (s : State) (bs : Bytes) :
    (s.arrive bs).readNow = (s.readNow.1, s.readNow.2.arrive bs) := by
  simp only [State.readNow_eq]; rfl

theorem State.arrive_atRead (s : State) (bs : Bytes) : (s.arrive bs).atRead = s.atRead.arrive bs := by
  have ha : (s.arrive bs).arb = s.arb := rfl
  unfold State.atRead
  rw [ha]
  split
  · rfl
  · rw [State.arrive_readNow]

/-- R63, R66, R120: a frame that arrives while a wait stands at its read, with nothing in the transport before it, is
read whole, and the wait goes on with its packet queued. -/
theorem exec_frame_read {s : State} {i : Instr} {m : MsgId} {p : Bytes} {ck : Word32} {n : Nat} {ds : List ReadDraw}
    (h : s.ReadsNext) (hd : s.demux.pstate = .idle) (hu : s.demux.unk = []) (hrx : s.env.rx = [])
    (hreads : s.env.reads = .got n :: ds) (hp : p.length ≤ 4096) (hn : 10 + p.length ≤ min n s.params.readMax)
    (hi : frameParts i = some (m, p, ck)) (hck : ck = checksum m.cls m.id p) :
    ∃ u, exec i s = .next u.goOn ∧
      s.HasRead u (.casicPacket m p s.atRead.readNow.1 (frameBytes m p ck)) ds := by
  have hpack : frameBytes m p ck = pack m.cls m.id p := by rw [hck]; rfl
  rw [exec_frame hi, State.deliver_eq s m p ck (by omega), hpack]
  have hlen : (pack m.cls m.id p).length ≤ min n s.params.readMax := by rw [pack_length]; exact hn
  have hnext : (s.arrive (pack m.cls m.id p)).ReadsNext := by
    refine ⟨h.1, h.2.1, h.2.2.imp id fun ht => ?_⟩
    rw [State.arrive_readNow]; exact ht
  have htake : (s.arrive (pack m.cls m.id p)).env.rx.take (min n (s.arrive (pack m.cls m.id p)).params.readMax)
      = pack m.cls m.id p := by
    rw [State.arrive_env, hrx]; exact List.take_of_length_le hlen
  obtain ⟨hevq, hps, hacc, hunk⟩ := State.afterRead_frame (s := s.arrive _) h.2.1 hd hu hp htake ds
  rw [State.arrive_atRead, State.arrive_readNow] at hevq
  have hgo := State.goOn_got (s := s.arrive (pack m.cls m.id p)) h.1 (.inr hnext) hreads
  refine ⟨_, congrArg _ hgo, rfl, hevq, hps, hacc, hunk, ?_, by simp, by simp, by simp⟩
  have hdrop : (pack m.cls m.id p).drop (min n s.params.readMax) = [] := List.drop_of_length_le hlen
  simp only [State.afterRead, State.arrive_atRead, State.arrive_readNow, State.arrive_env, State.arrive_params, hrx,
    List.nil_append, hdrop]

/-- R224 W1: a wait that has read an answer ends with it. -/
theorem State.HasRead.answered {s u : State} {e : Event} {ds : List ReadDraw} {r : Result} (h : s.HasRead u e ds)
    (hs : s.arb.astate = .wait) (hc : classify s.arb e = some r) :
    u.goOn.arb.astate = .idle ∧ u.goOn.demux.evq = [] ∧ u.goOn.env.rx = [] ∧ u.goOn.env.reads = ds ∧
      u.goOn.out.tx = s.out.tx ∧ u.goOn.out.rsp = s.out.rsp ++ [r] := by
  have hans := State.goOn_one_answer (r := r) (by rw [h.arb]; exact hs) (by rw [h.arb]) h.evq (by rw [h.arb]; exact hc)
  exact ⟨hans.astate, hans.evq, by rw [hans.env, h.env], by rw [hans.env, h.env], by rw [hans.tx, h.out],
    by rw [hans.rsp, h.out]⟩

/-- Settles O41: the acknowledgement is read whole, and `Classify` finds the echo. -/
theorem echoingAckEndsTheWait : Obligations.EchoingAckEndsTheWait := by
  unfold Obligations.EchoingAckEndsTheWait
  intro s rest ck n ds h hd hu hrx hreads hlen hn
  have hp : (s.arb.pendClass :: s.arb.pendId :: rest).length ≤ 4096 := by simp only [List.length_cons]; omega
  have hmin : 10 + (s.arb.pendClass :: s.arb.pendId :: rest).length ≤ min n s.params.readMax := by
    simp only [List.length_cons]; omega
  refine ⟨fun ho hck => ?_, fun ho hck => ?_⟩
  · obtain ⟨u, he, hread⟩ := exec_frame_read (i := .ackAck _ ck) h hd hu hrx hreads hp hmin rfl hck
    exact ⟨_, he, hread.answered h.1 (classify_echoAck ho ⟨rest, _, _, rfl⟩)⟩
  · obtain ⟨u, he, hread⟩ := exec_frame_read (i := .ackNak _ ck) h hd hu hrx hreads hp hmin rfl hck
    exact ⟨_, he, hread.answered h.1 (classify_echoNak ho ⟨rest, _, _, rfl⟩)⟩

/-- Settles O43: the reply is read whole; it is no echoing NAK, so it is the answer. -/
theorem replyEndsThePoll : Obligations.ReplyEndsThePoll := by
  unfold Obligations.ReplyEndsThePoll
  intro s i m p ck n ds h ho hd hu hrx hreads hi hm hp hn hck hnak
  obtain ⟨u, he, hread⟩ := exec_frame_read h hd hu hrx hreads hp hn hi hck
  subst hm
  refine ⟨_, he, hread.answered h.1 (classify_reply ho ?_)⟩
  rintro ⟨rest, ts, raw, hecho⟩
  obtain ⟨hid, rfl, -, -⟩ : _ ∧ _ ∧ _ ∧ _ := by simpa using hecho
  exact hnak ⟨by simp [MsgId.ackNak, hid], by simp [hid]⟩

/-- Settles O42: the acknowledgement is read whole and is no answer, so the wait goes on with it popped and logged. -/
theorem foreignAckIsDiscarded : Obligations.ForeignAckIsDiscarded := by
  unfold Obligations.ForeignAckIsDiscarded
  intro s m p ck i n ds h hd hu hrx hreads hp hn htake hi hck hop
  have hparts : frameParts i = some (m, p, ck) := by rcases hi with ⟨rfl, rfl⟩ | ⟨rfl, rfl⟩ <;> rfl
  obtain ⟨u, he, hread⟩ := exec_frame_read h hd hu hrx hreads hp hn hparts hck
  have hecho : ∀ k ts raw, ¬ IsEcho k s.arb.pendClass s.arb.pendId (.casicPacket m p ts raw) := by
    rintro k ts raw ⟨rest, _, _, heq⟩
    cases heq
    exact htake rfl
  have hnone : classify s.arb (.casicPacket m p s.atRead.readNow.1 (frameBytes m p ck)) = none := by
    rcases hop with ho | ⟨ho, hm⟩
    · exact classify_ack_none ho ⟨hecho 1 _ _, hecho 0 _ _⟩
    · exact classify_poll_none ho ⟨hecho 0 _ _, fun q ts raw heq => hm (by cases heq; rfl)⟩
  generalize hev : Event.casicPacket m p s.atRead.readNow.1 (frameBytes m p ck) = e at hread hnone
  have hpacket : e.isPacket = true := by rw [← hev]; rfl
  have hgo : u.goOn = (u.popAll [e] []).goOn := by
    rw [State.goOn_discard (s := u) (by rw [hread.arb]; exact h.1) (by rw [hread.arb]) ?_, hread.evq]
    rw [hread.evq, hread.arb]
    exact fun x hx => by rw [List.mem_singleton.1 hx]; exact hnone
  rw [he, hgo]
  refine ⟨⟨_, rfl, ?_, rfl, hread.pstate, hread.acc, hread.unk, hread.env, hread.params, hread.ports, ?_⟩,
    fun ds' hds ht => ?_⟩
  · simp [hread.arb, hpacket]
  · simp [State.popAll, hread.arb, hread.params, hread.out]
  · have hnext : (u.popAll [e] []).ReadsNext := by
      refine ⟨by simp [hread.arb, h.1], rfl, .inr ?_⟩
      simp only [State.readNow_eq, State.popAll_env, State.popAll_arb, hread.arb, hread.env] at ht ⊢
      exact ht
    have hpause : (u.popAll [e] []).env.reads = .pause :: ds' := by simp [hread.env, hds]
    rw [State.goOn_pause hnext.1 (.inr hnext) hpause]
    exact ⟨_, rfl, by simp [hread.arb, h.1], by simp [hread.arb], by simp [hread.arb], by simp, by simp [hread.pstate],
      by simp [hread.out], by simp [hread.env]⟩

end Sys2Proof.Machine
end

section
/-! PROOFS. The faults and the transmit port over a step: `A_FAULT` and `S_TRANSPORT` come together (O51), and a frame's
bytes go out once (O55). -/

namespace Sys2Proof.Machine

/-! ### `A_FAULT` and `S_TRANSPORT` -/

/-- R237, R333: a step faults with `S_TRANSPORT`, or does not fault and delivers nothing or another result. -/
inductive State.FaultEffect (s t : State) : Prop where
  | faulted : t.arb.astate = .fault → t.out.rsp = s.out.rsp ++ [transportResult] → FaultEffect s t
  | quiet : t.arb.astate ≠ .fault → t.out.rsp = s.out.rsp → FaultEffect s t
  | answered (r : Result) : t.arb.astate ≠ .fault → r.status ≠ .transport → t.out.rsp = s.out.rsp ++ [r] →
      FaultEffect s t

theorem State.FaultEffect.iff {s t : State} (h : s.FaultEffect t) :
    t.arb.astate = .fault ↔ t.out.rsp = s.out.rsp ++ [transportResult] := by
  cases h with
  | faulted ha hr => exact ⟨fun _ => hr, fun _ => ha⟩
  | quiet ha hr => exact ⟨fun h => absurd h ha, fun h => by rw [hr] at h; simp at h⟩
  | answered r ha hst hr =>
    refine ⟨fun h => absurd h ha, fun h => ?_⟩
    rw [hr, List.append_cancel_left_eq, List.singleton_inj] at h
    exact absurd (by rw [h]; rfl) hst

/-- The effect depends on the results before alone. -/
theorem State.FaultEffect.of_rsp {u s t : State} (h : u.FaultEffect t) (hr : u.out.rsp = s.out.rsp) :
    s.FaultEffect t := by
  cases h with
  | faulted ha h => exact .faulted ha (hr ▸ h)
  | quiet ha h => exact .quiet ha (hr ▸ h)
  | answered r ha hst h => exact .answered r ha hst (hr ▸ h)

/-- R227 to R230: no event is answered with `S_TRANSPORT`. -/
theorem classify_status {a : Arbiter} {e : Event} {r : Result} (h : classify a e = some r) : r.status ≠ .transport := by
  unfold classify at h
  split at h
  · cases h; cases e <;> nofun
  split at h
  · cases e <;> cases h; nofun
  split at h
  · cases e with
    | casicPacket m p ts raw =>
      simp only [classifyAck] at h
      split at h
      · cases h; nofun
      · split at h <;> cases h; nofun
    | nmeaSentence => cases h
    | unknownBytes => cases h
  split at h
  · cases e with
    | casicPacket m p ts raw =>
      simp only [classifyPoll] at h
      split at h
      · cases h; nofun
      · split at h <;> cases h; nofun
    | nmeaSentence => cases h
    | unknownBytes => cases h
  · cases h

/-- R224: W1 and W2 end a wait with another result than `S_TRANSPORT`. -/
theorem State.beforeRead_faultEffect {s t : State} (h : s.beforeRead = (true, t)) : s.FaultEffect t := by
  rcases s.beforeRead_cases with ⟨_, hb⟩ | ⟨_, _, _, _, r, _, _, hc, hb⟩ | ⟨_, _, _, hb⟩ | ⟨_, _, _, hb⟩ <;>
    rw [hb] at h <;> cases h
  · exact .answered r nofun (classify_status hc) rfl
  · exact .answered timeoutResult nofun nofun (by simp)

/-- R224, R237: a wait faults only by a read that fails. -/
theorem State.waitLoop_faultEffect {s : State} (ds : List ReadDraw) (hs : s.arb.astate = .wait) :
    s.FaultEffect (State.waitLoop ds s) := by
  have hrun := State.waitLoop_run ds s
  generalize State.waitLoop ds s = u at hrun
  induction hrun with
  | ended hb => exact State.beforeRead_faultEffect hb
  | lastRead hb =>
    obtain ⟨sv, ha, hr⟩ := State.beforeRead_goes hb
    exact .quiet (by rw [State.readReturns_arb, ha]; simp [hs]) (by rw [State.readReturns_out, hr])
  | failed hb =>
    obtain ⟨sv, -, hr⟩ := State.beforeRead_goes hb
    exact .faulted rfl (by rw [State.transportError_out, ← hr])
  | paused hb =>
    obtain ⟨sv, ha, hr⟩ := State.beforeRead_goes hb
    exact .quiet (by simp [ha, hs]) hr
  | again hb _ ih =>
    obtain ⟨sv, ha, hr⟩ := State.beforeRead_goes hb
    exact (ih (by rw [State.readReturns_arb, ha]; exact hs)).of_rsp (by rw [State.readReturns_out, hr])

theorem State.startWait_faultEffect (s : State) : s.FaultEffect s.startWait := by
  obtain ⟨u, dl, he, ha, hout, -⟩ := s.startWait_eq
  rw [he]
  exact (State.waitLoop_faultEffect _ (by rw [ha])).of_rsp (by rw [hout])

theorem State.transmit_faultEffect {s : State} (hs : s.arb.astate = .tx) : s.FaultEffect s.transmit := by
  have hout := s.transmit_outcome
  generalize s.transmit = t at hout
  cases hout with
  | sending n ha _ hr _ => exact .quiet (by simp [ha, hs]) hr
  | failed ha hr _ => exact .faulted (by rw [ha]) hr
  | sent u ht _ hr _ =>
    subst ht
    unfold State.afterSend
    split
    · exact u.startWait_faultEffect.of_rsp hr
    · exact .answered okResult nofun nofun (by rw [State.finish_out, hr])

theorem State.goOn_faultEffect {s : State} (hs : s.arb.astate ≠ .fault) : s.FaultEffect s.goOn := by
  unfold State.goOn
  split
  next ha => exact .quiet (by simp [ha]) rfl
  next ha => exact absurd ha hs
  next ha => exact State.transmit_faultEffect ha
  next ha => exact State.waitLoop_faultEffect _ ha

theorem State.ExecEffect.faultEffect {s t : State} {i : Instr} (h : s.ExecEffect i t) (hs : s.arb.astate ≠ .fault) :
    s.FaultEffect t := by
  cases h with
  | refused _ _ => exact .answered refusedResult hs nofun rfl
  | held _ _ => exact (State.goOn_faultEffect (s := s.withPorts (requeue _ s.ports)) hs).of_rsp rfl
  | @sends d _ _ => exact (State.transmit_faultEffect (s := (s.takeOp opSend d).sending d) rfl).of_rsp rfl
  | @asks i op d _ _ _ =>
    exact (State.transmit_faultEffect (s := ((s.takeOp op d).setPending d).sending d) rfl).of_rsp rfl
  | receives _ _ => exact (State.startWait_faultEffect (State.takeOp s _ _)).of_rsp rfl
  | arrives _ _ => exact (State.goOn_faultEffect (s := s.arrive _) hs).of_rsp rfl
  | tested _ _ ht => exact .quiet (by rw [ht.arb]; exact hs) (by rw [ht.out])

/-- Settles O51, by what each step does; `rst` neither faults nor delivers. -/
theorem onlyTransportErrorsFault : Obligations.OnlyTransportErrorsFault := by
  unfold Obligations.OnlyTransportErrorsFault
  intro s t hs h
  refine State.FaultEffect.iff ?_
  cases h.effect with
  | reset _ => exact .quiet nofun rfl
  | goesOn _ => exact State.goOn_faultEffect hs
  | @runs f bs ps i t _ _ _ he => exact (he.faultEffect (s := { s with ports := ps }) hs).of_rsp rfl

/-! ### The transmit port -/

theorem State.beforeRead_tx (s : State) : s.beforeRead.2.out.tx = s.out.tx := by
  rcases s.beforeRead_cases with ⟨_, h⟩ | ⟨_, pre, e, es, r, _, _, _, h⟩ | ⟨_, _, _, h⟩ | ⟨_, _, _, h⟩ <;> rw [h] <;>
    simp

/-- R224, R234: a wait sends nothing. -/
theorem State.waitLoop_tx (ds : List ReadDraw) (s : State) : (State.waitLoop ds s).out.tx = s.out.tx :=
  State.waitLoop_rel (R := fun s t => t.out.tx = s.out.tx) (fun h k => k.trans h) State.beforeRead_tx
    (fun _ _ _ => by rw [State.readReturns_out]) (fun _ _ => rfl) (fun _ _ => rfl) ds s

theorem State.startWait_tx (s : State) : s.startWait.out.tx = s.out.tx := by
  obtain ⟨u, dl, he, -, hout, -⟩ := s.startWait_eq
  rw [he, State.waitLoop_tx, hout]

/-- R222, R229, R230: what follows a sent frame sends nothing. -/
theorem State.afterSend_tx (s : State) : s.afterSend.out.tx = s.out.tx := by
  unfold State.afterSend
  split
  · exact s.startWait_tx
  · rfl

theorem State.goOn_tx {s : State} (hs : s.arb.astate ≠ .tx) : s.goOn.out.tx = s.out.tx := by
  unfold State.goOn
  split
  · rfl
  · rfl
  next ha => exact absurd ha hs
  · exact State.waitLoop_tx _ s

/-- R64, R232: outside `A_TX` only a sending command taken in `A_IDLE` sends. -/
theorem State.ExecEffect.tx {s t : State} {i : Instr} (h : s.ExecEffect i t) (hs : s.arb.astate ≠ .tx)
    (hi : s.arb.astate = .idle → ∀ d, i ≠ .send d ∧ i ≠ .sendAndWaitAck d ∧ i ≠ .poll d) : t.out.tx = s.out.tx := by
  cases h with
  | refused _ _ => rfl
  | held _ _ => exact State.goOn_tx (s := { s with ports := _ }) hs
  | sends ha _ => exact absurd rfl (hi ha _).1
  | asks ha _ hop =>
    rcases hop with ⟨rfl, -⟩ | ⟨rfl, -⟩
    · exact absurd rfl (hi ha _).2.1
    · exact absurd rfl (hi ha _).2.2
  | receives _ _ => exact State.startWait_tx _
  | arrives _ _ => exact State.goOn_tx (s := s.arrive _) hs
  | tested _ _ ht => rw [ht.out]

/-- R47: what is left of `TXBUF` once some of what was left has gone out. -/
theorem State.handOver_unsent (s : State) (k : Nat) : (s.handOver (s.unsent.take k)).unsent = s.unsent.drop k := by
  have hdrop : s.unsent.drop (s.unsent.take k).length = s.unsent.drop k := by
    rw [List.length_take]
    rcases Nat.le_total k s.unsent.length with h | h
    · rw [Nat.min_eq_left h]
    · rw [Nat.min_eq_right h, List.drop_length, List.drop_of_length_le h]
  rw [← hdrop]
  simp [State.unsent, List.drop_drop]

theorem State.handOver_all (s : State) : (s.handOver s.unsent).unsent = [] := by
  have h := s.handOver_unsent s.unsent.length
  rwa [List.take_length, List.drop_length] at h

/-- R13, R64: what `PortWrite` sends: a first part of what is left when it fails or does not return, else all of it. -/
inductive State.WriteSends (s : State) : TxOutcome → Prop where
  | failed (k : Nat) (u : State) : u.out.tx = s.out.tx ++ (s.unsent.take k).map .byte → WriteSends s (.failed u)
  | blocked (k : Nat) (u : State) : u.out.tx = s.out.tx ++ (s.unsent.take k).map .byte → u.unsent = s.unsent.drop k →
      WriteSends s (.blocked u)
  | done (u : State) : u.out.tx = s.out.tx ++ s.unsent.map .byte → u.unsent = [] → WriteSends s (.done u)

theorem State.portWrite_sends (s : State) : s.WriteSends s.portWrite := by
  have h := s.portWrite_effect
  generalize s.portWrite = o at h
  cases h with
  | nothingLeft hu => exact .done s (by rw [hu]; simp) hu
  | whole ws _ _ => exact .done _ rfl (State.handOver_all { s with env := { s.env with writes := ws } })
  | failed k ws _ _ => exact .failed k _ rfl
  | blocked k ws _ _ => exact .blocked k _ rfl (State.handOver_unsent { s with env := { s.env with writes := ws } } k)

/-- R223: a frame that is out is logged once, and what follows it logs no sent frame. -/
theorem State.logSent_afterSend_once (s : State) : ∃ recs : List LogRecord,
    s.logSent.afterSend.out.log = s.out.log ++ recs.map LogRecord.entry ∧
    recs.countP LogRecord.isSent = if s.params.logSink then 1 else 0 := by
  cases hl : s.params.logSink with
  | true =>
    obtain ⟨recs, hlog, hrecs⟩ := s.logSent_afterSend_logsSentFirst hl
    refine ⟨_, hlog, ?_⟩
    have hnone : recs.countP LogRecord.isSent = 0 :=
      List.countP_eq_zero.2 fun r hr => by rw [hrecs r hr]; exact Bool.false_ne_true
    rw [List.countP_cons, hnone]; rfl
  | false =>
    obtain ⟨_, _, _, _, _, _, _, _, _, _, _, recs, hlog, -⟩ := s.logSent_extends.trans s.logSent.afterSend_extends
    exact ⟨[], by simpa [hl] using hlog, rfl⟩

/-- R223, R64, R232: a transmission under way sends what is left of its frame. -/
theorem State.transmit_sendsRest {s : State} (hs : s.arb.astate = .tx) :
    s.SendsRest s.transmit s.arb.txbuf s.unsent := by
  have hw := s.portWrite_sends
  have hsame := s.portWrite_sameSending
  unfold State.transmit
  generalize s.portWrite = o at hw hsame
  cases hw with
  | failed k u htx => exact ⟨nofun, fun _ => .inl ⟨rfl, hsame.log, k, htx⟩⟩
  | blocked k u htx hun =>
    exact ⟨fun _ => ⟨k, htx, hun, hsame.txbuf, hsame.log⟩, fun hn => absurd (hsame.astate.trans hs) hn⟩
  | done u htx hun =>
    have hwhole : u.out.tx = s.out.tx ++ (s.unsent.take s.unsent.length).map .byte := by rw [List.take_length, htx]
    have hflush := u.portFlush_sameSending
    rcases u.portFlush_cases with ⟨ws, -, he⟩ | ⟨k, ws, -, he⟩ | ⟨k, ws, -, he⟩
    · rw [he] at hflush
      simp only [he]
      have hall := hsame.trans hflush
      refine ⟨fun ht => absurd ht (State.afterSend_not_tx _), fun _ => .inr ⟨?_, ?_⟩⟩
      · rw [State.afterSend_tx]
        simp [State.logSent, htx]
      · have hlog := State.logSent_afterSend_once (TxOutcome.state (.done { u with
          env := { u.env with writes := ws }, out := { u.out with tx := u.out.tx ++ [.flush] } }))
        rw [hall.log, hall.params] at hlog
        exact hlog
    · simp only [he]
      exact ⟨nofun, fun _ => .inl ⟨rfl, hsame.log, _, hwhole⟩⟩
    · simp only [he]
      exact ⟨fun _ => ⟨_, hwhole, by rw [List.drop_length]; exact hun, hsame.txbuf, hsame.log⟩,
        fun hn => absurd (hsame.astate.trans hs) hn⟩

/-- What a transmission sends depends on the transmit port, the log and the sink before alone. -/
theorem State.SendsRest.of_eq {u s t : State} {bs rest : Bytes} (h : u.SendsRest t bs rest) (ho : u.out = s.out)
    (hp : u.params = s.params) : s.SendsRest t bs rest := by
  simpa only [State.SendsRest, ho, hp] using h

/-- R146: a sending command is answered only where its payload has a length field. -/
theorem length_le_of_exec_sends {d : Descriptor} {s t : State} {i : Instr}
    (hi : i = .send d ∨ i = .sendAndWaitAck d ∨ i = .poll d) (hs : s.arb.astate = .idle) (h : exec i s = .next t) :
    d.payload.length ≤ 65535 := by
  rcases hi with rfl | rfl | rfl <;> exact (next_of_lengthFits ((State.accept_idle hs _ _).symm.trans h)).1

/-- Settles O55: what a transmission sends, in the step that takes the command and in a later one; nothing else does. -/
theorem nothingIsSentTwice : Obligations.NothingIsSentTwice := by
  unfold Obligations.NothingIsSentTwice
  refine ⟨fun i s t hs h => ⟨fun d hi => ?_, fun hi => ?_⟩, fun s t _ hs hr h => ?_, fun s t hs h => ?_⟩
  · obtain ⟨op, pc, pi, he⟩ := exec_sends hi hs (length_le_of_exec_sends hi hs h)
    rw [he] at h
    cases h
    exact (State.transmit_sendsRest (s := (s.latch op d.timeout pc pi).sending d) rfl).of_eq rfl rfl
  · exact (exec_effect h).tx (by simp [hs]) fun _ => hi
  · have goesOn : ∀ u : State, u.arb = s.arb → u.out = s.out → u.params = s.params →
        s.SendsRest u.goOn s.arb.txbuf s.unsent := fun u ha ho hp => by
      have hu : u.arb.astate = .tx := by rw [ha, hs]
      have hgo : u.goOn = u.transmit := by simp only [State.goOn, hu]
      have hsend := (State.transmit_sendsRest hu).of_eq ho hp
      unfold State.unsent at hsend
      rw [hgo]; rw [ha] at hsend; exact hsend
    cases h.effect with
    | reset hp => exact absurd hp (hr _)
    | goesOn _ => exact goesOn s rfl rfl rfl
    | @runs f bs ps i t _ _ _ he =>
      cases he with
      | refused _ hp => simp [hs] at hp
      | held _ _ => exact goesOn { s with ports := _ } rfl rfl rfl
      | sends hp _ => simp [hs] at hp
      | asks hp _ _ => simp [hs] at hp
      | receives hp _ => simp [hs] at hp
      | arrives _ _ => exact goesOn (State.arrive { s with ports := ps } _) rfl rfl rfl
      | tested _ _ ht =>
        have ha : t.arb = s.arb := ht.arb
        have ho : t.out = { s.out with test := t.out.test } := ht.out
        exact ⟨fun _ => ⟨0, by rw [ho]; simp, by rw [State.unsent, ha]; rfl, by rw [ha], by rw [ho]⟩,
          fun hn => absurd (by rw [ha, hs]) hn⟩
  · have hntx : s.arb.astate ≠ .tx := by rcases hs with hs | hs <;> simp [hs]
    have hnidle : s.arb.astate ≠ .idle := by rcases hs with hs | hs <;> simp [hs]
    cases h.effect with
    | reset _ => rfl
    | goesOn _ => exact State.goOn_tx hntx
    | @runs f bs ps i t _ _ _ he => exact he.tx (s := { s with ports := ps }) hntx fun ha => absurd ha hnidle

end Sys2Proof.Machine
end

section
/-! PROOFS. The payload layouts of R100 to R109, as the host reads and writes them (O15). A layout is read field by
field at its offsets, its fields written back are the bytes they stand in, and the bytes of two structures of one kind
are the same only where every field is. -/

namespace Sys2Proof.Machine

/-! ### Fields of a payload -/

section
variable (p : Bytes) (k : Nat)

/-- R11: a number in two parts, the low one of `n` bits. -/
theorem toNat_append_low {m n : Nat} (hi : BitVec m) (lo : BitVec n) :
    (hi ++ lo).toNat = lo.toNat + 2 ^ n * hi.toNat := by
  rw [BitVec.toNat_append, ← Nat.shiftLeft_add_eq_or_of_lt lo.isLt, Nat.shiftLeft_eq, Nat.mul_comm, Nat.add_comm]

theorem toNat_u16At : (u16At p k).toNat = memRead16 p k := toNat_append_low _ _

theorem toNat_u32At : (u32At p k).toNat = memRead32 p k := by
  rw [u32At, toNat_append_low, toNat_u16At, toNat_u16At]
  simp only [memRead16, memRead32, le16, le32, Nat.add_assoc, Nat.reduceAdd]
  omega

theorem toNat_u64At : (u64At p k).toNat = memRead64 p k := by
  rw [u64At, toNat_append_low, toNat_u32At, toNat_u32At, memRead64]

/-- R67: the model's field readers are the little-endian fields at their offsets. -/
theorem field16_eq_u16At : field16 p k = u16At p k := by
  rw [field16, ← toNat_u16At, BitVec.ofNat_toNat, BitVec.setWidth_eq]

theorem field32_eq_u32At : field32 p k = u32At p k := by
  rw [field32, ← toNat_u32At, BitVec.ofNat_toNat, BitVec.setWidth_eq]

theorem field64_eq_u64At : field64 p k = u64At p k := by
  rw [field64, ← toNat_u64At, BitVec.ofNat_toNat, BitVec.setWidth_eq]

end

/-! ### A field written back is the slice it was read from -/

section
variable {p : Bytes} {k : Nat}

theorem bytesLe16_u16At (h : k + 2 ≤ p.length) : bytesLe16 (u16At p k).toNat = slice p k (k + 2) := by
  rw [toNat_u16At, bytesLe16_memRead16 h]

theorem bytesLe32_u32At (h : k + 4 ≤ p.length) : bytesLe32 (u32At p k).toNat = slice p k (k + 4) := by
  rw [toNat_u32At, bytesLe32_memRead32 h]

theorem bytesLe64_u64At (h : k + 8 ≤ p.length) : bytesLe64 (u64At p k).toNat = slice p k (k + 8) := by
  rw [toNat_u64At, bytesLe64_memRead64 h]

/-- R11: bytes listed one by one, from the last to the first. -/
theorem byteAt_singleton (h : k + 1 ≤ p.length) : [byteAt p k] = slice p k (k + 1) := by
  rw [slice_cons (by omega) h, slice_self]

theorem byteAt_cons_slice {j : Nat} (hj : k < j) (h : k < p.length) : byteAt p k :: slice p (k + 1) j = slice p k j :=
  (slice_cons hj h).symm

/-- R101, R109: a run of `n` bytes. -/
theorem toList_fieldBytes {n : Nat} (h : k + n ≤ p.length) : (fieldBytes p k n).toList = slice p k (k + n) := by
  apply List.ext_getElem
  · rw [Vector.length_toList, slice_length p k (k + n) h, Nat.add_sub_cancel_left]
  · intro i hi _
    rw [Vector.length_toList] at hi
    have hi' : k + i < p.length := by omega
    simp [fieldBytes, slice, byteAt, hi']

/-- R11: the first bytes are a slice. -/
theorem slice_zero (p : Bytes) (n : Nat) : slice p 0 n = p.take n := rfl

end

/-! ### The bytes of a field determine it -/

theorem bytesLe16_inj {v w : BitVec 16} : bytesLe16 v.toNat = bytesLe16 w.toNat ↔ v = w := by
  refine ⟨fun h => BitVec.eq_of_toNat_eq ?_, fun h => h ▸ rfl⟩
  have hread : ∀ u : BitVec 16, memRead16 (bytesLe16 u.toNat) 0 = u.toNat := fun u => le16_byteOf _ u.isLt
  rw [← hread v, h, hread]

theorem bytesLe32_inj {v w : BitVec 32} : bytesLe32 v.toNat = bytesLe32 w.toNat ↔ v = w := by
  refine ⟨fun h => BitVec.eq_of_toNat_eq ?_, fun h => h ▸ rfl⟩
  rw [← memRead32_bytesLe32 _ v.isLt [], h, memRead32_bytesLe32 _ w.isLt]

theorem bytesLe64_inj {v w : BitVec 64} : bytesLe64 v.toNat = bytesLe64 w.toNat ↔ v = w := by
  refine ⟨fun h => BitVec.eq_of_toNat_eq ?_, fun h => h ▸ rfl⟩
  rw [← bytesLe64_append_memRead64 _ v.isLt [], h, bytesLe64_append_memRead64 _ w.isLt]

/-- Two sequences whose first parts have one length are equal where their parts are. -/
theorem append_inj_iff {s s' t t' : Bytes} (h : s.length = s'.length) : s ++ t = s' ++ t' ↔ s = s' ∧ t = t' :=
  ⟨fun heq => List.append_inj heq h, fun ⟨hs, ht⟩ => congrArg₂ _ hs ht⟩

section
variable {s t : Bytes}

theorem bytesLe16_append_inj {v w : BitVec 16} : bytesLe16 v.toNat ++ s = bytesLe16 w.toNat ++ t ↔ v = w ∧ s = t := by
  rw [append_inj_iff (by simp), bytesLe16_inj]

theorem bytesLe32_append_inj {v w : BitVec 32} : bytesLe32 v.toNat ++ s = bytesLe32 w.toNat ++ t ↔ v = w ∧ s = t := by
  rw [append_inj_iff (by simp), bytesLe32_inj]

theorem bytesLe64_append_inj {v w : BitVec 64} : bytesLe64 v.toNat ++ s = bytesLe64 w.toNat ++ t ↔ v = w ∧ s = t := by
  rw [append_inj_iff (by simp), bytesLe64_inj]

theorem toList_append_inj {n : Nat} {v w : Vector Byte n} : v.toList ++ s = w.toList ++ t ↔ v = w ∧ s = t := by
  rw [append_inj_iff (by simp), Vector.toList_inj]

end

/-! ### The layouts -/

/-- R99 to R109: the identifiers that have a layout, the size of each, and what a payload reads as under it, each field
at its offset. -/
inductive PayloadLayout (p : Bytes) : MsgId → Nat → Payload → Prop where
  | ackNak : PayloadLayout p .ackNak 2 (.ack (byteAt p 0) (byteAt p 1))
  | ackAck : PayloadLayout p .ackAck 2 (.ack (byteAt p 0) (byteAt p 1))
  | monVer : PayloadLayout p .monVer 64 (.monVer (fieldBytes p 0 32) (fieldBytes p 32 32))
  | cfgPrt : PayloadLayout p .cfgPrt 8 (.cfgPrt (byteAt p 0) (byteAt p 1) (u16At p 2) (u32At p 4))
  | cfgMsg : PayloadLayout p .cfgMsg 4 (.cfgMsg (byteAt p 0) (byteAt p 1) (u16At p 2))
  | cfgRst : PayloadLayout p .cfgRst 4 (.cfgRst (u16At p 0) (byteAt p 2) (byteAt p 3))
  | cfgTp : PayloadLayout p .cfgTp 16
      (.cfgTp (u32At p 0) (u32At p 4) (byteAt p 8) (byteAt p 9) (byteAt p 10) (byteAt p 11) (u32At p 12))
  | cfgRate : PayloadLayout p .cfgRate 4 (.cfgRate (u16At p 0) (u16At p 2))
  | cfgCfg : PayloadLayout p .cfgCfg 4 (.cfgCfg (u16At p 0) (byteAt p 2) (byteAt p 3))
  | cfgTmode : PayloadLayout p .cfgTmode 40
      (.cfgTmode (u16At p 0) (u16At p 2) (u64At p 4) (u64At p 12) (u64At p 20) (u32At p 28) (u32At p 32) (u32At p 36))
  | cfgNavx : PayloadLayout p .cfgNavx 44
      (.cfgNavx (fieldBytes p 0 16) (u32At p 16) (u32At p 20) (u32At p 24) (u32At p 28) (u32At p 32) (u32At p 36)
        (u32At p 40))

section
variable {p : Bytes} {m : MsgId} {n : Nat} {f g : Payload}

/-- R99: the size of a layout is the one the table gives its identifier. -/
theorem PayloadLayout.size (h : PayloadLayout p m n f) : payloadSize m = some n := by
  cases h <;> rfl

theorem PayloadLayout.fields (h : PayloadLayout p m n f) : payloadFields m p = some f := by
  simp only [payloadFields, field16_eq_u16At, field32_eq_u32At, field64_eq_u64At]
  cases h <;> rfl

/-- R285: a payload that is long enough is read by its layout. -/
theorem PayloadLayout.decode (h : PayloadLayout p m n f) (hn : n ≤ p.length) : decodePayload m p = some f := by
  simp only [decodePayload, h.size, if_neg (Nat.not_lt.2 hn), h.fields]

/-- R99: every identifier with a size has a layout. -/
theorem exists_payloadLayout (h : payloadSize m = some n) (p : Bytes) : ∃ f, PayloadLayout p m n f := by
  unfold payloadSize at h
  split_ifs at h with hack hver hprt hfour htp htmode hnavx <;> cases h
  · obtain rfl | rfl := hack
    exacts [⟨_, .ackNak⟩, ⟨_, .ackAck⟩]
  · exact hver ▸ ⟨_, .monVer⟩
  · exact hprt ▸ ⟨_, .cfgPrt⟩
  · obtain rfl | rfl | rfl | rfl := hfour
    exacts [⟨_, .cfgMsg⟩, ⟨_, .cfgRst⟩, ⟨_, .cfgRate⟩, ⟨_, .cfgCfg⟩]
  · exact htp ▸ ⟨_, .cfgTp⟩
  · exact htmode ▸ ⟨_, .cfgTmode⟩
  · exact hnavx ▸ ⟨_, .cfgNavx⟩

/-- R285: the fields of a layout meet without a gap, so that written back they are the payload's first bytes. -/
theorem PayloadLayout.encode (h : PayloadLayout p m n f) (hn : n ≤ p.length) : encodePayload f = p.take n := by
  rw [← slice_zero]
  cases h <;> simp (disch := omega) only [encodePayload, bytesLe16_u16At, bytesLe32_u32At, bytesLe64_u64At,
    byteAt_singleton, byteAt_cons_slice, toList_fieldBytes, slice_append_slice, Nat.reduceAdd, Nat.zero_add]

/-- R285: a structure is what its own bytes read as, where (`hinj`) the bytes determine the structure among
those of its kind. -/
theorem PayloadLayout.reads_back (hg : PayloadLayout (encodePayload f) m n g) (hn : (encodePayload f).length = n)
    (hinj : encodePayload g = encodePayload f → g = f) : PayloadLayout (encodePayload f) m (encodePayload f).length f := by
  have hbytes : encodePayload g = encodePayload f := by rw [hg.encode hn.ge, ← hn, List.take_length]
  rw [hn]
  exact hinj hbytes ▸ hg

end

/-- R285: every structure is the layout of its own bytes, and their number is its size. -/
theorem encodePayload_layout (f : Payload) : ∃ m, PayloadLayout (encodePayload f) m (encodePayload f).length f := by
  cases f
  case ack => exact ⟨_, .ackNak⟩
  case' monVer => refine ⟨_, .reads_back .monVer (by simp [encodePayload]) fun h => ?_⟩
  case' cfgPrt => refine ⟨_, .reads_back .cfgPrt rfl fun h => ?_⟩
  case' cfgMsg => refine ⟨_, .reads_back .cfgMsg rfl fun h => ?_⟩
  case' cfgRst => refine ⟨_, .reads_back .cfgRst rfl fun h => ?_⟩
  case' cfgTp => refine ⟨_, .reads_back .cfgTp rfl fun h => ?_⟩
  case' cfgRate => refine ⟨_, .reads_back .cfgRate rfl fun h => ?_⟩
  case' cfgCfg => refine ⟨_, .reads_back .cfgCfg rfl fun h => ?_⟩
  case' cfgTmode => refine ⟨_, .reads_back .cfgTmode rfl fun h => ?_⟩
  case' cfgNavx => refine ⟨_, .reads_back .cfgNavx (by simp [encodePayload]) fun h => ?_⟩
  all_goals
    simpa [encodePayload, bytesLe16_inj, bytesLe32_inj, Vector.toList_inj, bytesLe16_append_inj, bytesLe32_append_inj,
      bytesLe64_append_inj, toList_append_inj] using h

/-- Settles O15: each payload and each structure by its layout. -/
theorem payloadLayoutsRoundTrip : Obligations.PayloadLayoutsRoundTrip := by
  unfold Obligations.PayloadLayoutsRoundTrip
  refine ⟨fun m p n hm => ⟨fun h => ?_, fun h => ?_⟩, fun f => ?_, fun p => ⟨fun h => ⟨?_, ?_⟩, fun h => ?_, fun h => ?_,
    fun h => ⟨?_, ?_, ?_, ?_⟩, fun h => ?_, fun h => ?_, fun h => ?_⟩⟩
  · simp only [decodePayload, hm, if_pos h]
  · obtain ⟨f, hf⟩ := exists_payloadLayout hm p
    exact ⟨f, hf.decode h, hf.encode h⟩
  · obtain ⟨m, hf⟩ := encodePayload_layout f
    exact ⟨m, hf.size, hf.decode le_rfl⟩
  · exact PayloadLayout.ackNak.decode h
  · exact PayloadLayout.ackAck.decode h
  · exact ⟨_, _, PayloadLayout.monVer.decode h, toList_fieldBytes (by omega), toList_fieldBytes h⟩
  · exact PayloadLayout.cfgPrt.decode h
  · exact PayloadLayout.cfgMsg.decode h
  · exact PayloadLayout.cfgRst.decode h
  · exact PayloadLayout.cfgRate.decode h
  · exact PayloadLayout.cfgCfg.decode h
  · exact PayloadLayout.cfgTp.decode h
  · exact PayloadLayout.cfgTmode.decode h
  · exact ⟨_, toList_fieldBytes (by omega), PayloadLayout.cfgNavx.decode h⟩

end Sys2Proof.Machine
end

section
/-! PROOFS. What the fault and the open parameters leave alone: a refused command (O44), `A_FAULT` until `rst` (O50), and a
step without its logs, into which no open parameter but `READ_MAX` enters (O59). -/

namespace Sys2Proof.Machine

/-! ### Commands refused, and `A_FAULT` -/

/-- R221, R336: in `A_FAULT` a command transaction is refused. -/
theorem exec_command_fault {i : Instr} {s : State} (hi : formatOf i = .cmd) (hs : s.arb.astate = .fault) :
    exec i s = .next (s.respond refusedResult) := by
  have hrefused : ∀ run, s.accept i run = .next (s.respond refusedResult) := fun run => by
    simp only [State.accept, hs]
  cases i <;> simp only [formatOf, reduceCtorEq] at hi <;> exact hrefused _

/-- Settles O44: in `A_FAULT` by the acceptance of any command, in `A_IDLE` by the reserved codes' own run. -/
theorem refusedCommandChangesNothing : Obligations.RefusedCommandChangesNothing := by
  unfold Obligations.RefusedCommandChangesNothing
  rintro i s (⟨hi, hs⟩ | ⟨⟨d, rfl | rfl | rfl⟩, hs⟩)
  · exact exec_command_fault hi hs
  · exact State.accept_idle hs _ _
  · exact State.accept_idle hs _ _
  · exact State.accept_idle hs _ _

/-- R333, R337, R338: what a block in `A_FAULT` keeps: it sends, reads and logs nothing, and the transport holds what has
arrived, `arr`, behind the rest. -/
structure State.StaysStill (s t : State) (arr : Bytes) : Prop where
  arb : t.arb = s.arb
  tx : t.out.tx = s.out.tx
  rx : t.env.rx = s.env.rx ++ arr
  reads : t.env.reads = s.env.reads
  writes : t.env.writes = s.env.writes
  log : t.out.log = s.out.log

theorem State.StaysStill.refl (s : State) : s.StaysStill s [] := ⟨rfl, rfl, (List.append_nil _).symm, rfl, rfl, rfl⟩

theorem State.TestAccess.staysStill {s t : State} (h : s.TestAccess t) : s.StaysStill t [] where
  arb := h.arb
  tx := by rw [h.out]
  rx := by rw [h.env, List.append_nil]
  reads := by rw [h.env]
  writes := by rw [h.env]
  log := by rw [h.out]

/-- R337: in `A_FAULT` a command is refused, a frame arrives with nothing that goes on, and the test access leaves the
arbiter's side alone. -/
theorem State.ExecEffect.staysStill {s t : State} {i : Instr} (h : s.ExecEffect i t) (hs : s.arb.astate = .fault) :
    s.StaysStill t (frameArrival i) := by
  cases h with
  | refused hc _ =>
    rw [frameArrival_none (frameParts_of_cmd hc)]
    exact ⟨rfl, rfl, (List.append_nil _).symm, rfl, rfl, rfl⟩
  | held _ hp => simp [hs] at hp
  | sends hp _ => simp [hs] at hp
  | asks hp _ _ => simp [hs] at hp
  | receives hp _ => simp [hs] at hp
  | arrives hf _ =>
    rw [frameArrival_row hf, State.goOn_rest (s := s.arrive _) (.inr hs)]
    exact ⟨rfl, rfl, rfl, rfl, rfl, rfl⟩
  | tested _ hf ht => rw [frameArrival_none hf]; exact ht.staysStill

/-- Settles O50: in `A_FAULT` nothing goes on, and no instruction moves more than what arrives. -/
theorem faultIsSticky : Obligations.FaultIsSticky := by
  unfold Obligations.FaultIsSticky
  intro s t hs hr h
  have hstill : s.StaysStill t (arrivingBytes s.ports) := by
    cases h.effect with
    | reset hp => exact absurd hp (hr _)
    | goesOn hp => rw [hp, State.goOn_rest (.inr hs)]; exact .refl s
    | runs hp hd _ he =>
      rw [hp, arrivingBytes_decode hd]
      obtain ⟨ha, htx, hrx, hrd, hw, hl⟩ := he.staysStill hs
      exact ⟨ha, htx, hrx, hrd, hw, hl⟩
  exact ⟨hstill.arb, hstill.tx, hstill.rx, hstill.reads, hstill.writes, hstill.log⟩

/-! ### The open parameters -/

/-- The state without either log, with both sinks absent and with every open parameter but `READ_MAX` set to zero. With no
sink nothing is logged, so every operation of the block commutes with this view: what the view drops enters nothing that
it keeps. -/
def State.silent (s : State) : State :=
  { s with
    params :=
      { readMaxLess1 := s.params.readMaxLess1, pollSlice := 0, tick := 0, tInitial := 0, tSubsequent := 0
        logSink := false, pktLogSink := false }
    out := { s.out with log := [], pktLog := [] } }

def TxOutcome.silent : TxOutcome → TxOutcome
  | .done s => .done s.silent
  | .blocked s => .blocked s.silent
  | .failed s => .failed s.silent

/-- An answer whose next state is seen without its logs. -/
def silentAnswer : Answer → Answer
  | .next s => .next s.silent
  | .fault r => .fault r
  | .refused r => .refused r

/-- D17: parameters with one `READ_MAX` give one silent state. -/
theorem State.silent_withParams {s : State} {q : Config.Params} (h : q.readMax = s.params.readMax) :
    State.silent { s with params := q } = s.silent := by
  have hq : q.readMaxLess1 = s.params.readMaxLess1 := Nat.succ.inj h
  simp only [State.silent, hq]

section
variable (s : State)

@[simp] theorem State.silent_demux : s.silent.demux = s.demux := rfl
@[simp] theorem State.silent_arb : s.silent.arb = s.arb := rfl
@[simp] theorem State.silent_env : s.silent.env = s.env := rfl
@[simp] theorem State.silent_ports : s.silent.ports = s.ports := rfl
@[simp] theorem State.silent_unsent : s.silent.unsent = s.unsent := rfl

theorem State.silent_readNow : s.silent.readNow = (s.readNow.1, s.readNow.2.silent) := by
  simp only [State.readNow, State.silent_env]
  split <;> rfl

theorem State.silent_takeStamp : s.silent.takeStamp = (s.takeStamp.1, s.takeStamp.2.silent) := by
  simp only [State.takeStamp, State.silent_env]
  split <;> rfl

/-! #### A wait -/

/-- R225, R346: with no sink present the records of popped events go nowhere. -/
theorem State.silent_popAll (popped rest : List Event) :
    s.silent.popAll popped rest = (s.popAll popped rest).silent := rfl

/-- R224: W1 and W2 look at no log and at no open parameter. -/
theorem State.silent_beforeRead : s.silent.beforeRead = (s.beforeRead.1, s.beforeRead.2.silent) := by
  have hnow := (s.popAll s.demux.evq []).silent_readNow
  rcases s.beforeRead_cases with ⟨hr, h⟩ | ⟨hr, pre, e, es, r, hq, hpre, he, h⟩ | ⟨hr, hnone, ht, h⟩ |
    ⟨hr, hnone, ht, h⟩ <;> rw [h]
  · simp only [State.beforeRead, State.silent_arb, hr, if_true]
  · rw [s.silent.beforeRead_answer pre es e r hr hq hpre he]; rfl
  · rw [s.silent.beforeRead_quiet hr hnone, State.silent_demux, State.silent_popAll, hnow]
    exact if_pos ht
  · rw [s.silent.beforeRead_quiet hr hnone, State.silent_demux, State.silent_popAll, hnow]
    exact if_neg (Nat.not_le.2 ht)

/-- D17, R66: a read is cut by `READ_MAX`, the one parameter that the silent state keeps. -/
theorem State.silent_readReturns (ds : List ReadDraw) (n : Nat) :
    s.silent.readReturns ds n = (s.readReturns ds n).silent := by
  simp only [State.readReturns, State.readAndFeed, State.readNow_eq]; rfl

theorem State.silent_waitLoop (ds : List ReadDraw) :
    State.waitLoop ds s.silent = (State.waitLoop ds s).silent := by
  have before : ∀ {s t : State} {b}, s.beforeRead = (b, t) → s.silent.beforeRead = (b, t.silent) :=
    fun {s t b} hb => by rw [State.silent_beforeRead, hb]
  have hrun := State.waitLoop_run ds s
  generalize State.waitLoop ds s = u at hrun
  induction hrun with
  | ended hb => exact State.waitLoop_done _ _ _ (before hb)
  | lastRead hb => rw [State.waitLoop_nil (before hb)]; exact State.silent_readReturns _ _ _
  | failed hb => exact State.waitLoop_fail (before hb) _
  | paused hb => exact State.waitLoop_pause (before hb) _
  | again hb _ ih => rw [State.waitLoop_got (before hb), State.silent_readReturns]; exact ih

theorem State.silent_startWait : s.silent.startWait = s.startWait.silent := by
  have hw : s.silent.waiting = s.waiting.silent := by
    simp only [State.waiting, State.armDeadline, State.readNow_eq]; rfl
  simp only [State.startWait_waiting, hw]
  exact State.silent_waitLoop _ _

/-! #### A transmission -/

theorem State.silent_portWrite : s.silent.portWrite = s.portWrite.silent := by
  unfold State.portWrite
  rw [State.silent_unsent, State.silent_env]
  split
  · rfl
  · split <;> rfl

theorem State.silent_portFlush : s.silent.portFlush = s.portFlush.silent := by
  simp only [State.portFlush, State.silent_env]
  split <;> rfl

/-- R223, R346: with no sink present the record of the sent frame goes nowhere. -/
theorem State.silent_logSent : s.silent.logSent = s.logSent.silent := by
  simp only [State.logSent, State.silent_readNow]; rfl

theorem State.silent_afterSend : s.silent.afterSend = s.afterSend.silent := by
  unfold State.afterSend
  rw [State.silent_arb]
  split
  · exact s.silent_startWait
  · rfl

theorem State.silent_transmit : s.silent.transmit = s.transmit.silent := by
  simp only [State.transmit, State.silent_portWrite]
  rcases s.portWrite with s1 | s1 | s1
  · simp only [TxOutcome.silent, State.silent_portFlush]
    rcases s1.portFlush with s2 | s2 | s2
    · simp only [State.silent_logSent, State.silent_afterSend]
    · rfl
    · rfl
  · rfl
  · rfl

theorem State.silent_sendFrame (d : Descriptor) : s.silent.sendFrame d = (s.sendFrame d).silent :=
  State.silent_transmit { s with arb := { s.arb with astate := .tx, txbuf := pack d.cls d.id d.payload, txSent := 0 } }

theorem State.silent_goOn : s.silent.goOn = s.goOn.silent := by
  simp only [State.goOn, State.silent_arb, State.silent_env]
  split
  · rfl
  · rfl
  · exact s.silent_transmit
  · exact s.silent_waitLoop _

/-! #### A step -/

theorem silentAnswer_guarded (p : Bytes) (u : State) (r : Refusal) :
    (if lengthFits p then .next u.silent else .refused r) = silentAnswer (if lengthFits p then .next u else .refused r) := by
  split <;> rfl

/-- R221: whether a command is taken, refused or held depends on `ASTATE` alone. -/
theorem State.silent_accept (i : Instr) (run : Answer) :
    s.silent.accept i (silentAnswer run) = silentAnswer (s.accept i run) := by
  have hhold : s.silent.hold i = (s.hold i).silent := State.silent_goOn { s with ports := requeue _ s.ports }
  simp only [State.accept, State.silent_arb, hhold]
  split <;> rfl

theorem State.silent_deliver (m : MsgId) (p : Bytes) (ck : Word32) :
    s.silent.deliver m p ck = silentAnswer (s.deliver m p ck) := by
  rw [State.deliver, State.deliver, ← silentAnswer_guarded, ← State.silent_goOn]
  rfl

theorem State.silent_streamByte (b : Byte) : s.silent.streamByte b = (s.streamByte b).silent := by
  simp only [State.streamByte, State.silent_takeStamp]; rfl

/-- R223: a sending command that is taken, whatever operands it latches first. -/
theorem silentAnswer_sendFrame (u : State) (d : Descriptor) (r : Refusal) :
    (if lengthFits d.payload then .next (u.silent.sendFrame d) else .refused r)
      = silentAnswer (if lengthFits d.payload then .next (u.sendFrame d) else .refused r) := by
  rw [State.silent_sendFrame, silentAnswer_guarded]

/-- R244, R346: every instruction does the same to what is neither a log nor an open parameter. -/
theorem silent_exec (i : Instr) : exec i s.silent = silentAnswer (exec i s) := by
  have accepts : ∀ {run run' : Answer}, run' = silentAnswer run → s.silent.accept i run' = silentAnswer (s.accept i run) :=
    fun h => by rw [h, State.silent_accept]
  cases hf : frameParts i with
  | some x => obtain ⟨m, p, ck⟩ := x; rw [exec_frame hf, exec_frame hf, State.silent_deliver]
  | none =>
    cases i
    case send d => exact accepts (silentAnswer_sendFrame (s.takeOp opSend d) d _)
    case sendAndWaitAck d => exact accepts (silentAnswer_sendFrame ((s.takeOp opSendAndWaitAck d).setPending d) d _)
    case poll d => exact accepts (silentAnswer_sendFrame ((s.takeOp opPoll d).setPending d) d _)
    case receivePacket d => exact accepts (congrArg Host.Outcome.next (s.takeOp opReceivePacket d).silent_startWait)
    case receive d => exact accepts (congrArg Host.Outcome.next (s.takeOp opReceive d).silent_startWait)
    case reservedOp0 d => exact accepts rfl
    case reservedOp6 d => exact accepts rfl
    case reservedOp7 d => exact accepts rfl
    case checksum c i p => exact silentAnswer_guarded p (s.answerTest _) _
    case pack c i p => exact silentAnswer_guarded p (s.answerTest _) _
    case unpack buf => rfl
    case feedByte b ts => rfl
    case feedEnd => rfl
    case feed c ts => rfl
    case popEvent => rfl
    case idleSync1 => exact congrArg Host.Outcome.next (s.silent_streamByte _)
    case idleNmeaStart => exact congrArg Host.Outcome.next (s.silent_streamByte _)
    case idleUnknown b => exact congrArg Host.Outcome.next (s.silent_streamByte b)
    all_goals cases hf

/-- R244, R346: a step of the silent state is the step seen without its logs. -/
theorem silent_step : step s.silent = silentAnswer (step s) := by
  simp only [step, State.silent_ports]
  split
  · exact congrArg Host.Outcome.next s.silent_goOn
  · rfl
  next f bs ps _ =>
    split
    · exact silent_exec { s with ports := ps } _
    · rfl

end

theorem silentAnswer_eq_next {a : Answer} {u : State} (h : silentAnswer a = .next u) :
    ∃ t, a = .next t ∧ t.silent = u := by
  cases a with
  | next t => cases h; exact ⟨t, rfl, rfl⟩
  | fault r => cases h
  | refused r => cases h

/-- Settles O59: both states have one silent state, so their steps come to one silent state. -/
theorem onlyReadMaxEntersResults : Obligations.OnlyReadMaxEntersResults := by
  unfold Obligations.OnlyReadMaxEntersResults
  intro s t q hq h
  have hsilent : silentAnswer (step { s with params := q }) = .next t.silent := by
    rw [← silent_step, State.silent_withParams hq, silent_step, h]; rfl
  obtain ⟨t', ht', he⟩ := silentAnswer_eq_next hsilent
  have same : ∀ {α : Type} (f : State → α), f t'.silent = f t.silent := fun f => congrArg f he
  exact ⟨t', ht', same State.demux, same State.arb, same State.env, same State.ports, same (·.out.rsp),
    same (·.out.tx), same (·.out.test)⟩

end Sys2Proof.Machine
end

section
/-! PROOFS. The reset and the deadline: `rst` and the commands before it (O49), and no `S_TIMEOUT` before `DEADLINE`
(O53). -/

namespace Sys2Proof.Machine

/-! ### No timeout before the deadline -/

/-- R382: a timeout that is delivered between two states finds the deadline reached in the second. -/
def State.TimesOutInTime (s t : State) : Prop :=
  ∀ r : Result, t.out.rsp = s.out.rsp ++ [r] → r.status = .timeout → t.arb.deadline ≤ t.env.now.toNat

theorem State.TimesOutInTime.of_quiet {s t : State} (h : t.out.rsp = s.out.rsp) : s.TimesOutInTime t :=
  fun r hr => by rw [h] at hr; simp at hr

theorem State.TimesOutInTime.of_answer {s t : State} {r : Result} (h : t.out.rsp = s.out.rsp ++ [r])
    (hst : r.status ≠ .timeout) : s.TimesOutInTime t := fun r' hr' hto => by
  rw [h, List.append_cancel_left_eq, List.singleton_inj] at hr'
  exact absurd (hr' ▸ hto) hst

/-- Of the first state the claim reads the results alone. -/
theorem State.TimesOutInTime.of_rsp {u s t : State} (h : u.TimesOutInTime t) (hr : u.out.rsp = s.out.rsp) :
    s.TimesOutInTime t := fun r hr' => h r (hr ▸ hr')

/-- R227 to R230: an event is answered with `S_OK` or `S_NAK`. -/
theorem classify_ok_or_nak {a : Arbiter} {e : Event} {r : Result} (h : classify a e = some r) :
    r.status = .ok ∨ r.status = .nak := by
  unfold classify at h
  split_ifs at h with hpacket hreceive hack hpoll
  · cases h; cases e <;> exact .inl rfl
  · cases e <;> cases h; exact .inl rfl
  · cases e <;> simp only [classifyAck, reduceCtorEq] at h
    split_ifs at h <;> cases h
    · exact .inl rfl
    · exact .inr rfl
  · cases e <;> simp only [classifyPoll, reduceCtorEq] at h
    split_ifs at h <;> cases h
    · exact .inr rfl
    · exact .inl rfl

/-- R224: W2 alone delivers a timeout, once the clock it has read has reached the deadline. -/
theorem State.beforeRead_timesOutInTime {s t : State} (h : s.beforeRead = (true, t)) : s.TimesOutInTime t := by
  rcases s.beforeRead_cases with ⟨_, hb⟩ | ⟨_, _, _, _, r, _, _, hc, hb⟩ | ⟨_, _, hdue, hb⟩ | ⟨_, _, _, hb⟩ <;>
    rw [hb] at h <;> cases h
  · exact .of_answer rfl fun hto => by rcases classify_ok_or_nak hc with hs | hs <;> rw [hs] at hto <;> cases hto
  · intro _ _ _
    show (State.readNow _).2.arb.deadline ≤ (State.readNow _).2.env.now.toNat
    rw [State.readNow_arb, State.readNow_now]
    exact hdue

/-- R224: a wait reports a timeout by W2 alone, whatever its reads come to. -/
theorem State.waitLoop_timesOutInTime (ds : List ReadDraw) (s : State) : s.TimesOutInTime (State.waitLoop ds s) := by
  have hrun := State.waitLoop_run ds s
  generalize State.waitLoop ds s = u at hrun
  induction hrun with
  | ended hb => exact State.beforeRead_timesOutInTime hb
  | lastRead hb =>
    obtain ⟨_, -, hr⟩ := State.beforeRead_goes hb
    exact .of_quiet (by rw [State.readReturns_out, hr])
  | failed hb =>
    obtain ⟨_, -, hr⟩ := State.beforeRead_goes hb
    exact .of_answer (r := transportResult) (by rw [State.transportError_out, ← hr]) nofun
  | paused hb =>
    obtain ⟨_, -, hr⟩ := State.beforeRead_goes hb
    exact .of_quiet hr
  | again hb _ ih =>
    obtain ⟨_, -, hr⟩ := State.beforeRead_goes hb
    exact ih.of_rsp (by rw [State.readReturns_out, hr])

theorem State.startWait_timesOutInTime (s : State) : s.TimesOutInTime s.startWait := by
  obtain ⟨u, _, he, -, hout, -⟩ := s.startWait_eq
  rw [he]
  exact (State.waitLoop_timesOutInTime _ u).of_rsp (by rw [hout])

/-- R223: a transmission reports no timeout; the wait that may follow it does as any other. -/
theorem State.transmit_timesOutInTime (s : State) : s.TimesOutInTime s.transmit := by
  have hout := s.transmit_outcome
  generalize s.transmit = t at hout
  cases hout with
  | sending _ _ _ hr _ => exact .of_quiet hr
  | failed _ hr _ => exact .of_answer hr nofun
  | sent u ht _ hr _ =>
    subst ht
    unfold State.afterSend
    split
    · exact u.startWait_timesOutInTime.of_rsp hr
    · exact .of_answer (r := okResult) (by rw [State.finish_out, hr]) nofun

theorem State.goOn_timesOutInTime (s : State) : s.TimesOutInTime s.goOn := by
  unfold State.goOn
  split
  · exact .of_quiet rfl
  · exact .of_quiet rfl
  · exact s.transmit_timesOutInTime
  · exact State.waitLoop_timesOutInTime _ s

theorem State.ExecEffect.timesOutInTime {s t : State} {i : Instr} (h : s.ExecEffect i t) : s.TimesOutInTime t := by
  cases h with
  | refused _ _ => exact .of_answer (r := refusedResult) rfl nofun
  | held _ _ => exact (State.goOn_timesOutInTime (s.withPorts _)).of_rsp rfl
  | @sends d _ _ => exact (State.transmit_timesOutInTime ((s.takeOp opSend d).sending d)).of_rsp rfl
  | @asks i op d _ _ _ => exact (State.transmit_timesOutInTime (((s.takeOp op d).setPending d).sending d)).of_rsp rfl
  | @receives i op d _ _ => exact (State.startWait_timesOutInTime (s.takeOp op d)).of_rsp rfl
  | arrives _ _ => exact (State.goOn_timesOutInTime (s.arrive _)).of_rsp rfl
  | tested _ _ ht => exact .of_quiet (by rw [ht.out])

/-- Settles O53, by what each step does; `rst` delivers nothing. -/
theorem noTimeoutBeforeTheDeadline : Obligations.NoTimeoutBeforeTheDeadline := by
  unfold Obligations.NoTimeoutBeforeTheDeadline
  intro s t r h
  have htime : s.TimesOutInTime t := by
    cases h.effect with
    | reset _ => exact .of_quiet rfl
    | goesOn _ => exact s.goOn_timesOutInTime
    | runs _ _ _ he => exact he.timesOutInTime.of_rsp rfl
  exact htime r

/-! ### The reset -/

theorem step_of_rst {s : State} {ps : List PortInput} (h : s.ports = .rst :: ps) :
    step s = .next { s with demux := State.reset.demux, arb := State.reset.arb, ports := ps } := by
  simp only [step, h]; rfl

/-- R328 item 6: `rst` passes a held command and the commands behind it. -/
theorem requeue_commands_rst (x : PortInput) {cs : List PortInput} (ps : List PortInput)
    (hcs : ∀ c ∈ cs, c.isCmd = true) : requeue x (cs ++ .rst :: ps) = .rst :: x :: (cs ++ ps) := by
  have hrst : PortInput.rst.isCmd = false := rfl
  have hnone : ∀ c ∈ cs, ¬ (!c.isCmd) = true := by simpa using hcs
  have hfind : (cs ++ .rst :: ps).find? (fun p => !p.isCmd) = some .rst := by
    simp [List.find?_append, List.find?_eq_none.2 hnone, hrst]
  simp only [requeue, hfind, List.eraseP_append_right _ hnone, List.eraseP_cons, hrst, Bool.not_false, cond_true]

/-- Settles O49: the step that takes `rst`; and before it the step that holds the first of the waiting commands, which
`requeue` puts behind `rst`. -/
theorem resetOverridesEverything : Obligations.ResetOverridesEverything := by
  unfold Obligations.ResetOverridesEverything
  refine ⟨fun s ps => step_of_rst, fun s i b cs ps hs hd hcs hp => ⟨_, ?_, rfl, step_of_rst rfl⟩⟩
  obtain ⟨-, hf, he⟩ := encodeDecode .cmd b i hd
  have hheld := exec_command_busy (s := s.withPorts (cs ++ .rst :: ps)) hf hs
  have hqueue : requeue (.xact .cmd b) (cs ++ .rst :: ps) = .rst :: .xact .cmd b :: (cs ++ ps) :=
    requeue_commands_rst _ ps hcs
  calc step s = exec i (s.withPorts (cs ++ .rst :: ps)) := by simp only [step, hp, hd]; rfl
    _ = .next (s.withPorts (requeue (.xact .cmd b) (cs ++ .rst :: ps))).goOn := by rw [hheld, State.hold, hf, he]; rfl
    _ = .next (s.goOn.withPorts (.rst :: .xact .cmd b :: (cs ++ ps))) := by rw [hqueue, State.withPorts_goOn]

end Sys2Proof.Machine
end
